-- ==== Sys2Proof/Word.lean ====
section
/-! DEFINITION. The widths that the spec gives its values (00_scope.md R10, 30_encoding.md R70, R71). -/

namespace Sys2Proof

/-- `u8`: a memory byte, a payload byte, a byte operand. -/
abbrev Byte := BitVec 8

/-- A 16-bit field of a descriptor: `u16`, or `s16` where a coordinate is read from it (R71, R73). -/
abbrev Half := BitVec 16

/-- `u32`: an address of MEM (R40), or the declared size of a buffer. -/
abbrev Addr := BitVec 32

/-- One operation descriptor, bits 127 down to 0 (R70). -/
abbrev Descriptor := BitVec 128

end Sys2Proof
end

