-- ==== Sys2Proof/Config.lean ====
section
/-! DEFINITION. What is fixed when an instance is constructed (00_scope.md R5 to R9, 10_state.md R24), and the one
free value (44_control.md R179). A configuration is plain data: the state holds it, so that every claim holds for every
configuration, and no operation writes it. The default values stand in Sys2Proof/Machine/Defaults.lean. -/

namespace Sys2Proof

/-- `HEIGHT`: the supported panel heights and no others (R5, R9: a configuration with any other height does not exist). -/
inductive PanelHeight where
  | h16
  | h32
  | h64
  deriving DecidableEq, Repr

/-- `HEIGHT` in pixels. -/
def PanelHeight.pixels : PanelHeight → Nat
  | .h16 => 16
  | .h32 => 32
  | .h64 => 64

/-- The enumerated height of a number of pixels, where there is one (R9). -/
def PanelHeight.ofPixels (n : Nat) : Option PanelHeight :=
  if n = 16 then some .h16 else if n = 32 then some .h32 else if n = 64 then some .h64 else none

/-- `CMD`: one command byte per symbolic name of 30_encoding.md R88 (R8). -/
structure CommandTable where
  displayOff : Byte
  displayOn : Byte
  setDisplayClockDiv : Byte
  setMultiplex : Byte
  setDisplayOffset : Byte
  setStartLine : Byte
  chargePump : Byte
  memoryMode : Byte
  segRemap : Byte
  comScanDec : Byte
  setComPins : Byte
  setContrast : Byte
  setPrecharge : Byte
  setVcomDetect : Byte
  displayAllOnResume : Byte
  normalDisplay : Byte
  invertDisplay : Byte
  columnAddr : Byte
  pageAddr : Byte
  pageSelect : Byte
  setLowColumn : Byte
  setHighColumn : Byte
  rightHorizontalScroll : Byte
  leftHorizontalScroll : Byte
  verticalAndRightHorizontalScroll : Byte
  verticalAndLeftHorizontalScroll : Byte
  setVerticalScrollArea : Byte
  activateScroll : Byte
  deactivateScroll : Byte
  deriving DecidableEq, Repr

/-- One byte of a scroll template: a fixed byte, the start or stop page operand as given, or `HEIGHT` (30_encoding.md R91). -/
inductive ScrollItem where
  | byte (b : Byte)
  | start
  | stop
  | height
  deriving DecidableEq, Repr

/-- One entry of `SCROLL_SEQ`: a function of the start and stop pages to bytes (R91, R174, 92_eei_decisions.md D22), held as
plain data: the bytes of the page pairs in `special`, and for every other pair the template. DESIGN CHOICE, log entry 9, of the
form alone; safe: every function is one of these, since `special` may list every pair. -/
structure ScrollSequence where
  template : List ScrollItem
  special : List ((Byte × Byte) × List Byte)
  deriving DecidableEq, Repr

/-- `SCROLL_SEQ`: the four scroll sequences (R91). -/
structure ScrollTable where
  hr : ScrollSequence
  hl : ScrollSequence
  dr : ScrollSequence
  dl : ScrollSequence
  deriving DecidableEq, Repr

/-- `XFER_OFFSET`, the switch of 93_implementation_defined.md U1: how the source offset of a transferred byte is counted.
The spec's rule is `formula` (42_transfer.md R141, decision D13); the two others are the counters of R143. -/
inductive XferOffset where
  | formula
  | perColumn
  | perByteSent
  deriving DecidableEq, Repr

/-- The configuration of an instance (R5 to R8, R24). -/
structure Config where
  /-- `WIDTH`, panel width in pixels (R5). -/
  width : Nat
  /-- `HEIGHT`, panel height (R5). -/
  height : PanelHeight
  /-- `BUS_ADDR` (R6). -/
  busAddr : BitVec 7
  /-- `CTRL_CMD` (R7). -/
  ctrlCmd : Byte
  /-- `CTRL_DATA` (R7). -/
  ctrlData : Byte
  /-- `CMD` (R8). -/
  cmd : CommandTable
  /-- `SCROLL_SEQ` (R91). -/
  scroll : ScrollTable
  /-- `XFER_OFFSET` (U1). -/
  xferOffset : XferOffset
  deriving DecidableEq, Repr

/-- What an instance is constructed from (R6 to R8): the geometry and the bus address as plain numbers, before any check. -/
structure Parameters where
  width : Nat
  height : Nat
  busAddr : Nat
  ctrlCmd : Byte
  ctrlData : Byte
  cmd : CommandTable
  scroll : ScrollTable
  xferOffset : XferOffset
  deriving DecidableEq, Repr

/-- `PAGES = HEIGHT/8` (R5). -/
def Config.pages (c : Config) : Nat := c.height.pixels / 8

/-- A configuration is well-formed (R9). The clauses on `HEIGHT`, `PAGES` and `BUS_ADDR` hold by the types. -/
def Config.wf (c : Config) : Bool := decide (1 ≤ c.width) && decide (c.width ≤ 256) && decide (c.ctrlCmd ≠ c.ctrlData)

/-- FREE VALUE (log entry 5): the byte count that the transport reports to the `n`-th `BusRead`, an `s32` in two's
complement. It has no body: "in a model `n` is a free draw of the step, under no law" (44_control.md R179). -/
opaque Config.busReadCount : Nat → BitVec 32

end Sys2Proof
end

