-- ==== Sys2Proof/Syntax.lean ====
section
/-! DEFINITION. The twenty operations (30_encoding.md R74), one constructor per row of spec/opcode_table.json, operands
in the order of the assembler syntax (R78) and with the widths of R71. -/

namespace Sys2Proof

/-- One operation with its operands. Coordinates are `s16` fields, read as signed integers by the machine (R73). -/
inductive Instr where
  /-- `INIT` (R110). -/
  | init
  /-- `SETBUF w, h, buffer, size` (R114). -/
  | setbuf (w h : Half) (buffer size : Addr)
  /-- `SETROT r` (R116). -/
  | setrot (r : BitVec 2)
  /-- `SETPIXEL x, y, colour` (R134), the colour as its code (R80). -/
  | setpixel (x y : Half) (colour : BitVec 2)
  /-- `DRAWBITMAP x, y, w, h, data, invert` (R162). -/
  | drawbitmap (x y w h : Half) (data : Addr) (invert : Bool)
  /-- `CLEARBUF` (R145). -/
  | clearbuf
  /-- `XFER x, y, w, h, src` (R141). -/
  | xfer (x y w h : Half) (src : Addr)
  /-- `UPDATE` (R144). -/
  | update
  /-- `FILLSCREEN pattern, delay` (R146). -/
  | fillscreen (pattern : Byte) (delay : Half)
  /-- `FILLPAGE page, pattern, delay` (R147). -/
  | fillpage (page pattern : Byte) (delay : Half)
  /-- `POWERDOWN` (R170). -/
  | powerdown
  /-- `SETENABLED on` (R171). -/
  | setenabled (on : Bool)
  /-- `SETCONTRAST c` (R172). -/
  | setcontrast (c : Byte)
  /-- `SETINVERT inv` (R173). -/
  | setinvert (inv : Bool)
  /-- `SCROLL_HR start, stop` (R174). -/
  | scrollHr (start stop : Byte)
  /-- `SCROLL_HL start, stop` (R175). -/
  | scrollHl (start stop : Byte)
  /-- `SCROLL_DR start, stop` (R176). -/
  | scrollDr (start stop : Byte)
  /-- `SCROLL_DL start, stop` (R177). -/
  | scrollDl (start stop : Byte)
  /-- `STOPSCROLL` (R178). -/
  | stopscroll
  /-- `CHECKCONN` (R179). -/
  | checkconn
  deriving DecidableEq, Repr

/-- The operations without operands: the rows of the opcode map (R74). -/
inductive Op where
  | init | setbuf | setrot
  | setpixel | drawbitmap | clearbuf
  | xfer | update | fillscreen | fillpage
  | powerdown | setenabled | setcontrast | setinvert
  | scrollHr | scrollHl | scrollDr | scrollDl | stopscroll
  | checkconn
  deriving DecidableEq, Repr

/-- The formats: which fields of a descriptor an operation uses (R72). -/
inductive Format where
  | n | f | q | b | s | ls | lp | p | r | rb | m
  deriving DecidableEq, Repr

end Sys2Proof
end

