-- ==== Sys2Proof/WellFormed.lean ====
section
/-! DEFINITION. Which operations have a legal descriptor. The widths of R71 are in the types; what is left to check is
the colour code (30_encoding.md R75 (c), R80). -/

namespace Sys2Proof

/-- A colour code is legal: 0, 1 or 2; "`3` is illegal" (R80). -/
def colourCodeOk (c : BitVec 2) : Bool := c != 3#2

/-- The operation can be written as a legal descriptor (R75, R76). -/
def Instr.wf : Instr → Bool
  | .setpixel _ _ colour => colourCodeOk colour
  | .init | .setbuf _ _ _ _ | .setrot _ | .drawbitmap _ _ _ _ _ _ | .clearbuf
  | .xfer _ _ _ _ _ | .update | .fillscreen _ _ | .fillpage _ _ _
  | .powerdown | .setenabled _ | .setcontrast _ | .setinvert _
  | .scrollHr _ _ | .scrollHl _ _ | .scrollDr _ _ | .scrollDl _ _ | .stopscroll
  | .checkconn => true

end Sys2Proof
end

