-- ==== Sys2Proof/Decode.lean ====
section
/-! DEFINITION. The inbound encoding, part A of 30_encoding.md: the fields of a descriptor (R71, R73), the opcode map
(R74), the formats and their must-be-zero bits (R72, R75), the decoder, and after it the encoder. -/

namespace Sys2Proof

/-! ### Fields (R71) -/

/-- `OP`, bits 7:0. -/
def fieldOp (d : Descriptor) : Byte := d.extractLsb' 0 8
/-- `A`, bits 15:8. -/
def fieldA (d : Descriptor) : Byte := d.extractLsb' 8 8
/-- `B`, bits 23:16. -/
def fieldB (d : Descriptor) : Byte := d.extractLsb' 16 8
/-- `RSV`, bits 31:24. -/
def fieldRsv (d : Descriptor) : Byte := d.extractLsb' 24 8
/-- `X`, bits 47:32. -/
def fieldX (d : Descriptor) : Half := d.extractLsb' 32 16
/-- `Y`, bits 63:48. -/
def fieldY (d : Descriptor) : Half := d.extractLsb' 48 16
/-- `W`, bits 79:64. -/
def fieldW (d : Descriptor) : Half := d.extractLsb' 64 16
/-- `H`, bits 95:80. -/
def fieldH (d : Descriptor) : Half := d.extractLsb' 80 16
/-- `PTR`, bits 127:96. -/
def fieldPtr (d : Descriptor) : Addr := d.extractLsb' 96 32
/-- `DELAY`, bits 47:32, overlaying `X` in the fills. -/
def fieldDelay (d : Descriptor) : Half := d.extractLsb' 32 16
/-- `SIZE`, bits 63:32, overlaying `X` and `Y` in SETBUF. -/
def fieldSize (d : Descriptor) : Addr := d.extractLsb' 32 32

/-! ### The opcode map (R74) -/

/-- The `OP` value of an operation. -/
def Op.code : Op → Byte
  | .init => 0x01#8
  | .setbuf => 0x02#8
  | .setrot => 0x03#8
  | .setpixel => 0x10#8
  | .drawbitmap => 0x11#8
  | .clearbuf => 0x12#8
  | .xfer => 0x20#8
  | .update => 0x21#8
  | .fillscreen => 0x22#8
  | .fillpage => 0x23#8
  | .powerdown => 0x30#8
  | .setenabled => 0x31#8
  | .setcontrast => 0x32#8
  | .setinvert => 0x33#8
  | .scrollHr => 0x40#8
  | .scrollHl => 0x41#8
  | .scrollDr => 0x42#8
  | .scrollDl => 0x43#8
  | .stopscroll => 0x44#8
  | .checkconn => 0x50#8

/-- The format of an operation. -/
def Op.format : Op → Format
  | .init | .clearbuf | .update | .powerdown | .stopscroll | .checkconn => .n
  | .setenabled | .setinvert => .f
  | .setrot => .q
  | .setcontrast => .b
  | .scrollHr | .scrollHl | .scrollDr | .scrollDl => .s
  | .fillscreen => .ls
  | .fillpage => .lp
  | .setpixel => .p
  | .xfer => .r
  | .drawbitmap => .rb
  | .setbuf => .m

/-- The rows of the opcode map. -/
def Op.all : List Op :=
  [.init, .setbuf, .setrot, .setpixel, .drawbitmap, .clearbuf, .xfer, .update, .fillscreen, .fillpage,
   .powerdown, .setenabled, .setcontrast, .setinvert, .scrollHr, .scrollHl, .scrollDr, .scrollDl, .stopscroll, .checkconn]

/-- The operation with this `OP` value, where there is one: "`OP` values not listed are illegal" (R74). -/
def Op.ofCode (b : Byte) : Option Op := Op.all.find? fun o => o.code == b

/-! ### Must-be-zero bits (R72, R75) -/

/-- `A[7:1]` is zero: all of `A` but a flag. -/
def flagOnly (a : Byte) : Bool := a &&& 0xFE#8 == 0#8
/-- `A[7:2]` is zero: all of `A` but a two-bit code. -/
def codeOnly (a : Byte) : Bool := a &&& 0xFC#8 == 0#8

/-- Bits 31:16 are zero: neither `B` nor `RSV` is used. -/
def restZero (d : Descriptor) : Bool := fieldB d == 0#8 && fieldRsv d == 0#8
/-- `X` and `Y` are zero. -/
def xyZero (d : Descriptor) : Bool := fieldX d == 0#16 && fieldY d == 0#16
/-- `W`, `H` and `PTR` are zero. -/
def whpZero (d : Descriptor) : Bool := fieldW d == 0#16 && fieldH d == 0#16 && fieldPtr d == 0#32

/-- Every bit that the format does not use is zero (R72, R75 (b)). -/
def Format.unusedZero : Format → Descriptor → Bool
  | .n, d => fieldA d == 0#8 && restZero d && xyZero d && whpZero d
  | .f, d => flagOnly (fieldA d) && restZero d && xyZero d && whpZero d
  | .q, d => codeOnly (fieldA d) && restZero d && xyZero d && whpZero d
  | .b, d => restZero d && xyZero d && whpZero d
  | .s, d => fieldRsv d == 0#8 && xyZero d && whpZero d
  | .ls, d => restZero d && fieldY d == 0#16 && whpZero d
  | .lp, d => fieldRsv d == 0#8 && fieldY d == 0#16 && whpZero d
  | .p, d => codeOnly (fieldA d) && restZero d && whpZero d
  | .r, d => fieldA d == 0#8 && restZero d
  | .rb, d => flagOnly (fieldA d) && restZero d
  | .m, d => fieldA d == 0#8 && restZero d

/-! ### The decoder -/

/-- `A[0]`. -/
def flagOf (a : Byte) : Bool := a.getLsbD 0
/-- `A[1:0]`. -/
def codeOf (a : Byte) : BitVec 2 := a.extractLsb' 0 2

/-- The operation with its operands, each field taken as is (R73). -/
def Op.build (d : Descriptor) : Op → Instr
  | .init => .init
  | .setbuf => .setbuf (fieldW d) (fieldH d) (fieldPtr d) (fieldSize d)
  | .setrot => .setrot (codeOf (fieldA d))
  | .setpixel => .setpixel (fieldX d) (fieldY d) (codeOf (fieldA d))
  | .drawbitmap => .drawbitmap (fieldX d) (fieldY d) (fieldW d) (fieldH d) (fieldPtr d) (flagOf (fieldA d))
  | .clearbuf => .clearbuf
  | .xfer => .xfer (fieldX d) (fieldY d) (fieldW d) (fieldH d) (fieldPtr d)
  | .update => .update
  | .fillscreen => .fillscreen (fieldA d) (fieldDelay d)
  | .fillpage => .fillpage (fieldB d) (fieldA d) (fieldDelay d)
  | .powerdown => .powerdown
  | .setenabled => .setenabled (flagOf (fieldA d))
  | .setcontrast => .setcontrast (fieldA d)
  | .setinvert => .setinvert (flagOf (fieldA d))
  | .scrollHr => .scrollHr (fieldA d) (fieldB d)
  | .scrollHl => .scrollHl (fieldA d) (fieldB d)
  | .scrollDr => .scrollDr (fieldA d) (fieldB d)
  | .scrollDl => .scrollDl (fieldA d) (fieldB d)
  | .stopscroll => .stopscroll
  | .checkconn => .checkconn

/-- Why a descriptor is illegal (R75), or is no descriptor at all (R77: "always 128 bits"). -/
inductive DecodeError where
  /-- R75 (a): `OP` is none of the twenty values. -/
  | unknownOp
  /-- R75 (b): a bit that the format does not use is 1. -/
  | unusedBitSet
  /-- R75 (c): a SETPIXEL with colour code 3. -/
  | colourThree
  /-- Stored bytes that are not sixteen (R77). -/
  | wrongLength
  deriving DecidableEq, Repr

/-- Decode a descriptor: "a function of the descriptor alone" (R76), rejecting what R75 calls illegal. -/
def decode (d : Descriptor) : Except DecodeError Instr :=
  match Op.ofCode (fieldOp d) with
  | none => .error .unknownOp
  | some op =>
    if op.format.unusedZero d then
      if op == .setpixel && !colourCodeOk (codeOf (fieldA d)) then .error .colourThree else .ok (op.build d)
    else .error .unusedBitSet

/-- The descriptor stored little-endian in these bytes, "bits 7:0 in the lowest-addressed byte" (R70). -/
def descriptorOfBytes : List Byte → Nat
  | [] => 0
  | b :: bs => b.toNat + 256 * descriptorOfBytes bs

/-- Decode a descriptor from the bytes in which a platform stores it (R70): exactly sixteen (R77). -/
def decodeBytes (bs : List Byte) : Except DecodeError Instr :=
  if bs.length = 16 then decode (BitVec.ofNat 128 (descriptorOfBytes bs)) else .error .wrongLength

/-- The first `n` bytes of a value, lowest first. -/
def littleEndian : Nat → Nat → List Byte
  | 0, _ => []
  | n + 1, v => BitVec.ofNat 8 v :: littleEndian n (v / 256)

/-- The descriptor whose bits, numbered from bit 0, are the low `nbits` bits of `w`, the rest 0. -/
def tableWord (nbits w : Nat) : Descriptor := BitVec.ofNat 128 (w % 2 ^ nbits)

/-- What the decoder reads from an instruction whose bits are `w`, laid out in bytes as R70 stores a descriptor. -/
def decodeTableWord (nbits w : Nat) : Option Instr :=
  if nbits ≤ 128 then (decodeBytes (littleEndian 16 (tableWord nbits w).toNat)).toOption else none

/-! ### The encoder -/

/-- A descriptor put together from its fields (R71). -/
def pack (op a b rsv : Byte) (x y w h : Half) (ptr : Addr) : Descriptor :=
  ptr ++ (h ++ (w ++ (y ++ (x ++ (rsv ++ (b ++ (a ++ op)))))))

/-- A flag in `A[0]`. -/
def flagByte (f : Bool) : Byte := if f then 1#8 else 0#8

/-- The row of the opcode map that an operation belongs to. -/
def Instr.op : Instr → Op
  | .init => .init
  | .setbuf _ _ _ _ => .setbuf
  | .setrot _ => .setrot
  | .setpixel _ _ _ => .setpixel
  | .drawbitmap _ _ _ _ _ _ => .drawbitmap
  | .clearbuf => .clearbuf
  | .xfer _ _ _ _ _ => .xfer
  | .update => .update
  | .fillscreen _ _ => .fillscreen
  | .fillpage _ _ _ => .fillpage
  | .powerdown => .powerdown
  | .setenabled _ => .setenabled
  | .setcontrast _ => .setcontrast
  | .setinvert _ => .setinvert
  | .scrollHr _ _ => .scrollHr
  | .scrollHl _ _ => .scrollHl
  | .scrollDr _ _ => .scrollDr
  | .scrollDl _ _ => .scrollDl
  | .stopscroll => .stopscroll
  | .checkconn => .checkconn

/-- The one descriptor of a well-formed operation (R72, R76): its fields, and zero everywhere else. -/
def encode (i : Instr) : Descriptor :=
  let op := i.op.code
  match i with
  | .init | .clearbuf | .update | .powerdown | .stopscroll | .checkconn => pack op 0 0 0 0 0 0 0 0
  | .setenabled f | .setinvert f => pack op (flagByte f) 0 0 0 0 0 0 0
  | .setrot r => pack op (r.setWidth 8) 0 0 0 0 0 0 0
  | .setcontrast c => pack op c 0 0 0 0 0 0 0
  | .scrollHr s e | .scrollHl s e | .scrollDr s e | .scrollDl s e => pack op s e 0 0 0 0 0 0
  | .fillscreen pattern delay => pack op pattern 0 0 delay 0 0 0 0
  | .fillpage page pattern delay => pack op pattern page 0 delay 0 0 0 0
  | .setpixel x y c => pack op (c.setWidth 8) 0 0 x y 0 0 0
  | .xfer x y w h src => pack op 0 0 0 x y w h src
  | .drawbitmap x y w h data inv => pack op (flagByte inv) 0 0 x y w h data
  | .setbuf w h buffer size => pack op 0 0 0 (size.extractLsb' 0 16) (size.extractLsb' 16 16) w h buffer

/-! ### The masks of the opcode table (R76) -/

/-- The `match` of the operation's row of spec/opcode_table.json. -/
def Op.tableMatch (o : Op) : Descriptor := o.code.setWidth 128

/-- The `mask` of the operation's row of spec/opcode_table.json: a 1 at the `OP` bits and at every bit the format does not use. -/
def Format.tableMask : Format → Descriptor
  | .n => 0xFFFFFFFFFFFFFFFFFFFFFFFFFFFFFFFF#128
  | .f => 0xFFFFFFFFFFFFFFFFFFFFFFFFFFFFFEFF#128
  | .q => 0xFFFFFFFFFFFFFFFFFFFFFFFFFFFFFCFF#128
  | .b => 0xFFFFFFFFFFFFFFFFFFFFFFFFFFFF00FF#128
  | .s => 0xFFFFFFFFFFFFFFFFFFFFFFFFFF0000FF#128
  | .ls => 0xFFFFFFFFFFFFFFFFFFFF0000FFFF00FF#128
  | .lp => 0xFFFFFFFFFFFFFFFFFFFF0000FF0000FF#128
  | .p => 0xFFFFFFFFFFFFFFFF00000000FFFFFCFF#128
  | .r => 0x000000000000000000000000FFFFFFFF#128
  | .rb => 0x000000000000000000000000FFFFFEFF#128
  | .m => 0x000000000000000000000000FFFFFFFF#128

/-- A descriptor matches an operation's row: `D & mask = match` (R76). -/
def Op.rowMatches (o : Op) (d : Descriptor) : Bool := d &&& o.format.tableMask == o.tableMatch

end Sys2Proof
end

