-- ==== Sys2Proof/Machine/Defaults.lean ====
section
/-! DEFINITION. The default configuration: the default instance of 00_scope.md R5 (width 128, height 64), the default bus
address (R6), and the defaults of the control bytes (R7), of the command table (30_encoding.md R88) and of the scroll
sequences (R91). PRESUMED, log entry 8: the spec itself marks every one of the last three but `PAGESELECT = 0xB0` as
general knowledge of the controller family; unsafe for an instance with other values. -/

namespace Sys2Proof.Machine

/-- The third column of the catalogue (R88). -/
def defaultCommands : CommandTable where
  displayOff := 0xAE#8
  displayOn := 0xAF#8
  setDisplayClockDiv := 0xD5#8
  setMultiplex := 0xA8#8
  setDisplayOffset := 0xD3#8
  setStartLine := 0x40#8
  chargePump := 0x8D#8
  memoryMode := 0x20#8
  segRemap := 0xA0#8
  comScanDec := 0xC8#8
  setComPins := 0xDA#8
  setContrast := 0x81#8
  setPrecharge := 0xD9#8
  setVcomDetect := 0xDB#8
  displayAllOnResume := 0xA4#8
  normalDisplay := 0xA6#8
  invertDisplay := 0xA7#8
  columnAddr := 0x21#8
  pageAddr := 0x22#8
  pageSelect := 0xB0#8
  setLowColumn := 0x00#8
  setHighColumn := 0x10#8
  rightHorizontalScroll := 0x26#8
  leftHorizontalScroll := 0x27#8
  verticalAndRightHorizontalScroll := 0x29#8
  verticalAndLeftHorizontalScroll := 0x2A#8
  setVerticalScrollArea := 0xA3#8
  activateScroll := 0x2F#8
  deactivateScroll := 0x2E#8

/-- The default scroll sequences, the literal bytes of R91's table. DESIGN CHOICE, log entry 9: `SCROLL_SEQ` is a parameter of its
own, so with a `CMD` that is not the default the command bytes inside a sequence stay those of `SCROLL_SEQ`, and the six scroll
entries of `CMD` other than `deactivateScroll` feed no operation; the spec leaves open whether the two follow each other, since
R88 says that the scroll operations use those entries and R91 gives literals. Unsafe for an instance that changes only `CMD`. -/
def defaultScroll : ScrollTable where
  hr := ⟨[.byte 0x26#8, .byte 0x00#8, .start, .byte 0x00#8, .stop, .byte 0x00#8, .byte 0xFF#8, .byte 0x2F#8], []⟩
  hl := ⟨[.byte 0x27#8, .byte 0x00#8, .start, .byte 0x00#8, .stop, .byte 0x00#8, .byte 0xFF#8, .byte 0x2F#8], []⟩
  dr := ⟨[.byte 0xA3#8, .byte 0x00#8, .height, .byte 0x29#8, .byte 0x00#8, .start, .byte 0x00#8, .stop, .byte 0x01#8, .byte 0x2F#8], []⟩
  dl := ⟨[.byte 0xA3#8, .byte 0x00#8, .height, .byte 0x2A#8, .byte 0x00#8, .start, .byte 0x00#8, .stop, .byte 0x01#8, .byte 0x2F#8], []⟩

/-- The default instance (R5 to R8), with the formula of R141 for XFER's offsets (decision D13). -/
def defaultConfig : Config where
  width := 128
  height := .h64
  busAddr := 0x3C#7
  ctrlCmd := 0x00#8
  ctrlData := 0x40#8
  cmd := defaultCommands
  scroll := defaultScroll
  xferOffset := .formula

/-- The parameters of the default instance (R5 to R8). -/
def defaultParameters : Parameters where
  width := 128
  height := 64
  busAddr := 0x3C
  ctrlCmd := 0x00#8
  ctrlData := 0x40#8
  cmd := defaultCommands
  scroll := defaultScroll
  xferOffset := .formula

/-- The configuration of these parameters, where they are well-formed (R9): a height outside the enumeration, a width outside
1 to 256, a bus address of more than 7 bits and equal control bytes are refused. -/
def constructConfig (p : Parameters) : Option Config :=
  match PanelHeight.ofPixels p.height with
  | none => none
  | some h =>
    let c : Config :=
      { width := p.width, height := h, busAddr := BitVec.ofNat 7 p.busAddr, ctrlCmd := p.ctrlCmd, ctrlData := p.ctrlData,
        cmd := p.cmd, scroll := p.scroll, xferOffset := p.xferOffset }
    if c.wf && decide (p.busAddr ≤ 127) then some c else none

end Sys2Proof.Machine
end

