-- ==== Sys2Proof/Machine/State.lean ====
section
/-! DEFINITION. The state: FBSEQ's five registers (10_state.md R20), its read-only configuration (R24), and what an
execution shows to the outside or takes from it (00_scope.md R13): host memory, the bus trace, the responses, the host's coming
moves and the transport's coming answers. Plain data. -/

namespace Sys2Proof.Machine

/-- MEM as the bytes that differ from what an unlisted address reads as, addresses strictly rising (20_memory.md R40). -/
abbrev Memory := List Host.Cell

/-- One event of the bus trace (R11): `W(a, bs)` or `R(a, n)`. -/
inductive BusEvent where
  | write (addr : BitVec 7) (bytes : List Byte)
  | read (addr : BitVec 7) (count : Nat)
  deriving DecidableEq, Repr

/-- The causes of a fault response (60_exceptions.md R191, R192; there are no others, R193). -/
inductive Cause where
  /-- Raised by any illegal descriptor (R191). -/
  | illegalOperation
  /-- Raised by SETPIXEL, DRAWBITMAP, CLEARBUF and UPDATE while `BUF_VALID = 0` (R192). -/
  | noBuffer
  deriving DecidableEq, Repr

/-- The response of an operation (30_encoding.md R84): `Done(v)` with `v` an `s32` in two's complement, or `Fault(cause)`. -/
inductive Response where
  | done (v : BitVec 32)
  | fault (cause : Cause)
  deriving DecidableEq, Repr

/-- What the host does next: issue an operation (R12), or write one byte of its memory between operations (R57, R236). -/
inductive HostMove where
  | issue (d : Descriptor)
  | store (a : Addr) (v : Byte)
  deriving DecidableEq, Repr

/-- The state of the machine between two moves of the host; the sequencer is then idle (R22), or blocked for good in a bus call
that the transport never answers (60_exceptions.md R197). -/
structure State where
  /-- The configuration, read-only (R24). -/
  cfg : Config
  /-- `ROT` (R25). -/
  rot : BitVec 2
  /-- `BUF_VALID` (R26). -/
  bufValid : Bool
  /-- `BUF_BASE` (R26). -/
  bufBase : Addr
  /-- `BUF_W` (R26). -/
  bufW : Half
  /-- `BUF_H` (R26). -/
  bufH : Half
  /-- MEM (R40). -/
  mem : Memory
  /-- The bus trace, oldest event first (R11). -/
  trace : List BusEvent
  /-- The responses given so far, oldest first (R84, R235). -/
  responses : List Response
  /-- The host's coming moves, next one first: the request port (R70), log entry 1. -/
  host : List HostMove
  /-- The transport: how many more bus calls it answers, `none` where it answers every one (R197, 93_implementation_defined.md
  U10). An input of the model, log entry 6. -/
  answersLeft : Option Nat
  /-- An operation waits for an answer that never comes: "the operation then never responds" (R197). -/
  blocked : Bool
  /-- THE MODEL'S OWN: how many free values have been drawn, log entry 5. -/
  draws : Nat
  deriving DecidableEq, Repr

/-- Reasons for the machine to stop with a fault: NONE. The two faults of the spec are responses, after which FBSEQ "accepts
the next operation" (60_exceptions.md R194, R196): "Nothing in this core is fatal". -/
inductive Fault where
  deriving DecidableEq, Repr

/-- Reasons for a step to be refused. -/
inductive Refusal where
  /-- The named instruction has no meaning in the model. Raised by no arm of exec. Safe: the machine stops. -/
  | notModelled (mnemonic : String)
  /-- An access to an address above `2^32 - 1`, raised by SETPIXEL, DRAWBITMAP, CLEARBUF, XFER and UPDATE, whose address
  sums "do not wrap": such a request is "outside the admitted requests" and "refused by the model" (20_memory.md R53,
  93_implementation_defined.md U9, 92_eei_decisions.md D32). Safe: the machine stops. -/
  | addressPastSpace
  deriving DecidableEq, Repr

/-- The fields of an instance right after reset (70_reset_and_hazards.md R220): `ROT = 0`, `BUF_VALID = 0`, the trace empty, the
sequencer idle. `BUF_BASE`, `BUF_W` and `BUF_H` are unspecified there: DESIGN CHOICE 0, unsafe, log entry 4. Host memory is
untouched by reset: DESIGN CHOICE nothing listed, unsafe, log entry 3. The transport answers every call: DESIGN CHOICE, unsafe,
log entry 6. These are values only; `State.construct` says which configurations have an instance. -/
def State.ofConfig (c : Config) : State where
  cfg := c
  rot := 0#2
  bufValid := false
  bufBase := 0#32
  bufW := 0#16
  bufH := 0#16
  mem := []
  trace := []
  responses := []
  host := []
  answersLeft := none
  blocked := false
  draws := 0

/-- Construction (R220): the instance of these parameters. A configuration that is not well-formed "cannot be reset into:
construction fails" (R220, 00_scope.md R9). -/
def State.construct (p : Parameters) : Option State := (constructConfig p).map State.ofConfig

/-- The machine right after reset, at the default instance (log entry 8). -/
def State.reset : State := State.ofConfig defaultConfig

end Sys2Proof.Machine
end

