-- ==== Sys2Proof/Machine/Ops.lean ====
section
/-! DEFINITION. The named operations over memory, the bus, the registers and the host interface, and the one operation that
takes a fault. -/

namespace Sys2Proof.Machine

/-- What a meaning answers. -/
abbrev Result := Host.Outcome State Fault Refusal

/-! ### Host memory (20_memory.md) -/

/-- What an unlisted byte reads as. The spec leaves memory's contents to the host (R220, D8): DESIGN CHOICE, unsafe, log entry 3. -/
def Memory.unlisted : Byte := 0x00#8

/-- The byte at an address. -/
def Memory.read : Memory → Nat → Byte
  | [], _ => Memory.unlisted
  | (k, v) :: m, a => if a = k then v else Memory.read m a

/-- The memory with nothing listed at an address. -/
def Memory.erase (m : Memory) (a : Nat) : Memory := m.filter fun cell => cell.1 != a

/-- List a byte before the first higher address. -/
def Memory.insert (a : Nat) (v : Byte) : Memory → Memory
  | [] => [(a, v)]
  | (k, u) :: m => if a < k then (a, v) :: (k, u) :: m else (k, u) :: Memory.insert a v m

/-- Write a byte, keeping the canonical form. -/
def Memory.write (m : Memory) (a : Nat) (v : Byte) : Memory :=
  if v = Memory.unlisted then Memory.erase m a else Memory.insert a v (Memory.erase m a)

/-- Strictly rising addresses from `lo` on, all inside the 32-bit space, and no byte listed that is what an unlisted one reads as. -/
def Memory.wfFrom : Nat → Memory → Bool
  | _, [] => true
  | lo, (k, v) :: m => decide (lo ≤ k) && decide (k < 2 ^ 32) && v != Memory.unlisted && Memory.wfFrom (k + 1) m

/-- The canonical form. -/
def Memory.wf (m : Memory) : Bool := Memory.wfFrom 0 m

/-- MEM has 32-bit addresses (R40); sums above them do not wrap (R53). -/
def inSpace (a : Nat) : Bool := decide (a < 2 ^ 32)

/-- `MemRead(addr, 1)`; no byte past the space. -/
def memRead (a : Nat) (s : State) : Option Byte := if inSpace a then some (s.mem.read a) else none

/-- `MemWrite(addr, 1, v)`; nothing past the space. -/
def memWrite (a : Nat) (v : Byte) (s : State) : Option State :=
  if inSpace a then some { s with mem := s.mem.write a v } else none

/-- The bytes at these addresses, read in order. -/
def memReads : List Nat → State → Option (List Byte)
  | [], _ => some []
  | a :: as, s =>
    match memRead a s, memReads as s with
    | some b, some bs => some (b :: bs)
    | _, _ => none

/-- Write the same byte to `n` addresses from `a` on, ascending. -/
def memFill (v : Byte) : Nat → Nat → State → Option State
  | 0, _, s => some s
  | n + 1, a, s =>
    match memWrite a v s with
    | none => none
    | some t => memFill v n (a + 1) t

/-! ### The bus (00_scope.md R11, 30_encoding.md R85 to R87) -/

/-- The event of `SendCmd(b)`: `BusWrite(BUS_ADDR, [CTRL_CMD, b])`. -/
def cmdFrame (c : Config) (b : Byte) : BusEvent := .write c.busAddr [c.ctrlCmd, b]

/-- The event of `SendData(b)`: `BusWrite(BUS_ADDR, [CTRL_DATA, b])`. -/
def dataFrame (c : Config) (b : Byte) : BusEvent := .write c.busAddr [c.ctrlData, b]

/-- The transport answers the next `n` bus calls. -/
def State.willAnswer (n : Nat) (s : State) : Bool :=
  match s.answersLeft with
  | none => true
  | some k => decide (n ≤ k)

/-- After bus calls that were all answered: their events are on the trace. The answers themselves are discarded
(60_exceptions.md R197), so none is drawn: log entry 6. -/
def State.emit (es : List BusEvent) (s : State) : State :=
  { s with trace := s.trace ++ es, answersLeft := s.answersLeft.map (· - es.length) }

/-- After bus calls of which one was never answered: the events up to that one's are on the trace, and FBSEQ waits "for good"
(R197). -/
def State.block (es : List BusEvent) (s : State) : State :=
  { s with trace := s.trace ++ es.take (s.answersLeft.getD 0 + 1), answersLeft := some 0, blocked := true }

/-- Bus calls in order, each blocking until the transport answers (00_scope.md R11, R12), and then `k`. "A blocked transport (one
that never answers) blocks FBSEQ for good" (R197): the execution does not end, which is neither a fault nor a stop. -/
def busCalls (es : List BusEvent) (k : State → Result) (s : State) : Result :=
  if s.willAnswer es.length then k (s.emit es) else .next (s.block es)

/-- The byte count that the transport reports to a `BusRead`, a free value, and the state after its draw (R179). -/
def drawCount (s : State) : BitVec 32 × State := (Config.busReadCount s.draws, { s with draws := s.draws + 1 })

/-! ### Responses and faults (30_encoding.md R84, 60_exceptions.md) -/

/-- `ret v`: the operation ends with the response `Done(v)`. -/
def State.respond (v : BitVec 32) (s : State) : State := { s with responses := s.responses ++ [.done v] }

/-- `raise cause`: TAKING A FAULT. The response is `Fault(cause)`; "Nothing is saved anywhere, no mode changes, control goes
nowhere: FBSEQ is idle again and takes the next descriptor" (R194). There is no return from it (R196). -/
def State.raise (c : Cause) (s : State) : State := { s with responses := s.responses ++ [.fault c] }

/-- End with `Done(v)`. -/
def ret (v : BitVec 32) (s : State) : Result := .next (s.respond v)

/-- End with `Fault(c)`. -/
def fail (c : Cause) (s : State) : Result := .next (s.raise c)

/-- End with `Done(0)` after the accesses of an operation, or refuse it where one of them was past the space (U9). -/
def finish : Option State → Result
  | some s => ret 0#32 s
  | none => .refused .addressPastSpace

/-- Send frames in order, and end with `Done(0)`. -/
def sendFrames (es : List BusEvent) (s : State) : Result := busCalls es (ret 0#32) s

/-- `SendCmd` for each byte in order, and end with `Done(0)`. -/
def sendCmds (bs : List Byte) (s : State) : Result := sendFrames (bs.map (cmdFrame s.cfg)) s

/-- The test for a buffer handle, "before anything else the operation does, after decoding" (R192). -/
def withBuffer (s : State) (k : Result) : Result := if s.bufValid then k else fail .noBuffer s

/-! ### Registers (10_state.md R25, R26) -/

/-- Write `ROT`. -/
def State.setRot (r : BitVec 2) (s : State) : State := { s with rot := r }

/-- Write the four registers of the buffer handle together. -/
def State.storeHandle (base : Addr) (w h : Half) (s : State) : State :=
  { s with bufValid := true, bufBase := base, bufW := w, bufH := h }

/-! ### The request port (00_scope.md R12, 30_encoding.md R70) -/

/-- What is next at the request port. -/
inductive Request where
  /-- FBSEQ waits for the transport and takes nothing (R12, 60_exceptions.md R197). -/
  | waiting
  /-- Nothing: the host has no further move. -/
  | idle
  /-- The host has written a byte of its memory. -/
  | stored (s : State)
  /-- A descriptor, and the state that has taken it. -/
  | operation (d : Descriptor) (s : State)

/-- Take the host's next move (R12, R57); none while an operation is executing. -/
def takeRequest (s : State) : Request :=
  if s.blocked then .waiting
  else
    match s.host with
    | [] => .idle
    | .store a v :: rest => .stored { s with mem := s.mem.write a.toNat v, host := rest }
    | .issue d :: rest => .operation d { s with host := rest }

end Sys2Proof.Machine
end

