-- ==== Sys2Proof/Machine/Operands.lean ====
section
/-! DEFINITION. The readings of operands: coordinates and sizes (30_encoding.md R73), colours (R80), the logical dimensions
(10_state.md R27), and ROTCALC, the map from logical coordinates to a byte and a bit (41_pixel.md R130 to R132, R137). -/

namespace Sys2Proof.Machine

/-- A coordinate: `sext_16` of its field (R73). -/
def coord (v : Half) : Int := v.toInt

/-- The colours (R80); the source's WHITE is SET, its BLACK CLEAR (C3). -/
inductive Colour where
  | clear
  | set
  | invert
  deriving DecidableEq, Repr

/-- The colour of a code; 3 is none (R80). -/
def Colour.ofCode (c : BitVec 2) : Option Colour :=
  if c = 0#2 then some .clear else if c = 1#2 then some .set else if c = 2#2 then some .invert else none

/-- The rotation swaps the effective width and height (R27). -/
def swapped (rot : BitVec 2) : Bool := rot == 1#2 || rot == 3#2

/-- `(LW, LH)`, the logical dimensions of a buffer of width `W` and height `H` (R27). -/
def logicalDims (rot : BitVec 2) (W H : Nat) : Nat × Nat := if swapped rot then (H, W) else (W, H)

/-- A pixel is in range of the dimensions `(LW, LH)` (R130). -/
def inRange (dims : Nat × Nat) (x y : Int) : Bool :=
  decide (0 ≤ x) && decide (x < dims.1) && decide (0 ≤ y) && decide (y < dims.2)

/-- The rotation transform, on integers (R131). -/
def rotate (rot : BitVec 2) (W H : Nat) (x y : Int) : Int × Int :=
  if rot = 0#2 then (x, y)
  else if rot = 1#2 then (W - 1 - y, x)
  else if rot = 2#2 then (W - 1 - x, H - 1 - y)
  else (y, H - 1 - x)

/-- `index`, from buffer coordinates (R41, R132). -/
def byteIndex (W : Nat) (p : Int × Int) : Nat := W * (p.2.toNat / 8) + p.1.toNat

/-- `bit`, from buffer coordinates (R41, R132). -/
def bitIndex (p : Int × Int) : Nat := p.2.toNat % 8

/-- ROTCALC as a pure function (R137): none where the pixel is out of range, else its byte index and bit number. -/
def rotcalc (rot : BitVec 2) (W H : Nat) (x y : Int) : Option (Nat × Nat) :=
  if inRange (logicalDims rot W H) x y then
    some (byteIndex W (rotate rot W H x y), bitIndex (rotate rot W H x y))
  else none

/-- `mask = 1 << bit`, an 8-bit value (R132); bit `k` has weight `2^k` (R42). -/
def bitMask (bit : Nat) : Byte := 1#8 <<< bit

/-- A colour applied to the masked bit of a byte (R133). -/
def applyColour (c : Colour) (mask old : Byte) : Byte :=
  match c with
  | .set => old ||| mask
  | .clear => old &&& (0xFF#8 ^^^ mask)
  | .invert => old ^^^ mask

/-- Where ROTCALC sends a logical pixel under the current registers (R27, R137). -/
def pixelPlace (s : State) (x y : Int) : Option (Nat × Nat) := rotcalc s.rot s.bufW.toNat s.bufH.toNat x y

/-- SETPIXEL's steps after the NoBuffer test (R134): dropped out of range, else a read-modify-write of one byte (R50). -/
def drawPixel (x y : Int) (c : Colour) (s : State) : Option State :=
  match pixelPlace s x y with
  | none => some s
  | some (index, bit) =>
    match memRead (s.bufBase.toNat + index) s with
    | none => none
    | some old => memWrite (s.bufBase.toNat + index) (applyColour c (bitMask bit) old) s

end Sys2Proof.Machine
end

