-- ==== Sys2Proof/Machine/Flags.lean ====
section
/-! DEFINITION. FBSEQ has no status flags (10_state.md R23): the outcome of an operation is carried only by its response. So
this file holds what computes a response: the result codes of SETBUF (30_encoding.md R82) and DRAWBITMAP (R83) with the
checks that choose them, and the response as a word (R84). -/

namespace Sys2Proof.Machine

/-- The result codes of SETBUF (R82). -/
inductive SetBufCode where
  | ok
  | errSize
  | errNull
  deriving DecidableEq, Repr

/-- Their values (R82). -/
def SetBufCode.value : SetBufCode → BitVec 32
  | .ok => 0#32
  | .errSize => 1#32
  | .errNull => 2#32

/-- The checks of SETBUF, size before null; the product is exact (40_init_config.md R114). -/
def checkSetBuf (w h : Half) (buffer size : Addr) : SetBufCode :=
  if h.toNat % 8 ≠ 0 ∨ size.toNat ≠ w.toNat * (h.toNat / 8) then .errSize
  else if buffer = 0#32 then .errNull
  else .ok

/-- The result codes of DRAWBITMAP (R83). -/
inductive BlitCode where
  | success
  | outOfScreenBounds
  | largerThanScreen
  | nullBitmapPointer
  | invalidWidthAlignment
  deriving DecidableEq, Repr

/-- Their values (R83). -/
def BlitCode.value : BlitCode → BitVec 32
  | .success => 0#32
  | .outOfScreenBounds => 1#32
  | .largerThanScreen => 2#32
  | .nullBitmapPointer => 3#32
  | .invalidWidthAlignment => 4#32

/-- The checks (a) to (d) of DRAWBITMAP in their order, against the logical dimensions (43_blit.md R160). -/
def checkBlit (dims : Nat × Nat) (x y : Int) (w h : Half) (data : Addr) : BlitCode :=
  if inRange dims x y = false then .outOfScreenBounds
  else if w.toNat > dims.1 ∨ h.toNat > dims.2 then .largerThanScreen
  else if data = 0#32 then .nullBitmapPointer
  else if w.toNat % 8 ≠ 0 then .invalidWidthAlignment
  else .success

/-- The cause codes (R84, 60_exceptions.md R191, R192). -/
def Cause.code : Cause → BitVec 32
  | .illegalOperation => 1#32
  | .noBuffer => 2#32

/-- The response as a 64-bit word: bit 63 for a fault, bits 31:0 the value or the cause, the rest 0 (R84). -/
def Response.word : Response → BitVec 64
  | .done v => 0#32 ++ v
  | .fault c => 0x80000000#32 ++ c.code

end Sys2Proof.Machine
end

