-- ==== Sys2Proof/Machine/Blit.lean ====
section
/-! DEFINITION. DRAWBITMAP (43_blit.md). -/

namespace Sys2Proof.Machine

/-- What the pixel loop does not change: the bitmap's origin, its row stride in bytes `w / 8`, its address, and the two
colours (R161). -/
structure Blit where
  x : Int
  y : Int
  w : Nat
  data : Nat
  fg : Colour
  bg : Colour
  deriving DecidableEq, Repr

/-- The address of the bitmap byte of row `j`, column `i` (R45, R161). -/
def bitmapAddr (b : Blit) (j i : Nat) : Nat := b.data + j * (b.w / 8) + i / 8

/-- The cached bitmap byte at column `i`: loaded where `i & 7 = 0`, else shifted left (R161). -/
def nextCache (b : Blit) (j i : Nat) (cache : Byte) (s : State) : Option Byte :=
  if i % 8 = 0 then memRead (bitmapAddr b j i) s else some (cache <<< 1)

/-- The colour that the cached byte selects: the foreground where its bit 7 is 1 (R161). -/
def blitColour (b : Blit) (cache : Byte) : Colour := if cache &&& 0x80#8 ≠ 0#8 then b.fg else b.bg

/-- The inner loop over `n` columns from `i` on (R161). -/
def blitColumns (b : Blit) (j : Nat) : Nat → Nat → Byte → State → Option State
  | 0, _, _, s => some s
  | n + 1, i, cache, s =>
    match nextCache b j i cache s with
    | none => none
    | some cache' =>
      match drawPixel (b.x + i) (b.y + j) (blitColour b cache') s with
      | none => none
      | some t => blitColumns b j n (i + 1) cache' t

/-- The outer loop over `n` rows from `j` on (R161). -/
def blitRows (b : Blit) : Nat → Nat → State → Option State
  | 0, _, s => some s
  | n + 1, j, s =>
    match blitColumns b j b.w 0 0x00#8 s with
    | none => none
    | some t => blitRows b n (j + 1) t

/-- DRAWBITMAP (R162): the buffer test, the checks of R160, the pixel loop of R161. `invert` swaps the colours. -/
def execDrawbitmap (x y w h : Half) (data : Addr) (invert : Bool) (s : State) : Result :=
  withBuffer s
    (match checkBlit (logicalDims s.rot s.bufW.toNat s.bufH.toNat) (coord x) (coord y) w h data with
    | .success =>
      finish (blitRows
        { x := coord x, y := coord y, w := w.toNat, data := data.toNat,
          fg := if invert then .clear else .set, bg := if invert then .set else .clear }
        h.toNat 0 s)
    | code => ret code.value s)

end Sys2Proof.Machine
end

