-- ==== Sys2Proof/Machine/Control.lean ====
section
/-! DEFINITION. Power, display and scroll controls, and the connection probe (44_control.md). -/

namespace Sys2Proof.Machine

/-- Send display-on or display-off (R171). -/
def sendEnabled (on : Bool) (s : State) : Result :=
  sendCmds [if on then s.cfg.cmd.displayOn else s.cfg.cmd.displayOff] s

/-- POWERDOWN (R170): behaves exactly as SETENABLED OFF (R79). -/
def execPowerdown (s : State) : Result := sendEnabled false s

/-- SETENABLED (R171). -/
def execSetenabled (on : Bool) (s : State) : Result := sendEnabled on s

/-- SETCONTRAST (R172). -/
def execSetcontrast (c : Byte) (s : State) : Result := sendCmds [s.cfg.cmd.setContrast, c] s

/-- SETINVERT (R173). -/
def execSetinvert (inv : Bool) (s : State) : Result :=
  sendCmds [if inv then s.cfg.cmd.invertDisplay else s.cfg.cmd.normalDisplay] s

/-- The byte of one item of a scroll template (R91). -/
def scrollByte (c : Config) (start stop : Byte) : ScrollItem → Byte
  | .byte b => b
  | .start => start
  | .stop => stop
  | .height => BitVec.ofNat 8 c.height.pixels

/-- `SCROLL_SEQ.XX(start, stop)`: the bytes of one entry for these pages (R91, R174). -/
def scrollBytes (c : Config) (q : ScrollSequence) (start stop : Byte) : List Byte :=
  match q.special.find? fun e => e.1 == (start, stop) with
  | some e => e.2
  | none => q.template.map (scrollByte c start stop)

/-- Send a scroll sequence, every byte in a command frame of its own (R91, R174). -/
def sendScroll (q : ScrollSequence) (start stop : Byte) (s : State) : Result := sendCmds (scrollBytes s.cfg q start stop) s

/-- SCROLL_HR (R174). -/
def execScrollHr (start stop : Byte) (s : State) : Result := sendScroll s.cfg.scroll.hr start stop s

/-- SCROLL_HL (R175). -/
def execScrollHl (start stop : Byte) (s : State) : Result := sendScroll s.cfg.scroll.hl start stop s

/-- SCROLL_DR (R176). -/
def execScrollDr (start stop : Byte) (s : State) : Result := sendScroll s.cfg.scroll.dr start stop s

/-- SCROLL_DL (R177). -/
def execScrollDl (start stop : Byte) (s : State) : Result := sendScroll s.cfg.scroll.dl start stop s

/-- STOPSCROLL (R178). -/
def execStopscroll (s : State) : Result := sendCmds [s.cfg.cmd.deactivateScroll] s

/-- CHECKCONN (R179): the transport's count is passed to the host unchanged; it is a free value. -/
def execCheckconn (s : State) : Result :=
  busCalls [.read s.cfg.busAddr 1] (fun t => ret (drawCount t).1 (drawCount t).2) s

end Sys2Proof.Machine
end

