-- ==== Sys2Proof/Machine/InitConfig.lean ====
section
/-! DEFINITION. Initialisation and configuration: INIT, SETBUF, SETROT (40_init_config.md). -/

namespace Sys2Proof.Machine

/-- `COMPINS(HEIGHT)` (R111). -/
def comPins : PanelHeight → Byte
  | .h64 => 0x12#8
  | .h32 => 0x02#8
  | .h16 => 0x02#8

/-- `CONTRAST(HEIGHT)` (R111). -/
def initContrast : PanelHeight → Byte
  | .h64 => 0xCF#8
  | .h32 => 0x8F#8
  | .h16 => 0xAF#8

/-- The bytes that INIT sends, in strict order, each in a command frame of its own (R110, R111). -/
def initBytes (c : Config) : List Byte :=
  [c.cmd.displayOff,
   c.cmd.setDisplayClockDiv, 0x80#8,
   c.cmd.setMultiplex, BitVec.ofNat 8 (c.height.pixels - 1),
   c.cmd.setDisplayOffset, 0x00#8,
   c.cmd.setStartLine ||| 0x00#8,
   c.cmd.chargePump, 0x14#8,
   c.cmd.memoryMode, 0x00#8,
   c.cmd.segRemap ||| 0x01#8,
   c.cmd.comScanDec,
   c.cmd.setComPins, comPins c.height,
   c.cmd.setContrast, initContrast c.height,
   c.cmd.setPrecharge, 0xF1#8,
   c.cmd.setVcomDetect, 0x40#8,
   c.cmd.displayAllOnResume,
   c.cmd.normalDisplay,
   c.cmd.deactivateScroll,
   c.cmd.displayOn]

/-- INIT (R110). -/
def execInit (s : State) : Result := sendCmds (initBytes s.cfg) s

/-- SETBUF (R114, R115): the handle is stored only on success. -/
def execSetbuf (w h : Half) (buffer size : Addr) (s : State) : Result :=
  match checkSetBuf w h buffer size with
  | .ok => ret SetBufCode.ok.value (s.storeHandle buffer w h)
  | code => ret code.value s

/-- SETROT (R116). -/
def execSetrot (r : BitVec 2) (s : State) : Result := ret 0#32 (s.setRot r)

end Sys2Proof.Machine
end

