-- ==== Sys2Proof/Machine/Pixel.lean ====
section
/-! DEFINITION. SETPIXEL (41_pixel.md). -/

namespace Sys2Proof.Machine

/-- SETPIXEL (R134). Colour code 3 is an illegal descriptor and never reaches this meaning from the decoder; it takes the
same fault here (R75 (c), R191; log entry 14). -/
def execSetpixel (x y : Half) (colour : BitVec 2) (s : State) : Result :=
  match Colour.ofCode colour with
  | none => fail .illegalOperation s
  | some c => withBuffer s (finish (drawPixel (coord x) (coord y) c s))

end Sys2Proof.Machine
end

