-- ==== Sys2Proof/Machine/Transfer.lean ====
section
/-! DEFINITION. PAGESEQ: XFER, UPDATE, CLEARBUF, FILLSCREEN, FILLPAGE (42_transfer.md). -/

namespace Sys2Proof.Machine

/-- `ProgramWindow()`: always the full panel (R140). -/
def windowFrames (c : Config) : List BusEvent :=
  [c.cmd.columnAddr, 0x00#8, BitVec.ofNat 8 (c.width - 1),
   c.cmd.pageAddr, 0x00#8, BitVec.ofNat 8 (c.pages - 1)].map (cmdFrame c)

/-- The row test of XFER, on the top pixel row of the page row (R141). -/
def rowOnPanel (c : Config) (y : Int) (page : Nat) : Bool :=
  decide (0 ≤ y + page) && decide (y + page < c.height.pixels)

/-- The column test of XFER (R141). -/
def columnOnPanel (c : Config) (x : Int) (col : Nat) : Bool :=
  decide (0 ≤ x + col) && decide (x + col < c.width)

/-- The offset of a byte that is sent: the formula of R141, or the shared counter of R143 under the other settings of the
switch (U1, log entry 10). -/
def sentOffset (mode : XferOffset) (w page col counter : Nat) : Nat :=
  match mode with
  | .formula => w * (page / 8) + col
  | .perColumn => counter
  | .perByteSent => counter

/-- The shared counter after a column that is skipped (R143): one counter advances "once per column visited, skipped or
not", the other "only per byte sent". -/
def counterAfterSkip (mode : XferOffset) (counter : Nat) : Nat :=
  match mode with
  | .perColumn => counter + 1
  | .formula => counter
  | .perByteSent => counter

/-- XFER's inner loop over `n` columns from `col` on: the offsets of the bytes sent, in order, and the shared counter after
it (R141, R143). -/
def xferColumns (c : Config) (x : Int) (w page : Nat) : Nat → Nat → Nat → List Nat × Nat
  | 0, _, counter => ([], counter)
  | n + 1, col, counter =>
    if columnOnPanel c x col then
      let rest := xferColumns c x w page n (col + 1) (counter + 1)
      (sentOffset c.xferOffset w page col counter :: rest.1, rest.2)
    else xferColumns c x w page n (col + 1) (counterAfterSkip c.xferOffset counter)

/-- XFER's outer loop over `n` page rows from pixel row `page` on, stepping by 8; a row that fails its test is skipped whole
(R141). -/
def xferRows (c : Config) (x y : Int) (w : Nat) : Nat → Nat → Nat → List Nat
  | 0, _, _ => []
  | n + 1, page, counter =>
    if rowOnPanel c y page then
      let row := xferColumns c x w page w 0 counter
      row.1 ++ xferRows c x y w n (page + 8) row.2
    else xferRows c x y w n (page + 8) counter

/-- The offsets into the source buffer of the bytes that XFER sends, in order: `ceil(h / 8)` page rows are visited (R141). -/
def xferOffsets (c : Config) (x y : Int) (w h : Nat) : List Nat := xferRows c x y w ((h + 7) / 8) 0 0

/-- The frames of XFER's steps: the window, then each byte read as a data frame (R141, R44, R55); none where a byte is past the
space. The reads change nothing (20_memory.md R51), so they may all stand before the frames. -/
def transferFrames (x y : Int) (w h src : Nat) (s : State) : Option (List BusEvent) :=
  (memReads ((xferOffsets s.cfg x y w h).map (src + ·)) s).map fun bytes => windowFrames s.cfg ++ bytes.map (dataFrame s.cfg)

/-- XFER's steps (R141): a request whose bytes pass the end of the space is refused whole (U9, log entry 7). -/
def transferRegion (x y : Int) (w h src : Nat) (s : State) : Result :=
  match transferFrames x y w h src s with
  | none => .refused .addressPastSpace
  | some es => sendFrames es s

/-- XFER (R141): it looks neither at `BUF_VALID` nor at a null `src`. -/
def execXfer (x y w h : Half) (src : Addr) (s : State) : Result :=
  transferRegion (coord x) (coord y) w.toNat h.toNat src.toNat s

/-- UPDATE (R144): XFER of the whole buffer, after the buffer test. -/
def execUpdate (s : State) : Result :=
  withBuffer s (transferRegion 0 0 s.bufW.toNat s.bufH.toNat s.bufBase.toNat s)

/-- The number of bytes of the framebuffer (R41). -/
def bufferBytes (s : State) : Nat := s.bufW.toNat * (s.bufH.toNat / 8)

/-- CLEARBUF (R145). -/
def execClearbuf (s : State) : Result :=
  withBuffer s (finish (memFill 0x00#8 (bufferBytes s) s.bufBase.toNat s))

/-- `FillOnePage(p, pattern)` (R149): page-select, high and low column start, then the pattern once per column. -/
def fillOnePage (c : Config) (p pattern : Byte) : List BusEvent :=
  [c.cmd.pageSelect ||| p, c.cmd.setHighColumn ||| 0x00#8, c.cmd.setLowColumn ||| 0x00#8].map (cmdFrame c) ++
    List.replicate c.width (dataFrame c pattern)

/-- FILLSCREEN (R146); the delay is ignored (R148). -/
def execFillscreen (pattern : Byte) (_delay : Half) (s : State) : Result :=
  sendFrames ((List.range s.cfg.pages).flatMap fun p => fillOnePage s.cfg (BitVec.ofNat 8 p) pattern) s

/-- FILLPAGE (R147), the page not checked; the delay is ignored (R148). -/
def execFillpage (page pattern : Byte) (_delay : Half) (s : State) : Result :=
  sendFrames (fillOnePage s.cfg page pattern) s

end Sys2Proof.Machine
end

