-- ==== Sys2Proof/Machine/Dispatch.lean ====
section
/-! DEFINITION. One arm per operation, in the order of the opcode map (30_encoding.md R74). -/

namespace Sys2Proof.Machine

/-- The meaning of one operation, executed to its end (00_scope.md R12). -/
def exec (i : Instr) (s : State) : Host.Outcome State Fault Refusal :=
  match i with
  | .init => Sys2Proof.Machine.execInit s
  | .setbuf w h buffer size => Sys2Proof.Machine.execSetbuf w h buffer size s
  | .setrot r => Sys2Proof.Machine.execSetrot r s
  | .setpixel x y colour => Sys2Proof.Machine.execSetpixel x y colour s
  | .drawbitmap x y w h data invert => Sys2Proof.Machine.execDrawbitmap x y w h data invert s
  | .clearbuf => Sys2Proof.Machine.execClearbuf s
  | .xfer x y w h src => Sys2Proof.Machine.execXfer x y w h src s
  | .update => Sys2Proof.Machine.execUpdate s
  | .fillscreen pattern delay => Sys2Proof.Machine.execFillscreen pattern delay s
  | .fillpage page pattern delay => Sys2Proof.Machine.execFillpage page pattern delay s
  | .powerdown => Sys2Proof.Machine.execPowerdown s
  | .setenabled on => Sys2Proof.Machine.execSetenabled on s
  | .setcontrast c => Sys2Proof.Machine.execSetcontrast c s
  | .setinvert inv => Sys2Proof.Machine.execSetinvert inv s
  | .scrollHr start stop => Sys2Proof.Machine.execScrollHr start stop s
  | .scrollHl start stop => Sys2Proof.Machine.execScrollHl start stop s
  | .scrollDr start stop => Sys2Proof.Machine.execScrollDr start stop s
  | .scrollDl start stop => Sys2Proof.Machine.execScrollDl start stop s
  | .stopscroll => Sys2Proof.Machine.execStopscroll s
  | .checkconn => Sys2Proof.Machine.execCheckconn s

end Sys2Proof.Machine
end

