-- ==== Sys2Proof/Machine/Step.lean ====
section
/-! DEFINITION. One step: the host's next move, which is one whole operation or one byte stored between operations
(00_scope.md R12, 20_memory.md R57), or nothing; nothing for ever while the transport does not answer (60_exceptions.md R197).
Log entry 1 says how a program comes to run. -/

namespace Sys2Proof.Machine

/-- One step. FBSEQ "takes one operation descriptor from the host, executes it to its end, returns one response, and only then
takes the next descriptor" (R12); an illegal descriptor takes the fault IllegalOperation (30_encoding.md R75). -/
def step (s : State) : Host.Outcome State Fault Refusal :=
  match takeRequest s with
  | .waiting => .next s
  | .idle => .next s
  | .stored t => .next t
  | .operation d t =>
    match decode d with
    | .ok i => exec i t
    | .error _ => fail .illegalOperation t

/-- The same state, ready for an operation, with the descriptor of these bits at the request port, ahead of the host's other moves. -/
def State.withFetchWord (s : State) (nbits w : Nat) : State :=
  { s with host := .issue (tableWord nbits w) :: s.host, blocked := false }

end Sys2Proof.Machine
end

