-- ==== Sys2Proof/Machine/Assembler.lean ====
section
/-! DEFINITION. The assembler syntax of 30_encoding.md R78: one operation per line, the mnemonic in capitals, its operands
separated by commas in the order of the source's function signature; integers decimal or hexadecimal with `0x`, a leading
`-` for `x` and `y` only; `CLEAR`, `SET`, `INVERT` for a colour; `ON`/`OFF` or `1`/`0` for a flag; `;` starts a comment.
DESIGN CHOICE, log entry 17: blanks and tabs around a word are ignored, a number too large for its field is an error. -/

namespace Sys2Proof.Machine

/-- A blank. -/
def isBlank (c : Char) : Bool := c == ' ' || c == '\t'

/-- A word without the blanks at its ends. -/
def trimBlanks (cs : List Char) : List Char := ((cs.dropWhile isBlank).reverse.dropWhile isBlank).reverse

/-- The parts of a text between commas. -/
def splitCommas : List Char → List (List Char)
  | [] => [[]]
  | c :: cs =>
    match splitCommas cs with
    | [] => [[]]
    | w :: ws => if c == ',' then [] :: w :: ws else (c :: w) :: ws

/-- A digit of a number in base 10 or 16. -/
def digit (base : Nat) (c : Char) : Option Nat :=
  let n := c.toNat
  let v := if 48 ≤ n ∧ n ≤ 57 then n - 48 else if 65 ≤ n ∧ n ≤ 70 then n - 55 else if 97 ≤ n ∧ n ≤ 102 then n - 87 else base
  if v < base then some v else none

/-- The digits of a number, first one first, on top of what was read before. -/
def digits (base : Nat) : Nat → List Char → Option Nat
  | acc, [] => some acc
  | acc, c :: cs =>
    match digit base c with
    | none => none
    | some v => digits base (base * acc + v) cs

/-- A natural number, decimal or hexadecimal with `0x`. -/
def readNat : List Char → Option Nat
  | [] => none
  | ['0', 'x'] => none
  | '0' :: 'x' :: cs => digits 16 0 cs
  | cs => digits 10 0 cs

/-- An unsigned field of `n` bits. -/
def readField (n : Nat) (w : List Char) : Option (BitVec n) :=
  match readNat w with
  | some v => if v < 2 ^ n then some (BitVec.ofNat n v) else none
  | none => none

/-- A coordinate, an `s16` (R73). -/
def readCoord : List Char → Option Half
  | '-' :: cs =>
    match readNat cs with
    | some v => if v ≤ 32768 then some (BitVec.ofInt 16 (-(v : Int))) else none
    | none => none
  | cs =>
    match readNat cs with
    | some v => if v < 32768 then some (BitVec.ofNat 16 v) else none
    | none => none

/-- A colour (R80): its name, or its code. -/
def readColour (w : List Char) : Option (BitVec 2) :=
  if w = "CLEAR".toList then some 0#2
  else if w = "SET".toList then some 1#2
  else if w = "INVERT".toList then some 2#2
  else match readNat w with
    | some v => if v < 3 then some (BitVec.ofNat 2 v) else none
    | none => none

/-- A flag. -/
def readFlag (w : List Char) : Option Bool :=
  if w = "ON".toList ∨ w = "1".toList then some true else if w = "OFF".toList ∨ w = "0".toList then some false else none

/-- The mnemonics of the opcode map (R74). -/
def mnemonicOf : Op → String
  | .init => "INIT"
  | .setbuf => "SETBUF"
  | .setrot => "SETROT"
  | .setpixel => "SETPIXEL"
  | .drawbitmap => "DRAWBITMAP"
  | .clearbuf => "CLEARBUF"
  | .xfer => "XFER"
  | .update => "UPDATE"
  | .fillscreen => "FILLSCREEN"
  | .fillpage => "FILLPAGE"
  | .powerdown => "POWERDOWN"
  | .setenabled => "SETENABLED"
  | .setcontrast => "SETCONTRAST"
  | .setinvert => "SETINVERT"
  | .scrollHr => "SCROLL_HR"
  | .scrollHl => "SCROLL_HL"
  | .scrollDr => "SCROLL_DR"
  | .scrollDl => "SCROLL_DL"
  | .stopscroll => "STOPSCROLL"
  | .checkconn => "CHECKCONN"

/-- Two page operands of a scroll start. -/
def readPages (k : Byte → Byte → Instr) (ws : List (List Char)) : Option Instr :=
  match ws with
  | [s, e] => (readField 8 s).bind fun s => (readField 8 e).bind fun e => some (k s e)
  | _ => none

/-- No operand. -/
def readNone (i : Instr) (ws : List (List Char)) : Option Instr :=
  match ws with
  | [] => some i
  | _ :: _ => none

/-- One flag operand. -/
def readOneFlag (k : Bool → Instr) (ws : List (List Char)) : Option Instr :=
  match ws with
  | [f] => (readFlag f).map k
  | _ => none

/-- The operands of an operation, in the order of R78's table. -/
def readOperands (op : Op) (ws : List (List Char)) : Option Instr :=
  match op with
  | .init => readNone .init ws
  | .clearbuf => readNone .clearbuf ws
  | .update => readNone .update ws
  | .powerdown => readNone .powerdown ws
  | .stopscroll => readNone .stopscroll ws
  | .checkconn => readNone .checkconn ws
  | .setenabled => readOneFlag .setenabled ws
  | .setinvert => readOneFlag .setinvert ws
  | .scrollHr => readPages .scrollHr ws
  | .scrollHl => readPages .scrollHl ws
  | .scrollDr => readPages .scrollDr ws
  | .scrollDl => readPages .scrollDl ws
  | .setrot =>
    match ws with
    | [r] => (readField 2 r).map .setrot
    | _ => none
  | .setcontrast =>
    match ws with
    | [c] => (readField 8 c).map .setcontrast
    | _ => none
  | .setbuf =>
    match ws with
    | [w, h, b, z] =>
      (readField 16 w).bind fun w => (readField 16 h).bind fun h => (readField 32 b).bind fun b =>
        (readField 32 z).bind fun z => some (.setbuf w h b z)
    | _ => none
  | .setpixel =>
    match ws with
    | [x, y, c] =>
      (readCoord x).bind fun x => (readCoord y).bind fun y => (readColour c).bind fun c => some (.setpixel x y c)
    | _ => none
  | .drawbitmap =>
    match ws with
    | [x, y, w, h, d, f] =>
      (readCoord x).bind fun x => (readCoord y).bind fun y => (readField 16 w).bind fun w => (readField 16 h).bind fun h =>
        (readField 32 d).bind fun d => (readFlag f).bind fun f => some (.drawbitmap x y w h d f)
    | _ => none
  | .xfer =>
    match ws with
    | [x, y, w, h, d] =>
      (readCoord x).bind fun x => (readCoord y).bind fun y => (readField 16 w).bind fun w => (readField 16 h).bind fun h =>
        (readField 32 d).bind fun d => some (.xfer x y w h d)
    | _ => none
  | .fillscreen =>
    match ws with
    | [p, d] => (readField 8 p).bind fun p => (readField 16 d).bind fun d => some (.fillscreen p d)
    | _ => none
  | .fillpage =>
    match ws with
    | [g, p, d] =>
      (readField 8 g).bind fun g => (readField 8 p).bind fun p => (readField 16 d).bind fun d => some (.fillpage g p d)
    | _ => none

/-- The operands of a line, after its mnemonic. -/
def operandWords (cs : List Char) : List (List Char) :=
  if trimBlanks cs = [] then [] else (splitCommas cs).map trimBlanks

/-- Assemble one line (R78). -/
def assemble (line : List Char) : Option Instr :=
  let text := trimBlanks (line.takeWhile fun c => c != ';')
  let name := text.takeWhile fun c => !isBlank c
  (Op.all.find? fun o => (mnemonicOf o).toList == name).bind fun o => readOperands o (operandWords (text.drop name.length))

end Sys2Proof.Machine
end

