-- ==== Sys2Proof/Machine/Sink.lean ====
section
/-! DEFINITION. The far side: the informative sink model of 20_memory.md R63, a function of the bus trace and no part of the
state ("no rule of FBSEQ depends on it"). PRESUMED, log entry 15: the reset of the position by the window commands, the wrap
at the window's end, the panel of 8 pages by 128 columns and the bit-to-row mapping are general knowledge in the spec's own
marking. The display RAM before the first event is an argument: "controller RAM content undefined" (40_init_config.md R112, U7).
Where the spec leaves the far side open the sink takes one behaviour, marked where it stands and in log entry 15: the controller
before INIT (93_implementation_defined.md U13), a page-select of an absent page (U4), a transfer while scrolling (U6), what
survives display-off (U16). -/

namespace Sys2Proof.Machine

/-- A command that still waits for argument bytes, each in a command frame of its own (30_encoding.md R87). -/
structure PendingCommand where
  op : Byte
  need : Nat
  args : List Byte
  deriving DecidableEq, Repr

/-- The controller as far as R63 gives it. `GDDRAM[p][c]` is the byte of `ram` at `128 * p + c`. -/
structure Sink where
  ram : Memory
  c0 : Nat
  c1 : Nat
  p0 : Nat
  p1 : Nat
  cc : Nat
  pc : Nat
  pending : Option PendingCommand
  deriving DecidableEq, Repr

/-- `GDDRAM[p][c]` (R63). -/
def Sink.cell (k : Sink) (p c : Nat) : Byte := k.ram.read (128 * p + c)

/-- Whether the panel pixel at column `c`, row `r` is lit, before the controller's segment remap and COM scan direction: "bit `k` of
`GDDRAM[p][c]` drives the pixel at column `c`, row `8p + k`" (R63). -/
def Sink.pixel (k : Sink) (c r : Nat) : Bool := (k.cell (r / 8) c).getLsbD (r % 8)

/-- The number of argument bytes of a command: the fourth column of the catalogue (R88), and for the scroll commands the
sequences of R91 (six, five and two). -/
def argCount (t : CommandTable) (b : Byte) : Nat :=
  if b = t.columnAddr ∨ b = t.pageAddr ∨ b = t.setVerticalScrollArea then 2
  else if b = t.rightHorizontalScroll ∨ b = t.leftHorizontalScroll then 6
  else if b = t.verticalAndRightHorizontalScroll ∨ b = t.verticalAndLeftHorizontalScroll then 5
  else if b = t.setDisplayClockDiv ∨ b = t.setMultiplex ∨ b = t.setDisplayOffset ∨ b = t.chargePump ∨ b = t.memoryMode
    ∨ b = t.setComPins ∨ b = t.setContrast ∨ b = t.setPrecharge ∨ b = t.setVcomDetect then 1
  else 0

/-- The operand or-ed into a command byte, where the byte is that command with an operand below `n` (R90). -/
def orOperand (base b : Byte) (n : Nat) : Option Nat := if (b ^^^ base).toNat < n then some (b ^^^ base).toNat else none

/-- A command without argument bytes. Page-select and the column starts (R90) are honoured in the addressing mode that INIT
selects only if `honoured`, "a parameter of the sink model (honoured or ignored)" (R229, 93_implementation_defined.md U17).
DESIGN CHOICES, log entry 15, unsafe: a page-select of a page that the panel does not have is "any value" on the far side (U4,
42_transfer.md R147); here, when honoured, the pages from `PAGES` to 7 move the position as any page does, and a byte that
selects no page below 8 changes nothing. Display-off changes nothing: RAM, window and position survive it, the general-knowledge
statement of 44_control.md R171 that U16 lets a sink adopt (60_exceptions.md R205). The scroll commands change nothing (U6). -/
def applySingle (t : CommandTable) (honoured : Bool) (b : Byte) (k : Sink) : Sink :=
  if honoured then
    match orOperand t.pageSelect b 8, orOperand t.setHighColumn b 16, orOperand t.setLowColumn b 16 with
    | some p, _, _ => { k with pc := p }
    | none, some hi, _ => { k with cc := 16 * hi + k.cc % 16 }
    | none, none, some lo => { k with cc := 16 * (k.cc / 16) + lo }
    | none, none, none => k
  else k

/-- A command whose argument bytes have all arrived (R63). -/
def applyCommand (t : CommandTable) (op : Byte) (args : List Byte) (k : Sink) : Sink :=
  match args with
  | [a, b] =>
    if op = t.columnAddr then { k with c0 := a.toNat, c1 := b.toNat, cc := a.toNat }
    else if op = t.pageAddr then { k with p0 := a.toNat, p1 := b.toNat, pc := a.toNat }
    else k
  | _ => k

/-- A command frame's payload arrives. -/
def sinkCommand (t : CommandTable) (honoured : Bool) (b : Byte) (k : Sink) : Sink :=
  match k.pending with
  | none =>
    if argCount t b = 0 then applySingle t honoured b k else { k with pending := some ⟨b, argCount t b, []⟩ }
  | some q =>
    if q.args.length + 1 < q.need then { k with pending := some { q with args := q.args ++ [b] } }
    else applyCommand t q.op (q.args ++ [b]) { k with pending := none }

/-- The position after a data byte: the next column, and past the window's end the next page (R63). DESIGN CHOICE, log entry 15,
unsafe: the sink holds no addressing mode and advances as in horizontal mode whether or not INIT has been sent, although the far
side before INIT is "any value" (93_implementation_defined.md U13; 40_init_config.md R113, 42_transfer.md R150,
70_reset_and_hazards.md R222). -/
def Sink.advance (k : Sink) : Sink :=
  if k.cc < k.c1 then { k with cc := k.cc + 1 }
  else { k with cc := k.c0, pc := if k.pc < k.p1 then k.pc + 1 else k.p0 }

/-- A data frame's payload arrives; there are 8 pages of 128 columns (R63). It lands and advances as in horizontal mode, INIT or
not: `Sink.advance` marks that choice (U13). -/
def sinkData (b : Byte) (k : Sink) : Sink :=
  (if k.pc < 8 ∧ k.cc < 128 then { k with ram := k.ram.write (128 * k.pc + k.cc) b } else k).advance

/-- One event of the bus trace, as the controller at `BUS_ADDR` takes it (30_encoding.md R86). -/
def sinkEvent (c : Config) (honoured : Bool) (k : Sink) : BusEvent → Sink
  | .write a [control, payload] =>
    if a = c.busAddr then
      if control = c.ctrlCmd then sinkCommand c.cmd honoured payload k
      else if control = c.ctrlData then sinkData payload k
      else k
    else k
  | .write _ _ => k
  | .read _ _ => k

/-- What a bus trace leaves in the controller. -/
def sinkRun (c : Config) (honoured : Bool) (k : Sink) (events : List BusEvent) : Sink :=
  events.foldl (sinkEvent c honoured) k

end Sys2Proof.Machine
end

