-- ==== Sys2Proof/Safety.lean ====
section
/-! DEFINITION. What counts as a good state, in the terms that claims use. -/

namespace Sys2Proof.Machine

/-- The invariants of the buffer handle while `BUF_VALID = 1` (10_state.md R26): `BUF_BASE ≠ 0` and `BUF_H mod 8 = 0`. -/
def State.handleOk (s : State) : Bool := !s.bufValid || (s.bufBase != 0#32 && decide (s.bufH.toNat % 8 = 0))

/-- FBSEQ waits only for a transport that answers nothing more (60_exceptions.md R197). -/
def State.waitOk (s : State) : Bool := !s.blocked || s.answersLeft == some 0

/-- The state is well-formed: its configuration (00_scope.md R9), the canonical form of memory, the handle (R26), the wait. -/
def State.wf (s : State) : Bool := s.cfg.wf && s.mem.wf && s.handleOk && s.waitOk

/-- An event that FBSEQ may put on the bus: a two-byte frame to `BUS_ADDR` whose first byte is one of the two control bytes
(30_encoding.md R85, R86, R92), or CHECKCONN's read of one byte (44_control.md R179). -/
def BusEvent.legal (c : Config) : BusEvent → Bool
  | .write a [control, _] => a == c.busAddr && (control == c.ctrlCmd || control == c.ctrlData)
  | .write _ _ => false
  | .read a n => a == c.busAddr && n == 1

/-- Every event of the trace is legal. -/
def State.traceLegal (s : State) : Bool := s.trace.all (BusEvent.legal s.cfg)

/-- The framebuffer lies inside the 32-bit space: a host duty (20_memory.md R53). -/
def State.bufferInSpace (s : State) : Prop := s.bufBase.toNat + bufferBytes s ≤ 2 ^ 32

/-- The address is a byte of the framebuffer (20_memory.md R41). -/
def State.inBuffer (s : State) (a : Nat) : Prop := s.bufBase.toNat ≤ a ∧ a < s.bufBase.toNat + bufferBytes s

/-- The access list (20_memory.md R49): the addresses of memory that an operation reads or writes. -/
def State.accesses (s : State) (a : Nat) : Instr → Prop
  | .setpixel x y colour =>
    colour ≠ 3#2 ∧ s.bufValid = true ∧
      ∃ k b, rotcalc s.rot s.bufW.toNat s.bufH.toNat x.toInt y.toInt = some (k, b) ∧ a = s.bufBase.toNat + k
  | .drawbitmap x y w h data _ =>
    s.bufValid = true ∧
      checkBlit (logicalDims s.rot s.bufW.toNat s.bufH.toNat) x.toInt y.toInt w h data = .success ∧
      ∃ j i, j < h.toNat ∧ i < w.toNat ∧
        (a = data.toNat + j * (w.toNat / 8) + i / 8 ∨
          ∃ k b, rotcalc s.rot s.bufW.toNat s.bufH.toNat (x.toInt + (i : Int)) (y.toInt + (j : Int)) = some (k, b) ∧
            a = s.bufBase.toNat + k)
  | .clearbuf => s.bufValid = true ∧ s.inBuffer a
  | .xfer x y w h src => ∃ o ∈ xferOffsets s.cfg x.toInt y.toInt w.toNat h.toNat, a = src.toNat + o
  | .update => s.bufValid = true ∧ ∃ o ∈ xferOffsets s.cfg 0 0 s.bufW.toNat s.bufH.toNat, a = s.bufBase.toNat + o
  | .init | .setbuf _ _ _ _ | .setrot _ | .fillscreen _ _ | .fillpage _ _ _
  | .powerdown | .setenabled _ | .setcontrast _ | .setinvert _
  | .scrollHr _ _ | .scrollHl _ _ | .scrollDr _ _ | .scrollDl _ _ | .stopscroll
  | .checkconn => False

/-- Two outcomes show the same to the outside, trace, memory and responses (00_scope.md R13), and leave the same `ROT`,
`BUF_VALID`, wait, and handle once it is valid. -/
def outcomesAgree : Result → Result → Prop
  | .next t, .next u =>
    t.trace = u.trace ∧ t.mem = u.mem ∧ t.responses = u.responses ∧ t.rot = u.rot ∧ t.bufValid = u.bufValid ∧
      t.blocked = u.blocked ∧ (t.bufValid = true → t.bufBase = u.bufBase ∧ t.bufW = u.bufW ∧ t.bufH = u.bufH)
  | .refused a, .refused b => a = b
  | .next _, .refused _ => False
  | .refused _, .next _ => False
  | .fault _, _ => False
  | _, .fault _ => False

/-! ### DRAWBITMAP by whole bitmap bytes (43_blit.md R161)

The pixel loop again without the cached byte: one bitmap byte is read, and then its eight pixels are drawn, bit 7 first. -/

/-- SETPIXEL of SET or CLEAR on memory, at logical coordinates. -/
def drawBit (s : State) (x y : Int) (on : Bool) (m : Memory) : Memory :=
  match rotcalc s.rot s.bufW.toNat s.bufH.toNat x y with
  | none => m
  | some (k, b) =>
    let a := s.bufBase.toNat + k
    m.write a (if on then m.read a ||| (1#8 <<< b) else m.read a &&& ~~~ (1#8 <<< b))

/-- The eight pixels of one bitmap byte, from column `x` on, the colours swapped by `invert`. -/
def drawByte (s : State) (x y : Int) (byte : Byte) (invert : Bool) (m : Memory) : Memory :=
  (List.range 8).foldl (fun m (b : Nat) => drawBit s (x + (b : Int)) y (byte.getLsbD (7 - b) ^^ invert) m) m

/-- The bitmap bytes in row-major order, each read from memory as the bytes before it have left it. -/
def drawBytes (s : State) (x y : Int) (w h data : Nat) (invert : Bool) : Memory :=
  (List.range h).foldl (fun m (j : Nat) =>
    (List.range (w / 8)).foldl (fun m (c : Nat) =>
      drawByte s (x + (8 * c : Nat)) (y + (j : Int)) (m.read (data + j * (w / 8) + c)) invert m) m) s.mem

end Sys2Proof.Machine
end

