-- ==== Sys2Proof/Certificates/Slice0/Obligations.lean ====
section
/-! DEFINITION. The statements about the model, each formalising rules of spec/. -/

open Sys2Proof Sys2Proof.Machine

/-! ## Encoding (30_encoding.md) -/

/-- Words written out from the encodings of 30_encoding.md and the descriptors of 95_test_vectors.md, one per operation. -/
def Obligations.SpecWordsDecode : Prop :=
  decode 0x00000000000000000000000000000001#128 = .ok .init ∧
  decode 0x20000000004000800000040000000002#128 = .ok (.setbuf 128 64 0x20000000 1024) ∧
  decode 0x00000000000000000000000000000203#128 = .ok (.setrot 2) ∧
  decode 0x0000000000000000000A000500000210#128 = .ok (.setpixel 5 10 2) ∧
  decode 0x00000300000200080000000000000111#128 = .ok (.drawbitmap 0 0 8 2 0x300 true) ∧
  decode 0x00000000000000000000000000000012#128 = .ok .clearbuf ∧
  decode 0x00000400001000060000FFFF00000020#128 = .ok (.xfer 0xFFFF 0 6 16 0x400) ∧
  decode 0x00000000000000000000000000000021#128 = .ok .update ∧
  decode 0x0000000000000000000001F400003C22#128 = .ok (.fillscreen 0x3C 500) ∧
  decode 0x00000000000000000000000000095523#128 = .ok (.fillpage 9 0x55 0) ∧
  decode 0x00000000000000000000000000000030#128 = .ok .powerdown ∧
  decode 0x00000000000000000000000000000131#128 = .ok (.setenabled true) ∧
  decode 0x0000000000000000000000000000FF32#128 = .ok (.setcontrast 0xFF) ∧
  decode 0x00000000000000000000000000000133#128 = .ok (.setinvert true) ∧
  decode 0x00000000000000000000000000050240#128 = .ok (.scrollHr 2 5) ∧
  decode 0x00000000000000000000000000050241#128 = .ok (.scrollHl 2 5) ∧
  decode 0x00000000000000000000000000050242#128 = .ok (.scrollDr 2 5) ∧
  decode 0x00000000000000000000000000050243#128 = .ok (.scrollDl 2 5) ∧
  decode 0x00000000000000000000000000000044#128 = .ok .stopscroll ∧
  decode 0x00000000000000000000000000000050#128 = .ok .checkconn

/-- R76: every operation with in-range operands has a descriptor, and decoding it gives the operation back. -/
def Obligations.DecodeOfEncode : Prop :=
  ∀ i : Instr, i.wf = true → decode (encode i) = .ok i

/-- R76: decoding is injective on legal descriptors: a legal descriptor is the encoding of what it decodes to. -/
def Obligations.EncodeOfDecode : Prop :=
  ∀ (d : Descriptor) (i : Instr), decode d = .ok i → i.wf = true ∧ encode i = d

/-- R76: a descriptor is a row's operation exactly when `D & mask = match`, with SETPIXEL's constraint that the colour is not 3;
and at most one row matches. -/
def Obligations.DecodeAgreesWithOpcodeTable : Prop :=
  (∀ (d : Descriptor) (o : Op),
    (∃ i, decode d = .ok i ∧ i.op = o) ↔
      (d &&& o.format.tableMask = o.tableMatch ∧ (o = .setpixel → d.extractLsb' 8 2 ≠ 3#2))) ∧
  ∀ (d : Descriptor) (o o' : Op),
    d &&& o.format.tableMask = o.tableMatch → d &&& o'.format.tableMask = o'.tableMatch → o = o'

/-- R75, R191: a descriptor with an unlisted `OP`, with a 1 in a bit that its format does not use, or with a SETPIXEL's colour
3, takes the fault IllegalOperation, and nothing else changes; every other descriptor decodes to an operation. -/
def Obligations.IllegalDescriptorFaults : Prop :=
  ∀ (s : State) (d : Descriptor) (rest : List HostMove), s.blocked = false → s.host = .issue d :: rest →
    ((∀ o : Op, o.code ≠ d.extractLsb' 0 8) ∨
      (∃ o : Op, o.code = d.extractLsb' 0 8 ∧ d &&& (o.format.tableMask &&& ~~~ 0xFF#128) ≠ 0#128) ∨
      (d.extractLsb' 0 8 = 0x10#8 ∧ d.extractLsb' 8 2 = 3#2) →
      step s = .next { s with host := rest, responses := s.responses ++ [.fault .illegalOperation] }) ∧
    (¬ ((∀ o : Op, o.code ≠ d.extractLsb' 0 8) ∨
      (∃ o : Op, o.code = d.extractLsb' 0 8 ∧ d &&& (o.format.tableMask &&& ~~~ 0xFF#128) ≠ 0#128) ∨
      (d.extractLsb' 0 8 = 0x10#8 ∧ d.extractLsb' 8 2 = 3#2)) →
      ∃ i, decode d = .ok i)

/-- R70, R77: the sixteen bytes in which a platform stores a descriptor, lowest bits first, decode as the descriptor; no other
number of bytes decodes. -/
def Obligations.StoredDescriptorDecodes : Prop :=
  (∀ d : Descriptor, decodeBytes (littleEndian 16 d.toNat) = decode d) ∧
  ∀ (bs : List Byte) (i : Instr), decodeBytes bs = .ok i → bs.length = 16

/-- R78: a line that assembles gives an operation that has a legal descriptor; and each mnemonic with its operands in the order of
R78's table, decimal or by name, assembles to its operation, at every value of every operand. -/
def Obligations.AssembledLineIsLegal : Prop :=
  (∀ (line : List Char) (i : Instr), assemble line = some i → i.wf = true) ∧
  let u : Nat → List Char := Nat.toDigits 10
  let z : Int → List Char := fun v => if v < 0 then '-' :: Nat.toDigits 10 (-v).toNat else Nat.toDigits 10 v.toNat
  let sep : List Char := [',', ' ']
  (assemble "INIT".toList = some .init ∧ assemble "CLEARBUF".toList = some .clearbuf ∧
    assemble "UPDATE".toList = some .update ∧ assemble "POWERDOWN".toList = some .powerdown ∧
    assemble "STOPSCROLL".toList = some .stopscroll ∧ assemble "CHECKCONN".toList = some .checkconn ∧
    assemble "SETENABLED ON".toList = some (.setenabled true) ∧ assemble "SETENABLED OFF".toList = some (.setenabled false) ∧
    assemble "SETINVERT ON".toList = some (.setinvert true) ∧ assemble "SETINVERT OFF".toList = some (.setinvert false)) ∧
  (∀ (w h : Half) (buffer size : Addr),
    assemble ("SETBUF ".toList ++ u w.toNat ++ sep ++ u h.toNat ++ sep ++ u buffer.toNat ++ sep ++ u size.toNat) =
      some (.setbuf w h buffer size)) ∧
  (∀ r : BitVec 2, assemble ("SETROT ".toList ++ u r.toNat) = some (.setrot r)) ∧
  (∀ x y : Half,
    assemble ("SETPIXEL ".toList ++ z x.toInt ++ sep ++ z y.toInt ++ sep ++ "CLEAR".toList) = some (.setpixel x y 0#2) ∧
    assemble ("SETPIXEL ".toList ++ z x.toInt ++ sep ++ z y.toInt ++ sep ++ "SET".toList) = some (.setpixel x y 1#2) ∧
    assemble ("SETPIXEL ".toList ++ z x.toInt ++ sep ++ z y.toInt ++ sep ++ "INVERT".toList) = some (.setpixel x y 2#2)) ∧
  (∀ (x y w h : Half) (data : Addr) (invert : Bool),
    assemble ("DRAWBITMAP ".toList ++ z x.toInt ++ sep ++ z y.toInt ++ sep ++ u w.toNat ++ sep ++ u h.toNat ++ sep ++
      u data.toNat ++ sep ++ (if invert = true then ['1'] else ['0'])) = some (.drawbitmap x y w h data invert)) ∧
  (∀ (x y w h : Half) (src : Addr),
    assemble ("XFER ".toList ++ z x.toInt ++ sep ++ z y.toInt ++ sep ++ u w.toNat ++ sep ++ u h.toNat ++ sep ++ u src.toNat) =
      some (.xfer x y w h src)) ∧
  (∀ (pattern : Byte) (delay : Half),
    assemble ("FILLSCREEN ".toList ++ u pattern.toNat ++ sep ++ u delay.toNat) = some (.fillscreen pattern delay)) ∧
  (∀ (page pattern : Byte) (delay : Half),
    assemble ("FILLPAGE ".toList ++ u page.toNat ++ sep ++ u pattern.toNat ++ sep ++ u delay.toNat) =
      some (.fillpage page pattern delay)) ∧
  (∀ c : Byte, assemble ("SETCONTRAST ".toList ++ u c.toNat) = some (.setcontrast c)) ∧
  ∀ start stop : Byte,
    assemble ("SCROLL_HR ".toList ++ u start.toNat ++ sep ++ u stop.toNat) = some (.scrollHr start stop) ∧
    assemble ("SCROLL_HL ".toList ++ u start.toNat ++ sep ++ u stop.toNat) = some (.scrollHl start stop) ∧
    assemble ("SCROLL_DR ".toList ++ u start.toNat ++ sep ++ u stop.toNat) = some (.scrollDr start stop) ∧
    assemble ("SCROLL_DL ".toList ++ u start.toNat ++ sep ++ u stop.toNat) = some (.scrollDl start stop)

/-! ## The step, the host, reset -/

/-- R12: when the descriptor at the request port decodes, a step is that operation, the descriptor taken from the port; while an
operation waits for the transport (R197) no step takes one. The port as a list is log entry 1. -/
def Obligations.StepRunsDecodedOperation : Prop :=
  (∀ (s : State) (d : Descriptor) (rest : List HostMove) (i : Instr),
    s.blocked = false → s.host = .issue d :: rest → decode d = .ok i → step s = exec i { s with host := rest }) ∧
  ∀ s : State, s.blocked = true → step s = .next s

/-- R57 (log entry 1): between operations the host may write a byte of memory; nothing else changes. With no further move of
the host nothing happens. -/
def Obligations.HostStoresBetweenOperations : Prop :=
  (∀ (s : State) (a : Addr) (v : Byte) (rest : List HostMove), s.blocked = false →
    s.host = .store a v :: rest →
    ∃ m : Memory, step s = .next { s with mem := m, host := rest } ∧
      ∀ b : Nat, m.read b = if b = a.toNat then v else s.mem.read b) ∧
  ∀ s : State, s.host = [] → step s = .next s

/-- R34, R220, R221, of the instance that construction answers: `ROT = 0`, `BUF_VALID = 0`, the configuration at its configured
values, nothing sent and nothing waiting; the handle registers are unreadable (no operation reads them, whatever they hold). The
last clause, that a step with no descriptor presented changes nothing, rests on log entry 1: the model's request port. -/
def Obligations.ResetValues : Prop :=
  ∀ (p : Parameters) (s : State), State.construct p = some s →
    s.rot = 0#2 ∧ s.bufValid = false ∧ constructConfig p = some s.cfg ∧ s.trace = [] ∧ s.blocked = false ∧
    (∀ (i : Instr) (base : Addr) (w h : Half), outcomesAgree (exec i s) (exec i { s with bufBase := base, bufW := w, bufH := h })) ∧
    step s = .next s

/-- R5, R6, log entry 8: the state after reset is that of the spec's default instance, 128 by 64, 8 pages, a buffer of its size
1024 bytes, bus address 0x3C. -/
def Obligations.ResetIsDefaultInstance : Prop :=
  State.construct defaultParameters = some State.reset ∧ State.reset.cfg.width = 128 ∧ State.reset.cfg.height.pixels = 64 ∧
    State.reset.cfg.pages = 8 ∧ State.reset.cfg.width * State.reset.cfg.pages = 1024 ∧ State.reset.cfg.busAddr = 0x3C#7

/-- R9, R220: an instance is constructed exactly for `HEIGHT` 16, 32 or 64, `WIDTH` 1 to 256, a 7-bit `BUS_ADDR` and two different
control bytes, and else "construction fails"; it has the parameters it was constructed from, with `PAGES = HEIGHT/8`. -/
def Obligations.ConstructionRejectsUnsupportedGeometry : Prop :=
  ∀ p : Parameters,
    ((State.construct p).isSome = true ↔
      ((p.height = 16 ∨ p.height = 32 ∨ p.height = 64) ∧ 1 ≤ p.width ∧ p.width ≤ 256 ∧ p.busAddr ≤ 127 ∧
        p.ctrlCmd ≠ p.ctrlData)) ∧
    ∀ s, State.construct p = some s →
      s.cfg.wf = true ∧ s.cfg.width = p.width ∧ s.cfg.height.pixels = p.height ∧ s.cfg.pages = p.height / 8 ∧
        s.cfg.busAddr.toNat = p.busAddr ∧ s.cfg.ctrlCmd = p.ctrlCmd ∧ s.cfg.ctrlData = p.ctrlData ∧ s.cfg.cmd = p.cmd ∧
        s.cfg.scroll = p.scroll ∧ s.cfg.xferOffset = p.xferOffset

/-! ## Initialisation and configuration (40_init_config.md) -/

/-- R110, R111, the transport answering each frame (R233): INIT sends 26 command frames in strict order, with the
height-dependent multiplex, COM-pins and contrast arguments, and changes nothing else. -/
def Obligations.InitSequence : Prop :=
  ∀ s : State, s.willAnswer 26 = true →
    exec .init s = .next { s with
      trace := s.trace ++
        ([s.cfg.cmd.displayOff, s.cfg.cmd.setDisplayClockDiv, 0x80,
          s.cfg.cmd.setMultiplex, (match s.cfg.height with | .h64 => 0x3F | .h32 => 0x1F | .h16 => 0x0F),
          s.cfg.cmd.setDisplayOffset, 0x00, s.cfg.cmd.setStartLine, s.cfg.cmd.chargePump, 0x14,
          s.cfg.cmd.memoryMode, 0x00, s.cfg.cmd.segRemap ||| 1, s.cfg.cmd.comScanDec,
          s.cfg.cmd.setComPins, (match s.cfg.height with | .h64 => 0x12 | .h32 => 0x02 | .h16 => 0x02),
          s.cfg.cmd.setContrast, (match s.cfg.height with | .h64 => 0xCF | .h32 => 0x8F | .h16 => 0xAF),
          s.cfg.cmd.setPrecharge, 0xF1, s.cfg.cmd.setVcomDetect, 0x40, s.cfg.cmd.displayAllOnResume,
          s.cfg.cmd.normalDisplay, s.cfg.cmd.deactivateScroll, s.cfg.cmd.displayOn] : List Byte).map
          fun b => BusEvent.write s.cfg.busAddr [s.cfg.ctrlCmd, b]
      answersLeft := s.answersLeft.map (· - 26)
      responses := s.responses ++ [.done 0#32] }

/-- R114: SETBUF answers ERR_SIZE, else ERR_NULL, storing nothing; else it stores the handle and answers OK. -/
def Obligations.SetbufResult : Prop :=
  ∀ (s : State) (w h : Half) (buffer size : Addr),
    exec (.setbuf w h buffer size) s = .next
      (if h.toNat % 8 ≠ 0 ∨ size.toNat ≠ w.toNat * (h.toNat / 8) then { s with responses := s.responses ++ [.done 1#32] }
      else if buffer = 0#32 then { s with responses := s.responses ++ [.done 2#32] }
      else { s with bufValid := true, bufBase := buffer, bufW := w, bufH := h, responses := s.responses ++ [.done 0#32] })

/-- R116: SETROT writes `ROT` and does nothing else. -/
def Obligations.SetrotResult : Prop :=
  ∀ (s : State) (r : BitVec 2), exec (.setrot r) s = .next { s with rot := r, responses := s.responses ++ [.done 0#32] }

/-- R117: the order of two of INIT, SETBUF and SETROT, of different kinds, is free: each answers the same in either order, and
everything else comes out the same. The transport answers INIT's frames. -/
def Obligations.ConfigurationOrderIsFree : Prop :=
  ∀ (i j : Instr) (s a b c d : State), s.willAnswer 26 = true →
    (i.op = .init ∨ i.op = .setbuf ∨ i.op = .setrot) → (j.op = .init ∨ j.op = .setbuf ∨ j.op = .setrot) → i.op ≠ j.op →
    exec i s = .next a → exec j a = .next b → exec j s = .next c → exec i c = .next d →
    ∃ r q : Response, b.responses = s.responses ++ [r, q] ∧ d = { b with responses := s.responses ++ [q, r] }

/-! ## ROTCALC and SETPIXEL (41_pixel.md) -/

/-- R130, R131, with the byte and bit of R132: what ROTCALC answers for each rotation; out of range it answers none. -/
def Obligations.RotcalcTransforms : Prop :=
  ∀ W H : Nat,
    (∀ x y : Nat,
      rotcalc 0#2 W H x y = (if x < W ∧ y < H then some (W * (y / 8) + x, y % 8) else none) ∧
      rotcalc 1#2 W H x y = (if x < H ∧ y < W then some (W * (x / 8) + (W - 1 - y), x % 8) else none) ∧
      rotcalc 2#2 W H x y =
        (if x < W ∧ y < H then some (W * ((H - 1 - y) / 8) + (W - 1 - x), (H - 1 - y) % 8) else none) ∧
      rotcalc 3#2 W H x y = (if x < H ∧ y < W then some (W * ((H - 1 - x) / 8) + y, (H - 1 - x) % 8) else none)) ∧
    ∀ (r : BitVec 2) (x y : Int), x < 0 ∨ y < 0 → rotcalc r W H x y = none

/-- R136, R53: for a buffer whose height is a multiple of 8, ROTCALC is a bijection from the pixels in range onto the bits of
the buffer: each lands inside it, no two on one bit, and every bit is some pixel. -/
def Obligations.RotcalcBijection : Prop :=
  ∀ (r : BitVec 2) (W H : Nat), H % 8 = 0 →
    (∀ (x y : Int) (k b : Nat), rotcalc r W H x y = some (k, b) → k < W * (H / 8) ∧ b < 8) ∧
    (∀ (x y x' y' : Int) (p : Nat × Nat), rotcalc r W H x y = some p → rotcalc r W H x' y' = some p → x = x' ∧ y = y') ∧
    ∀ k b : Nat, k < W * (H / 8) → b < 8 → ∃ x y : Int, rotcalc r W H x y = some (k, b)

/-- R135 (d), R136: rotation 2 twice is the identity; rotations 1 and 3 undo each other, with the dimensions swapped; rotation 1
twice, with the intermediate frame's dimensions, is rotation 2; and where the logical origin lands. -/
def Obligations.RotationAlgebra : Prop :=
  ∀ (W H : Nat) (x y : Int),
    rotate 2#2 W H (rotate 2#2 W H x y).1 (rotate 2#2 W H x y).2 = (x, y) ∧
    rotate 3#2 H W (rotate 1#2 W H x y).1 (rotate 1#2 W H x y).2 = (x, y) ∧
    rotate 1#2 H W (rotate 3#2 W H x y).1 (rotate 3#2 W H x y).2 = (x, y) ∧
    rotate 1#2 W H (rotate 1#2 H W x y).1 (rotate 1#2 H W x y).2 = rotate 2#2 W H x y ∧
    rotate 0#2 W H 0 0 = (0, 0) ∧ rotate 1#2 W H 0 0 = ((W : Int) - 1, 0) ∧
    rotate 2#2 W H 0 0 = ((W : Int) - 1, (H : Int) - 1) ∧ rotate 3#2 W H 0 0 = (0, (H : Int) - 1)

/-- R130 to R134, the pseudocode of SETPIXEL: without a handle the fault NoBuffer; outside the rotated logical bounds the pixel is
dropped, `Done(0)`; in range it writes the computed byte, with the colour applied to the computed bit, and leaves every other
byte, every register and the trace alone. The address is inside the space (a host duty, R53). -/
def Obligations.SetpixelResult : Prop :=
  ∀ (s : State) (x y : Half) (colour : BitVec 2), colour ≠ 3#2 →
    let W : Int := s.bufW.toNat
    let H : Int := s.bufH.toNat
    let LW : Int := if s.rot = 1#2 ∨ s.rot = 3#2 then H else W
    let LH : Int := if s.rot = 1#2 ∨ s.rot = 3#2 then W else H
    if s.bufValid = false then
      exec (.setpixel x y colour) s = .next { s with responses := s.responses ++ [.fault .noBuffer] }
    else if x.toInt < 0 ∨ LW ≤ x.toInt ∨ y.toInt < 0 ∨ LH ≤ y.toInt then
      exec (.setpixel x y colour) s = .next { s with responses := s.responses ++ [.done 0#32] }
    else
      let x' : Int := if s.rot = 0#2 then x.toInt else if s.rot = 1#2 then W - 1 - y.toInt
        else if s.rot = 2#2 then W - 1 - x.toInt else y.toInt
      let y' : Int := if s.rot = 0#2 then y.toInt else if s.rot = 1#2 then x.toInt
        else if s.rot = 2#2 then H - 1 - y.toInt else H - 1 - x.toInt
      let addr : Nat := s.bufBase.toNat + s.bufW.toNat * (y'.toNat / 8) + x'.toNat
      let mask : Byte := 1#8 <<< (y'.toNat % 8)
      addr < 2 ^ 32 →
      ∃ m : Memory,
        exec (.setpixel x y colour) s = .next { s with mem := m, responses := s.responses ++ [.done 0#32] } ∧
        (∀ a, a ≠ addr → m.read a = s.mem.read a) ∧
        m.read addr =
          (if colour = 1#2 then s.mem.read addr ||| mask
          else if colour = 0#2 then s.mem.read addr &&& ~~~ mask
          else s.mem.read addr ^^^ mask)

/-- R130, R134: a SETPIXEL outside the rotated logical bounds is dropped: it answers `Done(0)` and nothing changes. -/
def Obligations.SetpixelOutOfRangeDropped : Prop :=
  ∀ (s : State) (x y : Half) (colour : BitVec 2), s.bufValid = true → colour ≠ 3#2 →
    (x.toInt < 0 ∨ y.toInt < 0 ∨
      (if s.rot = 1#2 ∨ s.rot = 3#2 then (s.bufH.toNat : Int) else s.bufW.toNat) ≤ x.toInt ∨
      (if s.rot = 1#2 ∨ s.rot = 3#2 then (s.bufW.toNat : Int) else s.bufH.toNat) ≤ y.toInt) →
    exec (.setpixel x y colour) s = .next { s with responses := s.responses ++ [.done 0#32] }

/-- R135 (a), R133: a SETPIXEL changes no bit but the computed one; SET leaves it 1, CLEAR 0, INVERT flips it. -/
def Obligations.SetpixelChangesOneBit : Prop :=
  ∀ (s t : State) (x y : Half) (colour : BitVec 2) (k b : Nat),
    s.bufValid = true → colour ≠ 3#2 → rotcalc s.rot s.bufW.toNat s.bufH.toNat x.toInt y.toInt = some (k, b) →
    exec (.setpixel x y colour) s = .next t →
    (∀ a n : Nat, ¬ (a = s.bufBase.toNat + k ∧ n = b) → (t.mem.read a).getLsbD n = (s.mem.read a).getLsbD n) ∧
    (t.mem.read (s.bufBase.toNat + k)).getLsbD b =
      (if colour = 1#2 then true else if colour = 0#2 then false else !(s.mem.read (s.bufBase.toNat + k)).getLsbD b)

/-- R135 (b): INVERT is its own inverse: applied twice it leaves every byte of memory as it was. -/
def Obligations.InvertTwiceRestores : Prop :=
  ∀ (s t u : State) (x y : Half), exec (.setpixel x y 2#2) s = .next t → exec (.setpixel x y 2#2) t = .next u →
    ∀ a : Nat, u.mem.read a = s.mem.read a

/-! ## PAGESEQ (42_transfer.md) -/

/-- R142, R143: under the formula (decision D13), the offsets that XFER sends, in order: the page rows that pass the row test,
and within each the columns that pass the column test, at `w*r + c`. A transfer that skips something rests on D13 (U1). -/
def Obligations.XferOffsetsClosedForm : Prop :=
  ∀ (c : Config) (x y : Int) (w h : Nat), c.xferOffset = .formula →
    xferOffsets c x y w h =
      ((List.range ((h + 7) / 8)).filter fun r : Nat => decide (0 ≤ y + 8 * (r : Int) ∧ y + 8 * (r : Int) < c.height.pixels)).flatMap
        fun r => ((List.range w).filter fun k : Nat => decide (0 ≤ x + (k : Int) ∧ x + (k : Int) < c.width)).map fun k => w * r + k

/-- R143, log entry 10: where nothing is skipped the formula and both counters agree: every offset once, in order. -/
def Obligations.XferCountersAgreeUnskipped : Prop :=
  ∀ (c : Config) (x y : Int) (w h : Nat),
    0 ≤ x → x + w ≤ c.width → 0 ≤ y → y + 8 * (((h + 7) / 8 : Nat) : Int) < c.height.pixels + 8 →
    xferOffsets c x y w h = List.range (w * ((h + 7) / 8))

/-- R140, R141: an XFER whose source lies inside the address space completes, whatever the setting of the offset switch: it sends
the full-panel window and then, for each offset in order, the byte at `src + offset` in a data frame of its own; no register and
no byte of memory changes. -/
def Obligations.XferResult : Prop :=
  ∀ (s : State) (x y w h : Half) (src : Addr), src.toNat + w.toNat * ((h.toNat + 7) / 8) ≤ 2 ^ 32 →
    s.willAnswer (6 + (xferOffsets s.cfg x.toInt y.toInt w.toNat h.toNat).length) = true →
    exec (.xfer x y w h src) s = .next { s with
      trace := s.trace ++
        (([s.cfg.cmd.columnAddr, 0x00, BitVec.ofNat 8 (s.cfg.width - 1),
           s.cfg.cmd.pageAddr, 0x00, BitVec.ofNat 8 (s.cfg.height.pixels / 8 - 1)] : List Byte).map
            fun b => BusEvent.write s.cfg.busAddr [s.cfg.ctrlCmd, b]) ++
        (xferOffsets s.cfg x.toInt y.toInt w.toNat h.toNat).map
          fun o => BusEvent.write s.cfg.busAddr [s.cfg.ctrlData, s.mem.read (src.toNat + o)]
      answersLeft := s.answersLeft.map (· - (6 + (xferOffsets s.cfg x.toInt y.toInt w.toNat h.toNat).length))
      responses := s.responses ++ [.done 0#32] }

/-- R140, R141 with the formula (decision D13): after the full-panel window, the page rows `r` whose top row `y + 8r` is on the
panel, top first, and within each the columns `c` with `x + c` on the panel, left first: the byte at `src + w*r + c`, one data
frame each. A transfer that skips something rests on D13 (U1). -/
def Obligations.XferSendsRectangle : Prop :=
  ∀ (s : State) (x y w h : Half) (src : Addr), s.cfg.xferOffset = .formula →
    src.toNat + w.toNat * ((h.toNat + 7) / 8) ≤ 2 ^ 32 →
    s.willAnswer (6 + (xferOffsets s.cfg x.toInt y.toInt w.toNat h.toNat).length) = true →
    exec (.xfer x y w h src) s = .next { s with
      trace := s.trace ++
        (([s.cfg.cmd.columnAddr, 0x00, BitVec.ofNat 8 (s.cfg.width - 1),
           s.cfg.cmd.pageAddr, 0x00, BitVec.ofNat 8 (s.cfg.height.pixels / 8 - 1)] : List Byte).map
            fun b => BusEvent.write s.cfg.busAddr [s.cfg.ctrlCmd, b]) ++
        ((List.range ((h.toNat + 7) / 8)).filter fun r : Nat =>
            decide (0 ≤ y.toInt + 8 * (r : Int) ∧ y.toInt + 8 * (r : Int) < s.cfg.height.pixels)).flatMap fun r =>
          ((List.range w.toNat).filter fun c : Nat => decide (0 ≤ x.toInt + (c : Int) ∧ x.toInt + (c : Int) < s.cfg.width)).map
            fun c => BusEvent.write s.cfg.busAddr [s.cfg.ctrlData, s.mem.read (src.toNat + (w.toNat * r + c))]
      answersLeft := s.answersLeft.map (· - (6 + (xferOffsets s.cfg x.toInt y.toInt w.toNat h.toNat).length))
      responses := s.responses ++ [.done 0#32] }

/-- R144: without a handle UPDATE is the fault NoBuffer; with one it is `XFER 0, 0, BUF_W, BUF_H, BUF_BASE`, and it completes
with `Done(0)` where the buffer lies inside the space and the transport answers its frames. -/
def Obligations.UpdateIsXferOfBuffer : Prop :=
  ∀ s : State,
    if s.bufValid = false then exec .update s = .next { s with responses := s.responses ++ [.fault .noBuffer] }
    else
      exec .update s = exec (.xfer 0 0 s.bufW s.bufH s.bufBase) s ∧
      (s.bufBase.toNat + s.bufW.toNat * ((s.bufH.toNat + 7) / 8) ≤ 2 ^ 32 →
        s.willAnswer (6 + (xferOffsets s.cfg 0 0 s.bufW.toNat s.bufH.toNat).length) = true →
        ∃ t, exec .update s = .next t ∧ t.responses = s.responses ++ [.done 0#32])

/-- R144: with a buffer of the panel's dimensions UPDATE sends the window and then every framebuffer byte once, in address
order, whatever the setting of the offset switch. -/
def Obligations.UpdateSendsWholeFramebuffer : Prop :=
  ∀ s : State, s.bufValid = true → s.bufW.toNat = s.cfg.width → s.bufH.toNat = s.cfg.height.pixels →
    s.bufBase.toNat + s.cfg.width * s.cfg.pages ≤ 2 ^ 32 → s.willAnswer (6 + s.cfg.width * s.cfg.pages) = true →
    exec .update s = .next { s with
      trace := s.trace ++
        (([s.cfg.cmd.columnAddr, 0x00, BitVec.ofNat 8 (s.cfg.width - 1),
           s.cfg.cmd.pageAddr, 0x00, BitVec.ofNat 8 (s.cfg.height.pixels / 8 - 1)] : List Byte).map
            fun b => BusEvent.write s.cfg.busAddr [s.cfg.ctrlCmd, b]) ++
        (List.range (s.cfg.width * s.cfg.pages)).map
          fun k => BusEvent.write s.cfg.busAddr [s.cfg.ctrlData, s.mem.read (s.bufBase.toNat + k)]
      answersLeft := s.answersLeft.map (· - (6 + s.cfg.width * s.cfg.pages))
      responses := s.responses ++ [.done 0#32] }

/-- R145: without a handle CLEARBUF is the fault NoBuffer; with a buffer inside the space (a host duty, R53) it completes: every
byte of the buffer is 0 and nothing else has changed. -/
def Obligations.ClearbufResult : Prop :=
  ∀ s : State,
    if s.bufValid = false then exec .clearbuf s = .next { s with responses := s.responses ++ [.fault .noBuffer] }
    else
      s.bufBase.toNat + s.bufW.toNat * (s.bufH.toNat / 8) ≤ 2 ^ 32 →
      ∃ m : Memory,
        exec .clearbuf s = .next { s with mem := m, responses := s.responses ++ [.done 0#32] } ∧
        ∀ a : Nat, m.read a =
          if s.bufBase.toNat ≤ a ∧ a < s.bufBase.toNat + s.bufW.toNat * (s.bufH.toNat / 8) then 0 else s.mem.read a

/-- R144: "`clearBuffer` followed by `update` transfers an all-zero buffer": after the window every frame of the UPDATE is a data
byte 0, as many as the UPDATE sends where the transport answers them all. -/
def Obligations.ClearThenUpdateSendsZeros : Prop :=
  ∀ s t u : State, s.handleOk = true → exec .clearbuf s = .next t → exec .update t = .next u → s.bufValid = true →
    t.willAnswer (6 + (xferOffsets s.cfg 0 0 s.bufW.toNat s.bufH.toNat).length) = true →
    u.trace = t.trace ++
      (([s.cfg.cmd.columnAddr, 0x00, BitVec.ofNat 8 (s.cfg.width - 1),
         s.cfg.cmd.pageAddr, 0x00, BitVec.ofNat 8 (s.cfg.height.pixels / 8 - 1)] : List Byte).map
          fun b => BusEvent.write s.cfg.busAddr [s.cfg.ctrlCmd, b]) ++
      List.replicate (xferOffsets s.cfg 0 0 s.bufW.toNat s.bufH.toNat).length
        (BusEvent.write s.cfg.busAddr [s.cfg.ctrlData, 0x00])

/-- R146, R148, R149: FILLSCREEN sends, for every page, page-select, high and low column start and then the pattern once per
column, whatever the delay; it touches neither registers nor memory. -/
def Obligations.FillscreenResult : Prop :=
  ∀ (s : State) (pattern : Byte) (delay : Half), s.willAnswer (s.cfg.height.pixels / 8 * (3 + s.cfg.width)) = true →
    exec (.fillscreen pattern delay) s = .next { s with
      trace := s.trace ++ (List.range (s.cfg.height.pixels / 8)).flatMap fun p =>
        [BusEvent.write s.cfg.busAddr [s.cfg.ctrlCmd, s.cfg.cmd.pageSelect ||| BitVec.ofNat 8 p],
         BusEvent.write s.cfg.busAddr [s.cfg.ctrlCmd, s.cfg.cmd.setHighColumn],
         BusEvent.write s.cfg.busAddr [s.cfg.ctrlCmd, s.cfg.cmd.setLowColumn]] ++
        List.replicate s.cfg.width (BusEvent.write s.cfg.busAddr [s.cfg.ctrlData, pattern])
      answersLeft := s.answersLeft.map (· - s.cfg.height.pixels / 8 * (3 + s.cfg.width))
      responses := s.responses ++ [.done 0#32] }

/-- R147, R148, R149: FILLPAGE sends one page body, the page operand not checked, whatever the delay. -/
def Obligations.FillpageResult : Prop :=
  ∀ (s : State) (page pattern : Byte) (delay : Half), s.willAnswer (3 + s.cfg.width) = true →
    exec (.fillpage page pattern delay) s = .next { s with
      trace := s.trace ++
        [BusEvent.write s.cfg.busAddr [s.cfg.ctrlCmd, s.cfg.cmd.pageSelect ||| page],
         BusEvent.write s.cfg.busAddr [s.cfg.ctrlCmd, s.cfg.cmd.setHighColumn],
         BusEvent.write s.cfg.busAddr [s.cfg.ctrlCmd, s.cfg.cmd.setLowColumn]] ++
        List.replicate s.cfg.width (BusEvent.write s.cfg.busAddr [s.cfg.ctrlData, pattern])
      answersLeft := s.answersLeft.map (· - (3 + s.cfg.width))
      responses := s.responses ++ [.done 0#32] }

/-! ## DRAWBITMAP (43_blit.md) -/

/-- R160, R164: the checks of DRAWBITMAP in their order; the first that fails decides the response, and nothing else happens. -/
def Obligations.DrawbitmapChecksInOrder : Prop :=
  ∀ (s : State) (x y w h : Half) (data : Addr) (invert : Bool) (LW LH : Nat), s.bufValid = true →
    (LW, LH) = (if s.rot = 1#2 ∨ s.rot = 3#2 then (s.bufH.toNat, s.bufW.toNat) else (s.bufW.toNat, s.bufH.toNat)) →
    if x.toInt < 0 ∨ (LW : Int) ≤ x.toInt ∨ y.toInt < 0 ∨ (LH : Int) ≤ y.toInt then
      exec (.drawbitmap x y w h data invert) s = .next { s with responses := s.responses ++ [.done 1#32] }
    else if LW < w.toNat ∨ LH < h.toNat then
      exec (.drawbitmap x y w h data invert) s = .next { s with responses := s.responses ++ [.done 2#32] }
    else if data = 0#32 then
      exec (.drawbitmap x y w h data invert) s = .next { s with responses := s.responses ++ [.done 3#32] }
    else if w.toNat % 8 ≠ 0 then
      exec (.drawbitmap x y w h data invert) s = .next { s with responses := s.responses ++ [.done 4#32] }
    else
      s.bufH.toNat % 8 = 0 → s.bufBase.toNat + s.bufW.toNat * (s.bufH.toNat / 8) ≤ 2 ^ 32 →
      data.toNat + h.toNat * (w.toNat / 8) ≤ 2 ^ 32 →
      ∃ m : Memory, exec (.drawbitmap x y w h data invert) s =
        .next { s with mem := m, responses := s.responses ++ [.done 0#32] } ∧
        ∀ a : Nat, a < s.bufBase.toNat ∨ s.bufBase.toNat + s.bufW.toNat * (s.bufH.toNat / 8) ≤ a →
          m.read a = s.mem.read a

/-- R45, R161, R162: a bitmap that does not overlap the framebuffer is drawn opaquely: every target pixel in range is 1 where
the bitmap bit (bit `7 - (i mod 8)` of byte `data + j*(w/8) + i/8`) is foreground and 0 where it is background, the two
swapped when `invert` is set; every other bit of the framebuffer is as before. -/
def Obligations.DrawbitmapPixels : Prop :=
  ∀ (s t : State) (x y w h : Half) (data : Addr) (invert : Bool),
    s.bufValid = true → s.bufH.toNat % 8 = 0 →
    checkBlit (logicalDims s.rot s.bufW.toNat s.bufH.toNat) x.toInt y.toInt w h data = .success →
    (data.toNat + h.toNat * (w.toNat / 8) ≤ s.bufBase.toNat ∨
      s.bufBase.toNat + s.bufW.toNat * (s.bufH.toNat / 8) ≤ data.toNat) →
    exec (.drawbitmap x y w h data invert) s = .next t →
    (∀ j i k b : Nat, j < h.toNat → i < w.toNat →
      rotcalc s.rot s.bufW.toNat s.bufH.toNat (x.toInt + i) (y.toInt + j) = some (k, b) →
      (t.mem.read (s.bufBase.toNat + k)).getLsbD b =
        ((s.mem.read (data.toNat + j * (w.toNat / 8) + i / 8)).getLsbD (7 - i % 8) ^^ invert)) ∧
    ∀ k b : Nat, k < s.bufW.toNat * (s.bufH.toNat / 8) → b < 8 →
      (∀ j i : Nat, j < h.toNat → i < w.toNat →
        rotcalc s.rot s.bufW.toNat s.bufH.toNat (x.toInt + i) (y.toInt + j) ≠ some (k, b)) →
      (t.mem.read (s.bufBase.toNat + k)).getLsbD b = (s.mem.read (s.bufBase.toNat + k)).getLsbD b

/-! ## Controls (44_control.md) -/

/-- R170 to R173, R178: POWERDOWN, SETENABLED, SETCONTRAST, SETINVERT and STOPSCROLL send their command frames and change nothing
else. -/
def Obligations.DisplayControls : Prop :=
  ∀ (s : State) (flag : Bool) (c : Byte),
    (s.willAnswer 1 = true → exec .powerdown s = .next { s with
      trace := s.trace ++ [.write s.cfg.busAddr [s.cfg.ctrlCmd, s.cfg.cmd.displayOff]]
      answersLeft := s.answersLeft.map (· - 1)
      responses := s.responses ++ [.done 0#32] }) ∧
    (s.willAnswer 1 = true → exec (.setenabled flag) s = .next { s with
      trace := s.trace ++
        [.write s.cfg.busAddr [s.cfg.ctrlCmd, if flag = true then s.cfg.cmd.displayOn else s.cfg.cmd.displayOff]]
      answersLeft := s.answersLeft.map (· - 1)
      responses := s.responses ++ [.done 0#32] }) ∧
    (s.willAnswer 2 = true → exec (.setcontrast c) s = .next { s with
      trace := s.trace ++ [.write s.cfg.busAddr [s.cfg.ctrlCmd, s.cfg.cmd.setContrast],
        .write s.cfg.busAddr [s.cfg.ctrlCmd, c]]
      answersLeft := s.answersLeft.map (· - 2)
      responses := s.responses ++ [.done 0#32] }) ∧
    (s.willAnswer 1 = true → exec (.setinvert flag) s = .next { s with
      trace := s.trace ++
        [.write s.cfg.busAddr [s.cfg.ctrlCmd, if flag = true then s.cfg.cmd.invertDisplay else s.cfg.cmd.normalDisplay]]
      answersLeft := s.answersLeft.map (· - 1)
      responses := s.responses ++ [.done 0#32] }) ∧
    (s.willAnswer 1 = true → exec .stopscroll s = .next { s with
      trace := s.trace ++ [.write s.cfg.busAddr [s.cfg.ctrlCmd, s.cfg.cmd.deactivateScroll]]
      answersLeft := s.answersLeft.map (· - 1)
      responses := s.responses ++ [.done 0#32] })

/-- R91, R174 to R177: `SCROLL_SEQ` is any four functions of the start and stop pages to bytes: for every such function there is an
entry of `SCROLL_SEQ` (log entry 9) with which the operation, in every state, sends the function's bytes in order, each in a
command frame of its own, and changes nothing else; what it sends is a function of the configuration and the pages alone. -/
def Obligations.ScrollSendsItsSequence : Prop :=
  let Sends := fun (i : Instr) (bytes : List Byte) (s : State) => s.willAnswer bytes.length = true →
    exec i s = .next { s with
      trace := s.trace ++ bytes.map fun b => BusEvent.write s.cfg.busAddr [s.cfg.ctrlCmd, b]
      answersLeft := s.answersLeft.map (· - bytes.length)
      responses := s.responses ++ [.done 0#32] }
  (∀ f : Byte → Byte → List Byte, ∃ q : ScrollSequence, ∀ (s : State) (start stop : Byte),
    (s.cfg.scroll.hr = q → Sends (.scrollHr start stop) (f start stop) s) ∧
    (s.cfg.scroll.hl = q → Sends (.scrollHl start stop) (f start stop) s) ∧
    (s.cfg.scroll.dr = q → Sends (.scrollDr start stop) (f start stop) s) ∧
    (s.cfg.scroll.dl = q → Sends (.scrollDl start stop) (f start stop) s)) ∧
  ∀ c : Config, ∃ hr hl dr dl : Byte → Byte → List Byte, ∀ (s : State) (start stop : Byte), s.cfg = c →
    Sends (.scrollHr start stop) (hr start stop) s ∧ Sends (.scrollHl start stop) (hl start stop) s ∧
    Sends (.scrollDr start stop) (dr start stop) s ∧ Sends (.scrollDl start stop) (dl start stop) s

/-- R91, R174 to R177 with the default sequences, which the spec marks as general knowledge (log entry 8). -/
def Obligations.ScrollDefaultSequences : Prop :=
  ∀ (s : State) (start stop : Byte), s.cfg.scroll = defaultScroll →
    let frames := fun bs : List Byte => bs.map fun b => BusEvent.write s.cfg.busAddr [s.cfg.ctrlCmd, b]
    let height : Byte := match s.cfg.height with | .h64 => 0x40 | .h32 => 0x20 | .h16 => 0x10
    (s.willAnswer 8 = true → exec (.scrollHr start stop) s = .next { s with
      trace := s.trace ++ frames [0x26, 0x00, start, 0x00, stop, 0x00, 0xFF, 0x2F]
      answersLeft := s.answersLeft.map (· - 8)
      responses := s.responses ++ [.done 0#32] }) ∧
    (s.willAnswer 8 = true → exec (.scrollHl start stop) s = .next { s with
      trace := s.trace ++ frames [0x27, 0x00, start, 0x00, stop, 0x00, 0xFF, 0x2F]
      answersLeft := s.answersLeft.map (· - 8)
      responses := s.responses ++ [.done 0#32] }) ∧
    (s.willAnswer 10 = true → exec (.scrollDr start stop) s = .next { s with
      trace := s.trace ++ frames [0xA3, 0x00, height, 0x29, 0x00, start, 0x00, stop, 0x01, 0x2F]
      answersLeft := s.answersLeft.map (· - 10)
      responses := s.responses ++ [.done 0#32] }) ∧
    (s.willAnswer 10 = true → exec (.scrollDl start stop) s = .next { s with
      trace := s.trace ++ frames [0xA3, 0x00, height, 0x2A, 0x00, start, 0x00, stop, 0x01, 0x2F]
      answersLeft := s.answersLeft.map (· - 10)
      responses := s.responses ++ [.done 0#32] })

/-- R179: CHECKCONN makes one read of one byte at `BUS_ADDR`, sends no frame, and passes the transport's count to the host. The
count is a free value, so this holds for every count; the counter `draws` that it is applied to is the model's own (log entry
5). -/
def Obligations.CheckconnResult : Prop :=
  ∀ s : State, s.willAnswer 1 = true → exec .checkconn s = .next { s with
    trace := s.trace ++ [.read s.cfg.busAddr 1]
    answersLeft := s.answersLeft.map (· - 1)
    responses := s.responses ++ [.done (Config.busReadCount s.draws)]
    draws := s.draws + 1 }

/-- R79: POWERDOWN behaves exactly as SETENABLED OFF; UPDATE as the buffer check and then XFER of the whole buffer; STOPSCROLL
sends the same single command that INIT sends as its 25th frame, where the transport lets INIT get that far. -/
def Obligations.AliasesBehaveAlike : Prop :=
  ∀ s : State,
    exec .powerdown s = exec (.setenabled false) s ∧
    exec .update s =
      (if s.bufValid = true then exec (.xfer 0 0 s.bufW s.bufH s.bufBase) s
      else .next { s with responses := s.responses ++ [.fault .noBuffer] }) ∧
    (s.willAnswer 24 = true → ∃ (t u : State) (e : BusEvent), exec .stopscroll s = .next t ∧ exec .init s = .next u ∧
      t.trace = s.trace ++ [e] ∧ (u.trace.drop s.trace.length)[24]? = some e)

/-! ## Outcomes (60_exceptions.md, 30_encoding.md R84) -/

/-- R192: without a handle, SETPIXEL, DRAWBITMAP, CLEARBUF and UPDATE take the fault NoBuffer and do nothing else; no other
well-formed operation takes it, with or without a handle: it answers `Done`, or nothing where the transport never answers it
(R197). -/
def Obligations.NoBufferFault : Prop :=
  (∀ (s : State) (x y w h : Half) (colour : BitVec 2) (data : Addr) (invert : Bool), s.bufValid = false → colour ≠ 3#2 →
    exec (.setpixel x y colour) s = .next { s with responses := s.responses ++ [.fault .noBuffer] } ∧
    exec (.drawbitmap x y w h data invert) s = .next { s with responses := s.responses ++ [.fault .noBuffer] } ∧
    exec .clearbuf s = .next { s with responses := s.responses ++ [.fault .noBuffer] } ∧
    exec .update s = .next { s with responses := s.responses ++ [.fault .noBuffer] }) ∧
  ∀ (i : Instr) (s t : State), i.op ≠ .setpixel → i.op ≠ .drawbitmap → i.op ≠ .clearbuf → i.op ≠ .update →
    exec i s = .next t → (∃ v, t.responses = s.responses ++ [.done v]) ∨ (t.responses = s.responses ∧ t.blocked = true)

/-- R84, R193, R194, R197: every well-formed operation that ends adds exactly one response: a `Done`, or the fault NoBuffer, which
only the four operations of R192 take, only without a handle, and which leaves no other mark. An operation that a transport never
answers adds none and leaves FBSEQ waiting; every other one leaves the wait as it was. -/
def Obligations.OneResponseAndFaultsAreClean : Prop :=
  ∀ (i : Instr) (s t : State), i.wf = true → exec i s = .next t →
    ((∃ v, t.responses = s.responses ++ [.done v]) ∧ t.blocked = s.blocked) ∨
    (t = { s with responses := s.responses ++ [.fault .noBuffer] } ∧ s.bufValid = false ∧
      (i.op = .setpixel ∨ i.op = .drawbitmap ∨ i.op = .clearbuf ∨ i.op = .update)) ∨
    (t.responses = s.responses ∧ t.blocked = true ∧ s.answersLeft.isSome = true)

/-- R53, U9, log entry 7: an address above `2^32 - 1` is the only stop of the model: where an operation is refused, an address on
its access list (R49) is above `2^32 - 1`; and no operation stops with a fault, since Fault is empty (log entry 2). -/
def Obligations.OnlyAddressesPastSpaceStop : Prop :=
  ∀ (i : Instr) (s : State),
    (∀ r, exec i s = .refused r → r = .addressPastSpace ∧ (∃ a, 2 ^ 32 ≤ a ∧ s.accesses a i) ∧
      (i.op = .setpixel ∨ i.op = .drawbitmap ∨ i.op = .clearbuf ∨ i.op = .xfer ∨ i.op = .update)) ∧
    ∀ f, exec i s ≠ .fault f

/-- U9, log entry 7: where exactly SETPIXEL, DRAWBITMAP, CLEARBUF, XFER and UPDATE are refused: an address they would access is
above `2^32 - 1`. -/
def Obligations.RefusedExactlyPastSpace : Prop :=
  ∀ (s : State),
    (∀ (x y : Half) (colour : BitVec 2) (k b : Nat), s.bufValid = true → colour ≠ 3#2 →
      rotcalc s.rot s.bufW.toNat s.bufH.toNat x.toInt y.toInt = some (k, b) →
      (exec (.setpixel x y colour) s = .refused .addressPastSpace ↔ 2 ^ 32 ≤ s.bufBase.toNat + k)) ∧
    (∀ (x y w h : Half) (data : Addr) (invert : Bool), s.bufValid = true →
      checkBlit (logicalDims s.rot s.bufW.toNat s.bufH.toNat) x.toInt y.toInt w h data = .success →
      (exec (.drawbitmap x y w h data invert) s = .refused .addressPastSpace ↔
        ∃ j i : Nat, j < h.toNat ∧ i < w.toNat ∧
          (2 ^ 32 ≤ data.toNat + j * (w.toNat / 8) + i / 8 ∨
            ∃ k b : Nat, rotcalc s.rot s.bufW.toNat s.bufH.toNat (x.toInt + (i : Int)) (y.toInt + (j : Int)) = some (k, b) ∧
              2 ^ 32 ≤ s.bufBase.toNat + k))) ∧
    (s.bufValid = true →
      (exec .clearbuf s = .refused .addressPastSpace ↔
        0 < s.bufW.toNat * (s.bufH.toNat / 8) ∧ 2 ^ 32 < s.bufBase.toNat + s.bufW.toNat * (s.bufH.toNat / 8))) ∧
    (∀ (x y w h : Half) (src : Addr),
      exec (.xfer x y w h src) s = .refused .addressPastSpace ↔
        ∃ o ∈ xferOffsets s.cfg x.toInt y.toInt w.toNat h.toNat, 2 ^ 32 ≤ src.toNat + o) ∧
    (s.bufValid = true →
      (exec .update s = .refused .addressPastSpace ↔
        ∃ o ∈ xferOffsets s.cfg 0 0 s.bufW.toNat s.bufH.toNat, 2 ^ 32 ≤ s.bufBase.toNat + o))

/-- R84: the response as a 64-bit word: bit 63 is 1 for a fault and 0 for done, bits 31:0 hold the value or the cause, all other
bits are 0; the cause codes are 1 and 2. -/
def Obligations.ResponseWord : Prop :=
  (∀ v : BitVec 32, (Response.done v).word.extractLsb' 0 32 = v ∧ (Response.done v).word.extractLsb' 32 32 = 0) ∧
  (Response.fault .illegalOperation).word = 0x8000000000000001 ∧ (Response.fault .noBuffer).word = 0x8000000000000002

/-! ## Whole-machine rules -/

/-- R24: no step writes the configuration, and reset does not change it. -/
def Obligations.ConfigurationNeverWritten : Prop :=
  (∀ s t : State, step s = .next t → t.cfg = s.cfg) ∧
  ∀ (p : Parameters) (s : State), State.construct p = some s → constructConfig p = some s.cfg

/-- R25, R26: `ROT` is written only by SETROT, and the buffer handle only by SETBUF, which leaves it valid when it changes it. -/
def Obligations.RegistersHaveOneWriter : Prop :=
  ∀ (i : Instr) (s t : State), exec i s = .next t →
    (t.rot ≠ s.rot → i.op = .setrot) ∧
    ((t.bufValid, t.bufBase, t.bufW, t.bufH) ≠ (s.bufValid, s.bufBase, s.bufW, s.bufH) →
      i.op = .setbuf ∧ t.bufValid = true)

/-- R40 (b), R49: SETBUF, SETROT, SETPIXEL, DRAWBITMAP and CLEARBUF put nothing on the bus; every operation but SETPIXEL,
DRAWBITMAP and CLEARBUF leaves memory as it is; no operation touches the host's coming moves. -/
def Obligations.OperationFootprints : Prop :=
  ∀ (i : Instr) (s t : State), exec i s = .next t →
    (i.op = .setbuf ∨ i.op = .setrot ∨ i.op = .setpixel ∨ i.op = .drawbitmap ∨ i.op = .clearbuf → t.trace = s.trace) ∧
    (i.op ≠ .setpixel → i.op ≠ .drawbitmap → i.op ≠ .clearbuf → t.mem = s.mem) ∧
    t.host = s.host

/-- R53: no operation changes a byte outside the framebuffer of the handle: "the driver must reject mismatched buffers rather
than write out of bounds". -/
def Obligations.WritesStayInFramebuffer : Prop :=
  ∀ (i : Instr) (s t : State), s.handleOk = true → exec i s = .next t →
    ∀ a : Nat, ¬ (s.bufValid = true ∧ s.inBuffer a) → t.mem.read a = s.mem.read a

/-- R26, U15: while `BUF_VALID = 0` the other three registers of the handle hold no meaning and no rule reads them: two runs of
an operation that differ only in them show the same to the outside, and agree on the handle as soon as it is valid. -/
def Obligations.DeadHandleIsUnread : Prop :=
  ∀ (i : Instr) (s : State) (base : Addr) (w h : Half), s.bufValid = false →
    outcomesAgree (exec i s) (exec i { s with bufBase := base, bufW := w, bufH := h })

/-- R55 (c), R85, R86, R92: a step only appends to the bus trace, and what it appends are frames of two bytes to `BUS_ADDR` with
one of the two control bytes, or CHECKCONN's read of one byte there. -/
def Obligations.StepAppendsLegalBusEvents : Prop :=
  ∀ s t : State, step s = .next t → ∃ es : List BusEvent, t.trace = s.trace ++ es ∧
    ∀ e ∈ es,
      (∃ control payload, e = .write s.cfg.busAddr [control, payload] ∧
        (control = s.cfg.ctrlCmd ∨ control = s.cfg.ctrlData)) ∨
      e = .read s.cfg.busAddr 1

/-- Every step keeps the well-formedness of the state: the configuration's (R9), the canonical form of memory with every
listed address inside the 32-bit space (R40), the handle's invariants (R26), and the wait only for a transport that answers
nothing more (R197). -/
def Obligations.StepKeepsStateWf : Prop :=
  ∀ s t : State, s.wf = true → step s = .next t → t.wf = true

/-- The state after reset is well-formed, and so is every instance that construction answers. -/
def Obligations.ResetStateWf : Prop :=
  State.reset.wf = true ∧ ∀ (p : Parameters) (s : State), State.construct p = some s → s.wf = true

/-- Along every run, of any length and whatever the host does, from a well-formed state whose trace is legal: the state stays
well-formed, the trace stays legal, and what was sent before stays at its front (R26, R55 (c), R92). -/
def Obligations.RunKeepsStateWfAndTrace : Prop :=
  ∀ (n : Nat) (s t : State), s.wf = true → s.traceLegal = true → Sys2Proof.core.run n s = .next t →
    t.wf = true ∧ t.traceLegal = true ∧ ∃ es, t.trace = s.trace ++ es

/-! ## The far side (20_memory.md R63, R64; informative) -/

/-- R63, log entry 15: with the default command bytes, and a panel of at most 128 columns, an UPDATE of a buffer of the panel's
dimensions leaves every framebuffer byte in display RAM, byte `k` at page `k / WIDTH`, column `k mod WIDTH`, and so the
framebuffer pixel `(x', y')` is shown at panel column `x'`, row `y'`; whatever the controller held before, and whether or not it
honours the page commands. That the sink needs no INIT for this is the model's choice (U13). -/
def Obligations.UpdateShowsFramebuffer : Prop :=
  ∀ (s t : State) (honoured : Bool) (sink : Sink),
    s.cfg.wf = true → s.cfg.cmd = defaultCommands → s.cfg.width ≤ 128 →
    s.bufValid = true → s.bufW.toNat = s.cfg.width → s.bufH.toNat = s.cfg.height.pixels →
    s.willAnswer (6 + s.cfg.width * s.cfg.pages) = true →
    sink.pending = none → exec .update s = .next t →
    (∀ k : Nat, k < s.cfg.width * s.cfg.pages →
      (sinkRun s.cfg honoured sink (t.trace.drop s.trace.length)).cell (k / s.cfg.width) (k % s.cfg.width) =
        s.mem.read (s.bufBase.toNat + k)) ∧
    ∀ x y : Nat, x < s.cfg.width → y < s.cfg.height.pixels →
      (sinkRun s.cfg honoured sink (t.trace.drop s.trace.length)).pixel x y =
        (s.mem.read (s.bufBase.toNat + (s.bufW.toNat * (y / 8) + x))).getLsbD (y % 8)

/-- R64, log entry 15: an XFER's bytes do not land where its `x`, `y` say: the `n`-th byte it sends fills the `n`-th position of
display RAM in page-major order, whatever the rectangle. -/
def Obligations.XferFillsDisplayFromOrigin : Prop :=
  ∀ (s t : State) (honoured : Bool) (sink : Sink) (x y w h : Half) (src : Addr),
    s.cfg.wf = true → s.cfg.cmd = defaultCommands → s.cfg.width ≤ 128 →
    s.willAnswer (6 + (xferOffsets s.cfg x.toInt y.toInt w.toNat h.toNat).length) = true →
    sink.pending = none → exec (.xfer x y w h src) s = .next t →
    ∀ n o : Nat, (xferOffsets s.cfg x.toInt y.toInt w.toNat h.toNat)[n]? = some o →
      (sinkRun s.cfg honoured sink (t.trace.drop s.trace.length)).cell (n / s.cfg.width) (n % s.cfg.width) =
        s.mem.read (src.toNat + o)

/-! ## DRAWBITMAP whole, and the transport (43_blit.md R161, 60_exceptions.md R197) -/

/-- R161, R162: what a blit leaves, exactly, whether or not the bitmap overlaps the framebuffer: row by row and byte by byte, each
bitmap byte is read from memory as the pixels before it have left it, and its eight pixels are then drawn, bit 7 first, each by
SETPIXEL's steps, the colours swapped by `invert`; nothing but memory changes. -/
def Obligations.DrawbitmapDrawsByteByByte : Prop :=
  ∀ (s : State) (x y w h : Half) (data : Addr) (invert : Bool),
    s.bufValid = true → s.bufH.toNat % 8 = 0 →
    checkBlit (logicalDims s.rot s.bufW.toNat s.bufH.toNat) x.toInt y.toInt w h data = .success →
    s.bufBase.toNat + s.bufW.toNat * (s.bufH.toNat / 8) ≤ 2 ^ 32 → data.toNat + h.toNat * (w.toNat / 8) ≤ 2 ^ 32 →
    exec (.drawbitmap x y w h data invert) s = .next { s with
      mem := drawBytes s x.toInt y.toInt w.toNat h.toNat data.toNat invert
      responses := s.responses ++ [.done 0#32] }

/-- R197, U10, R12: the trace of an operation is the same whatever the transport answers, and a transport that never answers
blocks FBSEQ for good. Take what an operation does where every call is answered, `es` being its bus calls: with `k` answers left
and no more than `k` calls it does just that; with more, the events up to the first unanswered call are on the trace, no response
is given, and nothing else has changed; and from then on no number of steps changes anything. -/
def Obligations.SilentTransportBlocksForGood : Prop :=
  (∀ (i : Instr) (s u : State) (k : Nat) (es : List BusEvent), s.answersLeft = some k →
    exec i { s with answersLeft := none } = .next u → u.trace = s.trace ++ es →
    exec i s = .next (if es.length ≤ k then { u with answersLeft := some (k - es.length) }
      else { s with trace := s.trace ++ es.take (k + 1), answersLeft := some 0, blocked := true })) ∧
  ∀ (n : Nat) (s : State), s.blocked = true → Sys2Proof.core.run n s = .next s
end

