-- ==== Sys2Proof/Laws/State.lean ====
section
/-! SUPPORT. One lemma per field per update of State, so that no later proof unfolds a record update. -/

namespace Sys2Proof.Machine

/-! ### emit -/

@[simp] theorem State.emit_cfg (es : List BusEvent) (s : State) : (s.emit es).cfg = s.cfg := rfl
@[simp] theorem State.emit_rot (es : List BusEvent) (s : State) : (s.emit es).rot = s.rot := rfl
@[simp] theorem State.emit_bufValid (es : List BusEvent) (s : State) : (s.emit es).bufValid = s.bufValid := rfl
@[simp] theorem State.emit_bufBase (es : List BusEvent) (s : State) : (s.emit es).bufBase = s.bufBase := rfl
@[simp] theorem State.emit_bufW (es : List BusEvent) (s : State) : (s.emit es).bufW = s.bufW := rfl
@[simp] theorem State.emit_bufH (es : List BusEvent) (s : State) : (s.emit es).bufH = s.bufH := rfl
@[simp] theorem State.emit_mem (es : List BusEvent) (s : State) : (s.emit es).mem = s.mem := rfl
@[simp] theorem State.emit_trace (es : List BusEvent) (s : State) : (s.emit es).trace = s.trace ++ es := rfl
@[simp] theorem State.emit_responses (es : List BusEvent) (s : State) : (s.emit es).responses = s.responses := rfl
@[simp] theorem State.emit_host (es : List BusEvent) (s : State) : (s.emit es).host = s.host := rfl
@[simp] theorem State.emit_answersLeft (es : List BusEvent) (s : State) : (s.emit es).answersLeft = s.answersLeft.map (· - es.length) := rfl
@[simp] theorem State.emit_blocked (es : List BusEvent) (s : State) : (s.emit es).blocked = s.blocked := rfl
@[simp] theorem State.emit_draws (es : List BusEvent) (s : State) : (s.emit es).draws = s.draws := rfl

/-! ### block -/

@[simp] theorem State.block_cfg (es : List BusEvent) (s : State) : (s.block es).cfg = s.cfg := rfl
@[simp] theorem State.block_rot (es : List BusEvent) (s : State) : (s.block es).rot = s.rot := rfl
@[simp] theorem State.block_bufValid (es : List BusEvent) (s : State) : (s.block es).bufValid = s.bufValid := rfl
@[simp] theorem State.block_bufBase (es : List BusEvent) (s : State) : (s.block es).bufBase = s.bufBase := rfl
@[simp] theorem State.block_bufW (es : List BusEvent) (s : State) : (s.block es).bufW = s.bufW := rfl
@[simp] theorem State.block_bufH (es : List BusEvent) (s : State) : (s.block es).bufH = s.bufH := rfl
@[simp] theorem State.block_mem (es : List BusEvent) (s : State) : (s.block es).mem = s.mem := rfl
@[simp] theorem State.block_trace (es : List BusEvent) (s : State) : (s.block es).trace = s.trace ++ es.take (s.answersLeft.getD 0 + 1) := rfl
@[simp] theorem State.block_responses (es : List BusEvent) (s : State) : (s.block es).responses = s.responses := rfl
@[simp] theorem State.block_host (es : List BusEvent) (s : State) : (s.block es).host = s.host := rfl
@[simp] theorem State.block_answersLeft (es : List BusEvent) (s : State) : (s.block es).answersLeft = some 0 := rfl
@[simp] theorem State.block_blocked (es : List BusEvent) (s : State) : (s.block es).blocked = true := rfl
@[simp] theorem State.block_draws (es : List BusEvent) (s : State) : (s.block es).draws = s.draws := rfl

/-! ### respond -/

@[simp] theorem State.respond_cfg (v : BitVec 32) (s : State) : (s.respond v).cfg = s.cfg := rfl
@[simp] theorem State.respond_rot (v : BitVec 32) (s : State) : (s.respond v).rot = s.rot := rfl
@[simp] theorem State.respond_bufValid (v : BitVec 32) (s : State) : (s.respond v).bufValid = s.bufValid := rfl
@[simp] theorem State.respond_bufBase (v : BitVec 32) (s : State) : (s.respond v).bufBase = s.bufBase := rfl
@[simp] theorem State.respond_bufW (v : BitVec 32) (s : State) : (s.respond v).bufW = s.bufW := rfl
@[simp] theorem State.respond_bufH (v : BitVec 32) (s : State) : (s.respond v).bufH = s.bufH := rfl
@[simp] theorem State.respond_mem (v : BitVec 32) (s : State) : (s.respond v).mem = s.mem := rfl
@[simp] theorem State.respond_trace (v : BitVec 32) (s : State) : (s.respond v).trace = s.trace := rfl
@[simp] theorem State.respond_responses (v : BitVec 32) (s : State) : (s.respond v).responses = s.responses ++ [.done v] := rfl
@[simp] theorem State.respond_host (v : BitVec 32) (s : State) : (s.respond v).host = s.host := rfl
@[simp] theorem State.respond_answersLeft (v : BitVec 32) (s : State) : (s.respond v).answersLeft = s.answersLeft := rfl
@[simp] theorem State.respond_blocked (v : BitVec 32) (s : State) : (s.respond v).blocked = s.blocked := rfl
@[simp] theorem State.respond_draws (v : BitVec 32) (s : State) : (s.respond v).draws = s.draws := rfl

/-! ### raise -/

@[simp] theorem State.raise_cfg (c : Cause) (s : State) : (s.raise c).cfg = s.cfg := rfl
@[simp] theorem State.raise_rot (c : Cause) (s : State) : (s.raise c).rot = s.rot := rfl
@[simp] theorem State.raise_bufValid (c : Cause) (s : State) : (s.raise c).bufValid = s.bufValid := rfl
@[simp] theorem State.raise_bufBase (c : Cause) (s : State) : (s.raise c).bufBase = s.bufBase := rfl
@[simp] theorem State.raise_bufW (c : Cause) (s : State) : (s.raise c).bufW = s.bufW := rfl
@[simp] theorem State.raise_bufH (c : Cause) (s : State) : (s.raise c).bufH = s.bufH := rfl
@[simp] theorem State.raise_mem (c : Cause) (s : State) : (s.raise c).mem = s.mem := rfl
@[simp] theorem State.raise_trace (c : Cause) (s : State) : (s.raise c).trace = s.trace := rfl
@[simp] theorem State.raise_responses (c : Cause) (s : State) : (s.raise c).responses = s.responses ++ [.fault c] := rfl
@[simp] theorem State.raise_host (c : Cause) (s : State) : (s.raise c).host = s.host := rfl
@[simp] theorem State.raise_answersLeft (c : Cause) (s : State) : (s.raise c).answersLeft = s.answersLeft := rfl
@[simp] theorem State.raise_blocked (c : Cause) (s : State) : (s.raise c).blocked = s.blocked := rfl
@[simp] theorem State.raise_draws (c : Cause) (s : State) : (s.raise c).draws = s.draws := rfl

/-! ### setRot -/

@[simp] theorem State.setRot_cfg (r : BitVec 2) (s : State) : (s.setRot r).cfg = s.cfg := rfl
@[simp] theorem State.setRot_rot (r : BitVec 2) (s : State) : (s.setRot r).rot = r := rfl
@[simp] theorem State.setRot_bufValid (r : BitVec 2) (s : State) : (s.setRot r).bufValid = s.bufValid := rfl
@[simp] theorem State.setRot_bufBase (r : BitVec 2) (s : State) : (s.setRot r).bufBase = s.bufBase := rfl
@[simp] theorem State.setRot_bufW (r : BitVec 2) (s : State) : (s.setRot r).bufW = s.bufW := rfl
@[simp] theorem State.setRot_bufH (r : BitVec 2) (s : State) : (s.setRot r).bufH = s.bufH := rfl
@[simp] theorem State.setRot_mem (r : BitVec 2) (s : State) : (s.setRot r).mem = s.mem := rfl
@[simp] theorem State.setRot_trace (r : BitVec 2) (s : State) : (s.setRot r).trace = s.trace := rfl
@[simp] theorem State.setRot_responses (r : BitVec 2) (s : State) : (s.setRot r).responses = s.responses := rfl
@[simp] theorem State.setRot_host (r : BitVec 2) (s : State) : (s.setRot r).host = s.host := rfl
@[simp] theorem State.setRot_answersLeft (r : BitVec 2) (s : State) : (s.setRot r).answersLeft = s.answersLeft := rfl
@[simp] theorem State.setRot_blocked (r : BitVec 2) (s : State) : (s.setRot r).blocked = s.blocked := rfl
@[simp] theorem State.setRot_draws (r : BitVec 2) (s : State) : (s.setRot r).draws = s.draws := rfl

/-! ### storeHandle -/

@[simp] theorem State.storeHandle_cfg (b : Addr) (w h : Half) (s : State) : (s.storeHandle b w h).cfg = s.cfg := rfl
@[simp] theorem State.storeHandle_rot (b : Addr) (w h : Half) (s : State) : (s.storeHandle b w h).rot = s.rot := rfl
@[simp] theorem State.storeHandle_bufValid (b : Addr) (w h : Half) (s : State) : (s.storeHandle b w h).bufValid = true := rfl
@[simp] theorem State.storeHandle_bufBase (b : Addr) (w h : Half) (s : State) : (s.storeHandle b w h).bufBase = b := rfl
@[simp] theorem State.storeHandle_bufW (b : Addr) (w h : Half) (s : State) : (s.storeHandle b w h).bufW = w := rfl
@[simp] theorem State.storeHandle_bufH (b : Addr) (w h : Half) (s : State) : (s.storeHandle b w h).bufH = h := rfl
@[simp] theorem State.storeHandle_mem (b : Addr) (w h : Half) (s : State) : (s.storeHandle b w h).mem = s.mem := rfl
@[simp] theorem State.storeHandle_trace (b : Addr) (w h : Half) (s : State) : (s.storeHandle b w h).trace = s.trace := rfl
@[simp] theorem State.storeHandle_responses (b : Addr) (w h : Half) (s : State) : (s.storeHandle b w h).responses = s.responses := rfl
@[simp] theorem State.storeHandle_host (b : Addr) (w h : Half) (s : State) : (s.storeHandle b w h).host = s.host := rfl
@[simp] theorem State.storeHandle_answersLeft (b : Addr) (w h : Half) (s : State) : (s.storeHandle b w h).answersLeft = s.answersLeft := rfl
@[simp] theorem State.storeHandle_blocked (b : Addr) (w h : Half) (s : State) : (s.storeHandle b w h).blocked = s.blocked := rfl
@[simp] theorem State.storeHandle_draws (b : Addr) (w h : Half) (s : State) : (s.storeHandle b w h).draws = s.draws := rfl

/-! ### drawCount -/

@[simp] theorem drawCount_cfg (s : State) : (drawCount s).2.cfg = s.cfg := rfl
@[simp] theorem drawCount_rot (s : State) : (drawCount s).2.rot = s.rot := rfl
@[simp] theorem drawCount_bufValid (s : State) : (drawCount s).2.bufValid = s.bufValid := rfl
@[simp] theorem drawCount_bufBase (s : State) : (drawCount s).2.bufBase = s.bufBase := rfl
@[simp] theorem drawCount_bufW (s : State) : (drawCount s).2.bufW = s.bufW := rfl
@[simp] theorem drawCount_bufH (s : State) : (drawCount s).2.bufH = s.bufH := rfl
@[simp] theorem drawCount_mem (s : State) : (drawCount s).2.mem = s.mem := rfl
@[simp] theorem drawCount_trace (s : State) : (drawCount s).2.trace = s.trace := rfl
@[simp] theorem drawCount_responses (s : State) : (drawCount s).2.responses = s.responses := rfl
@[simp] theorem drawCount_host (s : State) : (drawCount s).2.host = s.host := rfl
@[simp] theorem drawCount_answersLeft (s : State) : (drawCount s).2.answersLeft = s.answersLeft := rfl
@[simp] theorem drawCount_blocked (s : State) : (drawCount s).2.blocked = s.blocked := rfl
@[simp] theorem drawCount_draws (s : State) : (drawCount s).2.draws = s.draws + 1 := rfl

@[simp] theorem drawCount_count (s : State) : (drawCount s).1 = Config.busReadCount s.draws := rfl

/-! ### willAnswer -/

theorem State.willAnswer_iff (n : Nat) (s : State) : s.willAnswer n = true ↔ ∀ k, s.answersLeft = some k → n ≤ k := by
  unfold State.willAnswer
  cases s.answersLeft <;> simp

theorem State.willAnswer_mono {m n : Nat} {s : State} (h : s.willAnswer n = true) (hm : m ≤ n) : s.willAnswer m = true := by
  rw [State.willAnswer_iff] at *
  exact fun k hk => le_trans hm (h k hk)

@[simp] theorem State.willAnswer_zero (s : State) : s.willAnswer 0 = true := by
  rw [State.willAnswer_iff]
  exact fun _ _ => Nat.zero_le _

/-- After `m` answered calls, `n` more are answered where `m + n` were to come. -/
theorem State.willAnswer_emit (es : List BusEvent) (n : Nat) (s : State) (h : s.willAnswer es.length = true) :
    (s.emit es).willAnswer n = s.willAnswer (es.length + n) := by
  unfold State.willAnswer at *
  cases hs : s.answersLeft with
  | none => simp [hs]
  | some k =>
    simp only [hs, decide_eq_true_eq, State.emit_answersLeft, Option.map_some, decide_eq_decide] at *
    omega

end Sys2Proof.Machine
end

