-- ==== Sys2Proof/Laws/Memory.lean ====
section
/-! SUPPORT. Memory: a read after a write, the canonical form, and what each access operation can do. -/

namespace Sys2Proof.Machine

/-! ### Reading after writing -/

@[simp] theorem Memory.erase_nil (a : Nat) : Memory.erase [] a = [] := rfl

theorem Memory.erase_cons (k : Nat) (v : Byte) (m : Memory) (a : Nat) :
    Memory.erase ((k, v) :: m) a = if k = a then Memory.erase m a else (k, v) :: Memory.erase m a := by
  by_cases h : k = a <;> simp [Memory.erase, h]

theorem Memory.read_erase (m : Memory) (a b : Nat) :
    (m.erase a).read b = if b = a then Memory.unlisted else m.read b := by
  induction m with
  | nil => simp [Memory.read]
  | cons cell m ih =>
    obtain ⟨k, v⟩ := cell
    rw [Memory.erase_cons]
    split <;> by_cases hb : b = k <;> simp_all [Memory.read]

theorem Memory.read_insert (m : Memory) (a b : Nat) (v : Byte) (hfree : ∀ c ∈ m, c.1 ≠ a) :
    (Memory.insert a v m).read b = if b = a then v else m.read b := by
  induction m with
  | nil => simp [Memory.insert, Memory.read]
  | cons cell m ih =>
    obtain ⟨k, u⟩ := cell
    have hk : k ≠ a := hfree (k, u) (by simp)
    have ih := ih fun c hc => hfree c (by simp [hc])
    unfold Memory.insert
    split
    · simp [Memory.read]
    · by_cases hb : b = k
      · subst hb
        simp [Memory.read, hk]
      · simp [Memory.read, hb, ih]

theorem Memory.erase_free (m : Memory) (a : Nat) : ∀ c ∈ m.erase a, c.1 ≠ a := by
  simp [Memory.erase]

/-- A byte read after a write: the one written at its address, the old one everywhere else. No premise on the list. -/
@[simp] theorem Memory.read_write (m : Memory) (a b : Nat) (v : Byte) :
    (m.write a v).read b = if b = a then v else m.read b := by
  unfold Memory.write
  split
  · next h => rw [Memory.read_erase, h]
  · rw [Memory.read_insert _ _ _ _ (Memory.erase_free m a), Memory.read_erase]
    split <;> simp_all

/-! ### The canonical form -/

theorem Memory.wfFrom_mono {lo hi : Nat} {m : Memory} (h : Memory.wfFrom hi m = true) (hle : lo ≤ hi) :
    Memory.wfFrom lo m = true := by
  cases m with
  | nil => rfl
  | cons c m =>
    simp only [Memory.wfFrom, Bool.and_eq_true, decide_eq_true_eq] at h ⊢
    exact ⟨⟨⟨by omega, h.1.1.2⟩, h.1.2⟩, h.2⟩

theorem Memory.wfFrom_erase (m : Memory) (a : Nat) (lo : Nat) (h : Memory.wfFrom lo m = true) :
    Memory.wfFrom lo (m.erase a) = true := by
  induction m generalizing lo with
  | nil => rfl
  | cons c m ih =>
    obtain ⟨k, v⟩ := c
    simp only [Memory.wfFrom, Bool.and_eq_true, decide_eq_true_eq] at h
    rw [Memory.erase_cons]
    split
    · exact ih lo (Memory.wfFrom_mono h.2 (by omega))
    · simp only [Memory.wfFrom, Bool.and_eq_true, decide_eq_true_eq]
      exact ⟨h.1, ih _ h.2⟩

theorem Memory.wfFrom_insert (m : Memory) (a : Nat) (v : Byte) (lo : Nat) (h : Memory.wfFrom lo m = true) (hlo : lo ≤ a)
    (ha : a < 2 ^ 32) (hv : v ≠ Memory.unlisted) (hfree : ∀ c ∈ m, c.1 ≠ a) :
    Memory.wfFrom lo (Memory.insert a v m) = true := by
  induction m generalizing lo with
  | nil => simp [Memory.insert, Memory.wfFrom, hlo, hv]; omega
  | cons c m ih =>
    obtain ⟨k, u⟩ := c
    have hk : k ≠ a := hfree (k, u) (by simp)
    simp only [Memory.wfFrom, Bool.and_eq_true, decide_eq_true_eq] at h
    unfold Memory.insert
    split
    · simp only [Memory.wfFrom, Bool.and_eq_true, decide_eq_true_eq, bne_iff_ne]
      exact ⟨⟨⟨hlo, ha⟩, hv⟩, ⟨⟨by omega, h.1.1.2⟩, by simpa using h.1.2⟩, h.2⟩
    · simp only [Memory.wfFrom, Bool.and_eq_true, decide_eq_true_eq]
      exact ⟨h.1, ih _ h.2 (by omega) fun c hc => hfree c (by simp [hc])⟩

/-- A write inside the 32-bit space keeps the canonical form. -/
theorem Memory.wf_write (m : Memory) (a : Nat) (v : Byte) (h : m.wf = true) (ha : a < 2 ^ 32) : (m.write a v).wf = true := by
  unfold Memory.write Memory.wf at *
  split
  · exact Memory.wfFrom_erase m a 0 h
  · next hv =>
    exact Memory.wfFrom_insert _ a v 0 (Memory.wfFrom_erase m a 0 h) (Nat.zero_le _) ha hv (Memory.erase_free m a)

theorem reset_memory_wf : State.reset.mem.wf = true := rfl

/-! ### The access operations -/

theorem memRead_eq_some {a : Nat} {s : State} {b : Byte} : memRead a s = some b ↔ a < 2 ^ 32 ∧ s.mem.read a = b := by
  simp [memRead, inSpace]

theorem memWrite_eq_some {a : Nat} {v : Byte} {s t : State} :
    memWrite a v s = some t ↔ a < 2 ^ 32 ∧ { s with mem := s.mem.write a v } = t := by
  simp [memWrite, inSpace]

/-- The bytes read in order, where every address is inside the space. -/
theorem memReads_eq_some {as : List Nat} {s : State} {bs : List Byte} :
    memReads as s = some bs ↔ (∀ a ∈ as, a < 2 ^ 32) ∧ as.map s.mem.read = bs := by
  induction as generalizing bs with
  | nil => simp [memReads]
  | cons a as ih =>
    unfold memReads
    constructor
    · intro h
      split at h
      · next b bs' hb hbs =>
        obtain ⟨ha, rfl⟩ := memRead_eq_some.1 hb
        obtain ⟨has, rfl⟩ := ih.1 hbs
        simp only [Option.some.injEq] at h
        simp only [List.mem_cons, forall_eq_or_imp, List.map_cons]
        exact ⟨⟨ha, has⟩, h⟩
      · simp at h
    · rintro ⟨h, rfl⟩
      have h1 : memRead a s = some (s.mem.read a) := memRead_eq_some.2 ⟨h a (by simp), rfl⟩
      have h2 : memReads as s = some (as.map s.mem.read) := ih.2 ⟨fun b hb => h b (by simp [hb]), rfl⟩
      simp [h1, h2]

theorem memReads_eq_none {as : List Nat} {s : State} : memReads as s = none ↔ ∃ a ∈ as, 2 ^ 32 ≤ a := by
  constructor
  · intro h
    by_contra hc
    push Not at hc
    rw [memReads_eq_some.2 ⟨hc, rfl⟩] at h
    cases h
  · rintro ⟨a, ha, hle⟩
    cases h : memReads as s with
    | none => rfl
    | some bs => exact absurd ((memReads_eq_some.1 h).1 a ha) (by omega)

/-- What a fill can do: it writes its byte to its addresses, all inside the space, and nothing else. -/
theorem memFill_spec {v : Byte} {n a : Nat} {s t : State} (h : memFill v n a s = some t) :
    ∃ m : Memory, t = { s with mem := m } ∧ (s.mem.wf = true → m.wf = true) ∧
      (∀ b, m.read b = if a ≤ b ∧ b < a + n then v else s.mem.read b) ∧ (0 < n → a + n ≤ 2 ^ 32) := by
  induction n generalizing a s with
  | zero =>
    simp only [memFill, Option.some.injEq] at h
    exact ⟨s.mem, by rw [← h], id, fun b => by rw [if_neg (by omega)], by omega⟩
  | succ n ih =>
    unfold memFill at h
    split at h
    · cases h
    · next u hu =>
      obtain ⟨ha, rfl⟩ := memWrite_eq_some.1 hu
      obtain ⟨m, rfl, hwf, hread, hspace⟩ := ih h
      refine ⟨m, rfl, fun hw => hwf (Memory.wf_write _ _ _ hw ha), fun b => ?_, ?_⟩
      · rw [hread, Memory.read_write]
        by_cases h1 : a + 1 ≤ b ∧ b < a + 1 + n
        · rw [if_pos h1, if_pos (by omega)]
        · by_cases h2 : b = a
          · rw [if_neg h1, if_pos h2, if_pos (by omega)]
          · rw [if_neg h1, if_neg h2, if_neg (by omega)]
      · intro _
        rcases Nat.eq_zero_or_pos n with rfl | hn
        · omega
        · have := hspace hn
          omega

/-- A fill inside the space is done. -/
theorem memFill_isSome {v : Byte} {n a : Nat} (h : a + n ≤ 2 ^ 32) (s : State) : ∃ t, memFill v n a s = some t := by
  induction n generalizing a s with
  | zero => exact ⟨s, rfl⟩
  | succ n ih =>
    obtain ⟨t, ht⟩ := ih (a := a + 1) (by omega) { s with mem := s.mem.write a v }
    refine ⟨t, ?_⟩
    unfold memFill
    rw [memWrite_eq_some.2 ⟨by omega, rfl⟩]
    exact ht

end Sys2Proof.Machine
end

