-- ==== Sys2Proof/Laws/Ops.lean ====
section
/-! SUPPORT. What each shared operation on responses and on the request port can answer. -/

namespace Sys2Proof.Machine

theorem ret_eq (v : BitVec 32) (s : State) : ret v s = .next (s.respond v) := rfl

theorem fail_eq (c : Cause) (s : State) : fail c s = .next (s.raise c) := rfl

@[simp] theorem finish_some (s : State) : finish (some s) = .next (s.respond 0#32) := rfl

@[simp] theorem finish_none : finish none = .refused .addressPastSpace := rfl

/-- An operation that ends in `finish` answers a next state exactly when its accesses were made. -/
theorem finish_eq_next {o : Option State} {t : State} : finish o = .next t ↔ ∃ u, o = some u ∧ u.respond 0#32 = t := by
  cases o <;> simp

/-- It is refused exactly when one of them was past the space. -/
theorem finish_eq_refused {o : Option State} {r : Refusal} : finish o = .refused r ↔ o = none ∧ .addressPastSpace = r := by
  cases o <;> simp

theorem finish_ne_fault (o : Option State) (f : Fault) : finish o ≠ .fault f := f.casesOn

@[simp] theorem withBuffer_valid {s : State} (k : Result) (h : s.bufValid = true) : withBuffer s k = k := by
  simp [withBuffer, h]

@[simp] theorem withBuffer_invalid {s : State} (k : Result) (h : s.bufValid = false) :
    withBuffer s k = .next (s.raise .noBuffer) := by
  simp [withBuffer, h, fail_eq]

/-! ### Bus calls -/

theorem busCalls_answered {es : List BusEvent} {s : State} (k : State → Result) (h : s.willAnswer es.length = true) :
    busCalls es k s = k (s.emit es) := by
  simp [busCalls, h]

theorem busCalls_unanswered {es : List BusEvent} {s : State} (k : State → Result) (h : s.willAnswer es.length = false) :
    busCalls es k s = .next (s.block es) := by
  simp [busCalls, h]

/-- Bus calls may be made one after another: FBSEQ blocks in the first that is not answered. -/
theorem busCalls_append (es fs : List BusEvent) (k : State → Result) (s : State) :
    busCalls (es ++ fs) k s = busCalls es (busCalls fs k) s := by
  rcases hs : s.answersLeft with _ | n
  · have hw : ∀ m, s.willAnswer m = true := fun m => by simp [State.willAnswer, hs]
    rw [busCalls_answered _ (hw _), busCalls_answered _ (hw _), busCalls_answered]
    · simp [State.emit, List.append_assoc, hs]
    · rw [State.willAnswer_emit _ _ _ (hw _)]
      exact hw _
  · by_cases he : s.willAnswer es.length = true
    · have hle : es.length ≤ n := (State.willAnswer_iff _ _).1 he n hs
      rw [busCalls_answered _ he]
      by_cases hf : s.willAnswer (es ++ fs).length = true
      · rw [busCalls_answered _ hf, busCalls_answered]
        · simp [State.emit, List.append_assoc, hs, Nat.sub_sub]
        · rw [State.willAnswer_emit _ _ _ he, ← List.length_append]
          exact hf
      · rw [Bool.not_eq_true] at hf
        rw [busCalls_unanswered _ hf, busCalls_unanswered]
        · simp only [State.block, State.emit, hs, Option.getD_some, Option.map_some, List.append_assoc, List.take_append]
          rw [List.take_of_length_le (by omega : es.length ≤ n + 1), show n + 1 - es.length = n - es.length + 1 by omega]
        · rw [State.willAnswer_emit _ _ _ he, ← List.length_append]
          exact hf
    · rw [Bool.not_eq_true] at he
      have hlt : ¬ es.length ≤ n := fun hle =>
        absurd ((State.willAnswer_iff _ _).2 fun k hk => Option.some.inj (hs.symm.trans hk) ▸ hle) (by simp [he])
      rw [busCalls_unanswered _ he, busCalls_unanswered]
      · simp only [State.block, hs, Option.getD_some, List.take_append]
        rw [show n + 1 - es.length = 0 by omega]
        simp
      · rw [← Bool.not_eq_true, State.willAnswer_iff]
        intro h
        have := h n hs
        simp at this
        omega

/-- What sending frames can do: end with `Done(0)`, every frame answered, or wait for good. -/
theorem sendFrames_cases {es : List BusEvent} {s t : State} (h : sendFrames es s = .next t) :
    (s.willAnswer es.length = true ∧ t = (s.emit es).respond 0#32) ∨ (s.willAnswer es.length = false ∧ t = s.block es) := by
  cases hw : s.willAnswer es.length with
  | true =>
    rw [sendFrames, busCalls_answered _ hw, ret_eq, Host.Outcome.next.injEq] at h
    exact .inl ⟨rfl, h.symm⟩
  | false =>
    rw [sendFrames, busCalls_unanswered _ hw, Host.Outcome.next.injEq] at h
    exact .inr ⟨rfl, h.symm⟩

theorem sendFrames_answered {es : List BusEvent} {s : State} (h : s.willAnswer es.length = true) :
    sendFrames es s = .next ((s.emit es).respond 0#32) := busCalls_answered _ h

theorem sendCmds_answered {bs : List Byte} {s : State} (h : s.willAnswer bs.length = true) :
    sendCmds bs s = .next ((s.emit (bs.map (cmdFrame s.cfg))).respond 0#32) :=
  sendFrames_answered (by rw [List.length_map]; exact h)

/-- Sending frames always answers a next state. -/
theorem sendFrames_next (es : List BusEvent) (s : State) : ∃ t, sendFrames es s = .next t := by
  cases hw : s.willAnswer es.length with
  | true => exact ⟨_, sendFrames_answered hw⟩
  | false => exact ⟨_, busCalls_unanswered _ hw⟩

/-! ### The request port -/

theorem takeRequest_waiting {s : State} (h : s.blocked = true) : takeRequest s = .waiting := by simp [takeRequest, h]

theorem takeRequest_idle {s : State} (hb : s.blocked = false) (h : s.host = []) : takeRequest s = .idle := by
  simp [takeRequest, hb, h]

theorem takeRequest_store {s : State} {a : Addr} {v : Byte} {rest : List HostMove} (hb : s.blocked = false)
    (h : s.host = .store a v :: rest) : takeRequest s = .stored { s with mem := s.mem.write a.toNat v, host := rest } := by
  simp [takeRequest, hb, h]

theorem takeRequest_issue {s : State} {d : Descriptor} {rest : List HostMove} (hb : s.blocked = false)
    (h : s.host = .issue d :: rest) : takeRequest s = .operation d { s with host := rest } := by
  simp [takeRequest, hb, h]

end Sys2Proof.Machine
end

