-- ==== Sys2Proof/Laws/Pixel.lean ====
section
/-! SUPPORT. ROTCALC and the drawing of one pixel. -/

namespace Sys2Proof.Machine

theorem swapped_eq_true {r : BitVec 2} : swapped r = true ↔ r = 1#2 ∨ r = 3#2 := by simp [swapped]

/-- The four rotations. -/
theorem rot_cases (r : BitVec 2) : r = 0#2 ∨ r = 1#2 ∨ r = 2#2 ∨ r = 3#2 := by revert r; decide

theorem inRange_eq_true {dims : Nat × Nat} {x y : Int} :
    inRange dims x y = true ↔ 0 ≤ x ∧ x < dims.1 ∧ 0 ≤ y ∧ y < dims.2 := by
  simp [inRange, and_assoc]

/-- What ROTCALC answers: none out of range, else the byte and bit of the rotated pixel (R137). -/
theorem rotcalc_eq_some {r : BitVec 2} {W H : Nat} {x y : Int} {p : Nat × Nat} :
    rotcalc r W H x y = some p ↔
      inRange (logicalDims r W H) x y = true ∧ p = (byteIndex W (rotate r W H x y), bitIndex (rotate r W H x y)) := by
  unfold rotcalc
  split
  · next h => rw [Option.some.injEq, eq_comm, h, eq_self, true_and]
  · next h => simp [h]

theorem rotcalc_eq_none {r : BitVec 2} {W H : Nat} {x y : Int} :
    rotcalc r W H x y = none ↔ inRange (logicalDims r W H) x y = false := by
  unfold rotcalc
  split <;> simp_all

/-- For a pixel in range the transform stays inside the buffer (R131). -/
theorem rotate_bounds {r : BitVec 2} {W H : Nat} {x y : Int} (h : inRange (logicalDims r W H) x y = true) :
    0 ≤ (rotate r W H x y).1 ∧ (rotate r W H x y).1 < W ∧ 0 ≤ (rotate r W H x y).2 ∧ (rotate r W H x y).2 < H := by
  rw [inRange_eq_true] at h
  rcases rot_cases r with rfl | rfl | rfl | rfl <;> simp [rotate, logicalDims, swapped] at h ⊢ <;> omega

/-- The bit number is below 8. -/
theorem bitIndex_lt (p : Int × Int) : bitIndex p < 8 := Nat.mod_lt _ (by decide)

/-- The byte index of buffer coordinates inside a buffer whose height is a multiple of 8 (R53, R132). -/
theorem byteIndex_lt {W H : Nat} {p : Int × Int} (hH : H % 8 = 0) (h0 : 0 ≤ p.1) (h1 : p.1 < W) (h2 : 0 ≤ p.2) (h3 : p.2 < H) :
    byteIndex W p < W * (H / 8) := by
  unfold byteIndex
  have hq : p.2.toNat / 8 + 1 ≤ H / 8 := by omega
  have := Nat.mul_le_mul_left W hq
  rw [Nat.mul_add] at this
  omega

/-- ROTCALC's answer lies inside such a buffer (R132, R53). -/
theorem rotcalc_lt {r : BitVec 2} {W H : Nat} {x y : Int} {k b : Nat} (h : rotcalc r W H x y = some (k, b)) :
    b < 8 ∧ (H % 8 = 0 → k < W * (H / 8)) := by
  obtain ⟨hin, hkb⟩ := rotcalc_eq_some.1 h
  rw [Prod.mk.injEq] at hkb
  obtain ⟨rfl, rfl⟩ := hkb
  have hb := rotate_bounds hin
  exact ⟨bitIndex_lt _, fun hH => byteIndex_lt hH hb.1 hb.2.1 hb.2.2.1 hb.2.2.2⟩

/-- What drawing a pixel can do: nothing out of range, else one byte written inside the space (R134). -/
theorem drawPixel_eq_some {x y : Int} {c : Colour} {s t : State} :
    drawPixel x y c s = some t ↔
      (pixelPlace s x y = none ∧ t = s) ∨
      ∃ k b, pixelPlace s x y = some (k, b) ∧ s.bufBase.toNat + k < 2 ^ 32 ∧
        t = { s with
          mem := s.mem.write (s.bufBase.toNat + k) (applyColour c (bitMask b) (s.mem.read (s.bufBase.toNat + k))) } := by
  unfold drawPixel
  split
  · next h => simp [h, eq_comm]
  · next k b h =>
    simp only [h, reduceCtorEq, false_and, Option.some.injEq, Prod.mk.injEq, false_or]
    split
    · next hr =>
      constructor
      · intro h; cases h
      · rintro ⟨k', b', ⟨rfl, rfl⟩, hlt, -⟩
        rw [memRead, inSpace, decide_eq_true hlt] at hr
        cases hr
    · next old hr =>
      obtain ⟨hlt, rfl⟩ := memRead_eq_some.1 hr
      rw [memWrite_eq_some]
      constructor
      · rintro ⟨-, rfl⟩
        exact ⟨k, b, ⟨rfl, rfl⟩, hlt, rfl⟩
      · rintro ⟨k', b', ⟨rfl, rfl⟩, -, rfl⟩
        exact ⟨hlt, rfl⟩

/-- A pixel is not drawn only where its byte is past the space. -/
theorem drawPixel_eq_none {x y : Int} {c : Colour} {s : State} :
    drawPixel x y c s = none ↔ ∃ k b, pixelPlace s x y = some (k, b) ∧ 2 ^ 32 ≤ s.bufBase.toNat + k := by
  constructor
  · intro h
    rcases hp : pixelPlace s x y with _ | ⟨k, b⟩
    · simp [drawPixel, hp] at h
    · refine ⟨k, b, rfl, ?_⟩
      by_contra hlt
      rw [drawPixel_eq_some.2 (.inr ⟨k, b, hp, by omega, rfl⟩)] at h
      cases h
  · rintro ⟨k, b, hp, hge⟩
    unfold drawPixel
    simp only [hp]
    have : memRead (s.bufBase.toNat + k) s = none := by
      rw [memRead, inSpace, decide_eq_false (by omega)]
      rfl
    simp [this]

/-- Drawing a pixel changes memory alone, keeps its canonical form, and no byte outside the framebuffer (R53). -/
theorem drawPixel_frame {x y : Int} {c : Colour} {s t : State} (h : drawPixel x y c s = some t) :
    ∃ m : Memory, t = { s with mem := m } ∧ (s.mem.wf = true → m.wf = true) ∧
      (s.bufH.toNat % 8 = 0 → ∀ a, ¬ (s.bufBase.toNat ≤ a ∧ a < s.bufBase.toNat + s.bufW.toNat * (s.bufH.toNat / 8)) →
        m.read a = s.mem.read a) := by
  rcases drawPixel_eq_some.1 h with ⟨-, rfl⟩ | ⟨k, b, hp, hlt, rfl⟩
  · exact ⟨t.mem, rfl, id, fun _ _ _ => rfl⟩
  · refine ⟨_, rfl, fun hw => Memory.wf_write _ _ _ hw hlt, fun hH a ha => ?_⟩
    rw [Memory.read_write, if_neg]
    rintro rfl
    apply ha
    have hk := (rotcalc_lt hp).2 hH
    omega

/-! ### Colours on bits (R133) -/

theorem getLsbD_bitMask {b n : Nat} (hb : b < 8) : (bitMask b).getLsbD n = decide (n = b) := by
  unfold bitMask
  rw [BitVec.getLsbD_shiftLeft]
  by_cases hn : n = b
  · subst hn
    simp [hb]
  · by_cases hlt : n < b
    · simp [hlt, hn]
    · have : n - b ≠ 0 := by omega
      simp [hn, this]

/-- A colour sets, clears or flips the masked bit and leaves the other seven alone. -/
theorem getLsbD_applyColour (c : Colour) (old : Byte) {b : Nat} (hb : b < 8) (n : Nat) :
    (applyColour c (bitMask b) old).getLsbD n =
      if n = b then (match c with | .set => true | .clear => false | .invert => !old.getLsbD n) else old.getLsbD n := by
  cases c <;> simp only [applyColour, BitVec.getLsbD_or, BitVec.getLsbD_and, BitVec.getLsbD_xor, getLsbD_bitMask hb]
  · by_cases hn : n = b
    · subst hn
      have : (255#8).getLsbD n = true := by revert n; decide
      simp [this]
    · by_cases h8 : n < 8
      · have : ∀ n : Nat, n < 8 → (255#8).getLsbD n = true := by decide
        simp [hn, this n h8]
      · simp [hn, BitVec.getLsbD_of_ge old n (by omega)]
  · by_cases hn : n = b <;> simp [hn]
  · by_cases hn : n = b <;> simp [hn]

/-- INVERT is its own inverse (R135 (b)). -/
theorem applyColour_invert_invert (mask old : Byte) : applyColour .invert mask (applyColour .invert mask old) = old := by
  simp [applyColour]

end Sys2Proof.Machine
end

