-- ==== Sys2Proof/Laws/Blit.lean ====
section
/-! SUPPORT. What the pixel loop of DRAWBITMAP can do. -/

namespace Sys2Proof.Machine

/-- What drawing pixels one after another changes: memory alone, its canonical form kept, no byte outside the framebuffer. -/
def DrawsInBuffer (s t : State) : Prop :=
  ∃ m : Memory, t = { s with mem := m } ∧ (s.mem.wf = true → m.wf = true) ∧
    (s.bufH.toNat % 8 = 0 → ∀ a, ¬ (s.bufBase.toNat ≤ a ∧ a < s.bufBase.toNat + s.bufW.toNat * (s.bufH.toNat / 8)) →
      m.read a = s.mem.read a)

theorem DrawsInBuffer.refl (s : State) : DrawsInBuffer s s := ⟨s.mem, rfl, id, fun _ _ _ => rfl⟩

theorem DrawsInBuffer.trans {s t u : State} (h1 : DrawsInBuffer s t) (h2 : DrawsInBuffer t u) : DrawsInBuffer s u := by
  obtain ⟨m, rfl, hw, hr⟩ := h1
  obtain ⟨m', rfl, hw', hr'⟩ := h2
  exact ⟨m', rfl, fun h => hw' (hw h), fun hH a ha => (hr' hH a ha).trans (hr hH a ha)⟩

theorem drawPixel_inBuffer {x y : Int} {c : Colour} {s t : State} (h : drawPixel x y c s = some t) : DrawsInBuffer s t :=
  drawPixel_frame h

theorem blitColumns_inBuffer {b : Blit} {j n i : Nat} {cache : Byte} {s t : State}
    (h : blitColumns b j n i cache s = some t) : DrawsInBuffer s t := by
  induction n generalizing i cache s with
  | zero =>
    simp only [blitColumns, Option.some.injEq] at h
    exact h ▸ DrawsInBuffer.refl s
  | succ n ih =>
    unfold blitColumns at h
    split at h
    · cases h
    · split at h
      · cases h
      · next u hu => exact (drawPixel_inBuffer hu).trans (ih h)

theorem blitRows_inBuffer {b : Blit} {n j : Nat} {s t : State} (h : blitRows b n j s = some t) : DrawsInBuffer s t := by
  induction n generalizing j s with
  | zero =>
    simp only [blitRows, Option.some.injEq] at h
    exact h ▸ DrawsInBuffer.refl s
  | succ n ih =>
    unfold blitRows at h
    split at h
    · cases h
    · next u hu => exact (blitColumns_inBuffer hu).trans (ih h)

/-- A pixel is drawn where the framebuffer lies inside the space. -/
theorem drawPixel_isSome (x y : Int) (c : Colour) {s : State} (hH : s.bufH.toNat % 8 = 0)
    (hb : s.bufBase.toNat + s.bufW.toNat * (s.bufH.toNat / 8) ≤ 2 ^ 32) : ∃ t, drawPixel x y c s = some t := by
  cases hd : drawPixel x y c s with
  | some t => exact ⟨t, rfl⟩
  | none =>
    obtain ⟨k, b, hp, hge⟩ := drawPixel_eq_none.1 hd
    have := (rotcalc_lt hp).2 hH
    omega

theorem blitColumns_isSome (b : Blit) (j : Nat) {n i : Nat} {cache : Byte} {s : State} (hH : s.bufH.toNat % 8 = 0)
    (hb : s.bufBase.toNat + s.bufW.toNat * (s.bufH.toNat / 8) ≤ 2 ^ 32)
    (hd : ∀ k, i ≤ k → k < i + n → bitmapAddr b j k < 2 ^ 32) : ∃ t, blitColumns b j n i cache s = some t := by
  induction n generalizing i cache s with
  | zero => exact ⟨s, rfl⟩
  | succ n ih =>
    have hcache : ∃ c, nextCache b j i cache s = some c := by
      unfold nextCache
      split
      · exact ⟨_, memRead_eq_some.2 ⟨hd i (by omega) (by omega), rfl⟩⟩
      · exact ⟨_, rfl⟩
    obtain ⟨c, hc⟩ := hcache
    obtain ⟨u, hu⟩ := drawPixel_isSome (b.x + i) (b.y + j) (blitColour b c) hH hb
    obtain ⟨m, hm, -⟩ := drawPixel_inBuffer hu
    obtain ⟨t, ht⟩ := ih (i := i + 1) (cache := c) (s := u) (by rw [hm]; exact hH) (by rw [hm]; exact hb)
      fun k h1 h2 => hd k (by omega) (by omega)
    exact ⟨t, by unfold blitColumns; rw [hc]; simp only [hu]; exact ht⟩

/-- The pixel loop runs to its end where the framebuffer and the bitmap lie inside the space. -/
theorem blitRows_isSome (b : Blit) {n j : Nat} {s : State} (hH : s.bufH.toNat % 8 = 0)
    (hb : s.bufBase.toNat + s.bufW.toNat * (s.bufH.toNat / 8) ≤ 2 ^ 32)
    (hd : ∀ r k, j ≤ r → r < j + n → k < b.w → bitmapAddr b r k < 2 ^ 32) : ∃ t, blitRows b n j s = some t := by
  induction n generalizing j s with
  | zero => exact ⟨s, rfl⟩
  | succ n ih =>
    obtain ⟨u, hu⟩ := blitColumns_isSome b j (n := b.w) (i := 0) (cache := 0x00#8) hH hb
      fun k _ h2 => hd j k (by omega) (by omega) (by omega)
    obtain ⟨m, hm, -⟩ := blitColumns_inBuffer hu
    obtain ⟨t, ht⟩ := ih (j := j + 1) (s := u) (by rw [hm]; exact hH) (by rw [hm]; exact hb)
      fun r k h1 h2 h3 => hd r k (by omega) (by omega) h3
    exact ⟨t, by unfold blitRows; rw [hu]; exact ht⟩

/-- Pixel `(i, j)` of the bitmap takes the pixel loop past the space: by its bitmap byte, or by its byte of the framebuffer. -/
def PastSpace (b : Blit) (s : State) (j i : Nat) : Prop :=
  2 ^ 32 ≤ bitmapAddr b j i ∨ ∃ k n, pixelPlace s (b.x + i) (b.y + j) = some (k, n) ∧ 2 ^ 32 ≤ s.bufBase.toNat + k

theorem PastSpace.congr {b : Blit} {s t : State} {j i : Nat} (h : DrawsInBuffer s t) : PastSpace b t j i ↔ PastSpace b s j i := by
  obtain ⟨m, rfl, -⟩ := h
  rfl

theorem blitColumns_eq_none {b : Blit} {j n i : Nat} {cache : Byte} {s : State}
    (hc : i % 8 ≠ 0 → bitmapAddr b j i < 2 ^ 32) :
    blitColumns b j n i cache s = none ↔ ∃ c, i ≤ c ∧ c < i + n ∧ PastSpace b s j c := by
  induction n generalizing i cache s with
  | zero =>
    simp only [blitColumns, reduceCtorEq, false_iff]
    rintro ⟨c, h1, h2, -⟩
    omega
  | succ n ih =>
    unfold blitColumns
    cases hn : nextCache b j i cache s with
    | none =>
      simp only [true_iff]
      unfold nextCache at hn
      split at hn
      · exact ⟨i, le_refl _, by omega, .inl (by simpa [memRead, inSpace] using hn)⟩
      · cases hn
    | some cache' =>
      have hlt : bitmapAddr b j i < 2 ^ 32 := by
        by_cases h0 : i % 8 = 0
        · rw [nextCache, if_pos h0] at hn
          exact (memRead_eq_some.1 hn).1
        · exact hc h0
      have hsame : (i + 1) % 8 ≠ 0 → bitmapAddr b j (i + 1) < 2 ^ 32 := fun h => by
        rwa [bitmapAddr, show (i + 1) / 8 = i / 8 by omega]
      cases hd : drawPixel (b.x + i) (b.y + j) (blitColour b cache') s with
      | none =>
        simp only [hd, true_iff]
        exact ⟨i, le_refl _, by omega, .inr (drawPixel_eq_none.1 hd)⟩
      | some u =>
        simp only [hd]
        rw [ih hsame]
        refine ⟨fun ⟨c, h1, h2, h3⟩ => ⟨c, by omega, by omega, (PastSpace.congr (drawPixel_inBuffer hd)).1 h3⟩,
          fun ⟨c, h1, h2, h3⟩ => ⟨c, ?_, by omega, (PastSpace.congr (drawPixel_inBuffer hd)).2 h3⟩⟩
        by_contra hlast
        obtain rfl : c = i := by omega
        rcases h3 with h3 | h3
        · omega
        · rw [drawPixel_eq_none.2 h3] at hd
          cases hd

/-- The pixel loop is cut short exactly where one of its pixels takes it past the space. -/
theorem blitRows_eq_none {b : Blit} {n j : Nat} {s : State} :
    blitRows b n j s = none ↔ ∃ r c, j ≤ r ∧ r < j + n ∧ c < b.w ∧ PastSpace b s r c := by
  induction n generalizing j s with
  | zero =>
    simp only [blitRows, reduceCtorEq, false_iff]
    rintro ⟨r, c, h1, h2, -⟩
    omega
  | succ n ih =>
    unfold blitRows
    cases hn : blitColumns b j b.w 0 0x00#8 s with
    | none =>
      simp only [true_iff]
      obtain ⟨c, -, h2, h3⟩ := (blitColumns_eq_none (by simp)).1 hn
      exact ⟨j, c, le_refl _, by omega, by omega, h3⟩
    | some u =>
      simp only
      rw [ih]
      refine ⟨fun ⟨r, c, h1, h2, h3, h4⟩ => ⟨r, c, by omega, by omega, h3, (PastSpace.congr (blitColumns_inBuffer hn)).1 h4⟩,
        fun ⟨r, c, h1, h2, h3, h4⟩ => ⟨r, c, ?_, by omega, h3, (PastSpace.congr (blitColumns_inBuffer hn)).2 h4⟩⟩
      by_contra hlast
      obtain rfl : r = j := by omega
      rw [(blitColumns_eq_none (by simp)).2 ⟨c, by omega, by omega, h4⟩] at hn
      cases hn

end Sys2Proof.Machine
end

