-- ==== Sys2Proof/Laws/Control.lean ====
section
/-! SUPPORT. The scroll sequences: `ScrollSequence` holds every function of the start and stop pages (92_eei_decisions.md D22). -/

namespace Sys2Proof.Machine

/-- A listed pair of pages sends the bytes listed for it first. -/
theorem scrollBytes_special (c : Config) (q : ScrollSequence) (start stop : Byte) (bs : List Byte)
    (h : q.special.find? (fun e => e.1 == (start, stop)) = some ((start, stop), bs)) : scrollBytes c q start stop = bs := by
  simp [scrollBytes, h]

/-- With no pair listed the template is sent. -/
theorem scrollBytes_template (c : Config) (template : List ScrollItem) (start stop : Byte) :
    scrollBytes c ⟨template, []⟩ start stop = template.map (scrollByte c start stop) := rfl

/-- In a list that holds each of its pairs with the value of `f`, a pair is found with that value. -/
theorem find_pair (f : Byte → Byte → List Byte) (ps : List (Byte × Byte)) (p : Byte × Byte) (h : p ∈ ps) :
    (ps.map fun q => (q, f q.1 q.2)).find? (fun e => e.1 == p) = some (p, f p.1 p.2) := by
  induction ps with
  | nil => cases h
  | cons q ps ih =>
    rw [List.map_cons, List.find?_cons]
    by_cases hq : q = p
    · subst hq
      simp
    · have : ((q, f q.1 q.2).1 == p) = false := by simpa using hq
      rw [this]
      exact ih ((List.mem_cons.1 h).resolve_left (Ne.symm hq))

/-- Every function of the two pages is a scroll sequence. -/
theorem scrollBytes_complete (f : Byte → Byte → List Byte) :
    ∃ q : ScrollSequence, ∀ (c : Config) (start stop : Byte), scrollBytes c q start stop = f start stop := by
  refine ⟨⟨[], ((List.range 256).flatMap fun i => (List.range 256).map fun j =>
    (BitVec.ofNat 8 i, BitVec.ofNat 8 j)).map fun q => (q, f q.1 q.2)⟩, fun c start stop => ?_⟩
  refine scrollBytes_special c _ start stop _ (find_pair f _ (start, stop) ?_)
  refine List.mem_flatMap.2 ⟨start.toNat, List.mem_range.2 start.isLt, List.mem_map.2 ⟨stop.toNat, List.mem_range.2 stop.isLt, ?_⟩⟩
  simp

end Sys2Proof.Machine
end

