-- ==== Sys2Proof/Laws/Encoding.lean ====
section
/-! SUPPORT. The fields of a packed descriptor, and a descriptor as the pack of its fields. -/

namespace Sys2Proof

section
variable (op a b rsv : Byte) (x y w h : Half) (ptr : Addr)

@[simp] theorem fieldOp_pack : fieldOp (pack op a b rsv x y w h ptr) = op := by
  unfold fieldOp pack
  repeat rw [BitVec.extractLsb'_append_eq_of_add_le (by decide)]
  exact BitVec.extractLsb'_eq_self

@[simp] theorem fieldA_pack : fieldA (pack op a b rsv x y w h ptr) = a := by
  unfold fieldA pack
  repeat rw [BitVec.extractLsb'_append_eq_of_add_le (by decide)]
  rw [BitVec.extractLsb'_append_eq_of_le (by decide)]
  exact BitVec.extractLsb'_eq_self

@[simp] theorem fieldB_pack : fieldB (pack op a b rsv x y w h ptr) = b := by
  unfold fieldB pack
  repeat rw [BitVec.extractLsb'_append_eq_of_add_le (by decide)]
  rw [BitVec.extractLsb'_append_eq_of_le (by decide)]
  exact BitVec.extractLsb'_eq_self

@[simp] theorem fieldRsv_pack : fieldRsv (pack op a b rsv x y w h ptr) = rsv := by
  unfold fieldRsv pack
  repeat rw [BitVec.extractLsb'_append_eq_of_add_le (by decide)]
  rw [BitVec.extractLsb'_append_eq_of_le (by decide)]
  exact BitVec.extractLsb'_eq_self

@[simp] theorem fieldX_pack : fieldX (pack op a b rsv x y w h ptr) = x := by
  unfold fieldX pack
  repeat rw [BitVec.extractLsb'_append_eq_of_add_le (by decide)]
  rw [BitVec.extractLsb'_append_eq_of_le (by decide)]
  exact BitVec.extractLsb'_eq_self

@[simp] theorem fieldDelay_pack : fieldDelay (pack op a b rsv x y w h ptr) = x := by
  unfold fieldDelay pack
  repeat rw [BitVec.extractLsb'_append_eq_of_add_le (by decide)]
  rw [BitVec.extractLsb'_append_eq_of_le (by decide)]
  exact BitVec.extractLsb'_eq_self

@[simp] theorem fieldY_pack : fieldY (pack op a b rsv x y w h ptr) = y := by
  unfold fieldY pack
  repeat rw [BitVec.extractLsb'_append_eq_of_add_le (by decide)]
  rw [BitVec.extractLsb'_append_eq_of_le (by decide)]
  exact BitVec.extractLsb'_eq_self

@[simp] theorem fieldW_pack : fieldW (pack op a b rsv x y w h ptr) = w := by
  unfold fieldW pack
  repeat rw [BitVec.extractLsb'_append_eq_of_add_le (by decide)]
  rw [BitVec.extractLsb'_append_eq_of_le (by decide)]
  exact BitVec.extractLsb'_eq_self

@[simp] theorem fieldH_pack : fieldH (pack op a b rsv x y w h ptr) = h := by
  unfold fieldH pack
  repeat rw [BitVec.extractLsb'_append_eq_of_add_le (by decide)]
  rw [BitVec.extractLsb'_append_eq_of_le (by decide)]
  exact BitVec.extractLsb'_eq_self

@[simp] theorem fieldPtr_pack : fieldPtr (pack op a b rsv x y w h ptr) = ptr := by
  unfold fieldPtr pack
  rw [BitVec.extractLsb'_append_eq_of_le (by decide)]
  exact BitVec.extractLsb'_eq_self

end

/-- `SIZE` overlays `Y` and `X` (R71). -/
theorem fieldSize_eq (d : Descriptor) : fieldSize d = fieldY d ++ fieldX d :=
  (BitVec.extractLsb'_append_extractLsb'_eq_extractLsb' (start₂ := 48) (start₁ := 32) (len₁ := 16) (len₂ := 16) rfl).symm

/-- A descriptor is the pack of its fields. -/
theorem pack_fields (d : Descriptor) :
    pack (fieldOp d) (fieldA d) (fieldB d) (fieldRsv d) (fieldX d) (fieldY d) (fieldW d) (fieldH d) (fieldPtr d) = d := by
  unfold pack fieldOp fieldA fieldB fieldRsv fieldX fieldY fieldW fieldH fieldPtr
  rw [BitVec.extractLsb'_append_extractLsb'_eq_extractLsb' (start₂ := 8) (start₁ := 0) (len₁ := 8) (len₂ := 8) rfl,
    BitVec.extractLsb'_append_extractLsb'_eq_extractLsb' (start₂ := 16) (start₁ := 0) (len₁ := 16) (len₂ := 8) rfl,
    BitVec.extractLsb'_append_extractLsb'_eq_extractLsb' (start₂ := 24) (start₁ := 0) (len₁ := 24) (len₂ := 8) rfl,
    BitVec.extractLsb'_append_extractLsb'_eq_extractLsb' (start₂ := 32) (start₁ := 0) (len₁ := 32) (len₂ := 16) rfl,
    BitVec.extractLsb'_append_extractLsb'_eq_extractLsb' (start₂ := 48) (start₁ := 0) (len₁ := 48) (len₂ := 16) rfl,
    BitVec.extractLsb'_append_extractLsb'_eq_extractLsb' (start₂ := 64) (start₁ := 0) (len₁ := 64) (len₂ := 16) rfl,
    BitVec.extractLsb'_append_extractLsb'_eq_extractLsb' (start₂ := 80) (start₁ := 0) (len₁ := 80) (len₂ := 16) rfl,
    BitVec.extractLsb'_append_extractLsb'_eq_extractLsb' (start₂ := 96) (start₁ := 0) (len₁ := 96) (len₂ := 32) rfl]
  exact BitVec.extractLsb'_eq_self

/-- Two packs are equal exactly when their fields are. -/
theorem pack_inj {op a b rsv op' a' b' rsv' : Byte} {x y w h x' y' w' h' : Half} {ptr ptr' : Addr} :
    pack op a b rsv x y w h ptr = pack op' a' b' rsv' x' y' w' h' ptr' ↔
      op = op' ∧ a = a' ∧ b = b' ∧ rsv = rsv' ∧ x = x' ∧ y = y' ∧ w = w' ∧ h = h' ∧ ptr = ptr' := by
  constructor
  · intro e
    refine ⟨?_, ?_, ?_, ?_, ?_, ?_, ?_, ?_, ?_⟩
    · simpa using congrArg fieldOp e
    · simpa using congrArg fieldA e
    · simpa using congrArg fieldB e
    · simpa using congrArg fieldRsv e
    · simpa using congrArg fieldX e
    · simpa using congrArg fieldY e
    · simpa using congrArg fieldW e
    · simpa using congrArg fieldH e
    · simpa using congrArg fieldPtr e
  · rintro ⟨rfl, rfl, rfl, rfl, rfl, rfl, rfl, rfl, rfl⟩
    rfl

/-- A bitwise and works field by field. -/
theorem pack_and (op a b rsv op' a' b' rsv' : Byte) (x y w h x' y' w' h' : Half) (ptr ptr' : Addr) :
    pack op a b rsv x y w h ptr &&& pack op' a' b' rsv' x' y' w' h' ptr' =
      pack (op &&& op') (a &&& a') (b &&& b') (rsv &&& rsv') (x &&& x') (y &&& y') (w &&& w') (h &&& h') (ptr &&& ptr') := by
  unfold pack
  rw [BitVec.and_append, BitVec.and_append, BitVec.and_append, BitVec.and_append, BitVec.and_append, BitVec.and_append,
    BitVec.and_append, BitVec.and_append]

/-! ### The opcode map -/

theorem Op.mem_all (o : Op) : o ∈ Op.all := by cases o <;> decide

@[simp] theorem Op.ofCode_code (o : Op) : Op.ofCode o.code = some o := by cases o <;> rfl

theorem Op.code_of_ofCode {b : Byte} {o : Op} (h : Op.ofCode b = some o) : o.code = b := by
  have := List.find?_some h
  simpa using this

theorem Op.ofCode_eq_none {b : Byte} : Op.ofCode b = none ↔ ∀ o : Op, o.code ≠ b := by
  constructor
  · intro h o ho
    rw [← ho, Op.ofCode_code] at h
    cases h
  · intro h
    cases hb : Op.ofCode b with
    | none => rfl
    | some o => exact absurd (Op.code_of_ofCode hb) (h o)

/-- The `match` of a row as a pack (R76). -/
theorem Op.tableMatch_eq (o : Op) : o.tableMatch = pack o.code 0 0 0 0 0 0 0 0 := by cases o <;> rfl

/-- The fields of the `mask` of a format: all ones at `OP` and at every field the format does not use (R76). -/
theorem Format.tableMask_eq (f : Format) :
    f.tableMask =
      match f with
      | .n => pack 0xFF 0xFF 0xFF 0xFF 0xFFFF 0xFFFF 0xFFFF 0xFFFF 0xFFFFFFFF
      | .f => pack 0xFF 0xFE 0xFF 0xFF 0xFFFF 0xFFFF 0xFFFF 0xFFFF 0xFFFFFFFF
      | .q => pack 0xFF 0xFC 0xFF 0xFF 0xFFFF 0xFFFF 0xFFFF 0xFFFF 0xFFFFFFFF
      | .b => pack 0xFF 0x00 0xFF 0xFF 0xFFFF 0xFFFF 0xFFFF 0xFFFF 0xFFFFFFFF
      | .s => pack 0xFF 0x00 0x00 0xFF 0xFFFF 0xFFFF 0xFFFF 0xFFFF 0xFFFFFFFF
      | .ls => pack 0xFF 0x00 0xFF 0xFF 0x0000 0xFFFF 0xFFFF 0xFFFF 0xFFFFFFFF
      | .lp => pack 0xFF 0x00 0x00 0xFF 0x0000 0xFFFF 0xFFFF 0xFFFF 0xFFFFFFFF
      | .p => pack 0xFF 0xFC 0xFF 0xFF 0x0000 0x0000 0xFFFF 0xFFFF 0xFFFFFFFF
      | .r => pack 0xFF 0xFF 0xFF 0xFF 0x0000 0x0000 0x0000 0x0000 0x00000000
      | .rb => pack 0xFF 0xFE 0xFF 0xFF 0x0000 0x0000 0x0000 0x0000 0x00000000
      | .m => pack 0xFF 0xFF 0xFF 0xFF 0x0000 0x0000 0x0000 0x0000 0x00000000 := by
  cases f <;> rfl

theorem flagByte_and (f : Bool) : flagByte f &&& 0xFE#8 = 0#8 := by cases f <;> rfl

theorem code_and (r : BitVec 2) : r.setWidth 8 &&& 0xFC#8 = 0#8 := by revert r; decide

@[simp] theorem flagOnly_flagByte (f : Bool) : flagOnly (flagByte f) = true := by cases f <;> rfl

@[simp] theorem codeOnly_setWidth (r : BitVec 2) : codeOnly (r.setWidth 8) = true := by revert r; decide

@[simp] theorem flagOf_flagByte (f : Bool) : flagOf (flagByte f) = f := by cases f <;> rfl

@[simp] theorem codeOf_setWidth (r : BitVec 2) : codeOf (r.setWidth 8) = r := by revert r; decide

/-- What a legal descriptor is: its `OP` names an operation, the bits its format does not use are zero, and the colour code
of a SETPIXEL is not 3 (R75). -/
theorem decode_eq_ok {d : Descriptor} {i : Instr} :
    decode d = .ok i ↔
      ∃ o, Op.ofCode (fieldOp d) = some o ∧ o.format.unusedZero d = true ∧
        (o = .setpixel → colourCodeOk (codeOf (fieldA d)) = true) ∧ o.build d = i := by
  unfold decode
  constructor
  · intro h
    split at h
    · cases h
    · next o ho =>
      split at h
      · next hz =>
        split at h
        · cases h
        · next hc =>
          refine ⟨o, ho, hz, fun hs => ?_, by simpa using h⟩
          subst hs
          simpa using hc
      · cases h
  · rintro ⟨o, ho, hz, hc, rfl⟩
    rw [ho]
    simp only [hz, if_true]
    rw [if_neg]
    intro hb
    simp only [Bool.and_eq_true, beq_iff_eq, Bool.not_eq_true'] at hb
    rw [hc hb.1] at hb
    exact absurd hb.2 (by decide)

end Sys2Proof
end

