-- ==== Sys2Proof/Laws/Transfer.lean ====
section
/-! SUPPORT. XFER's offsets and what a transfer can do. -/

namespace Sys2Proof.Machine

/-- In page row `r` every offset lies inside row `r` or before it, and the shared counter never runs ahead of the formula. -/
theorem xferColumns_lt (c : Config) (x : Int) (w r : Nat) (n col counter : Nat) (hcol : col + n ≤ w)
    (hc : counter ≤ w * r + col) :
    (∀ o ∈ (xferColumns c x w (8 * r) n col counter).1, o < w * (r + 1)) ∧
      (xferColumns c x w (8 * r) n col counter).2 ≤ w * r + (col + n) := by
  induction n generalizing col counter with
  | zero => exact ⟨by simp [xferColumns], hc⟩
  | succ n ih =>
    have hoff : sentOffset c.xferOffset w (8 * r) col counter < w * (r + 1) := by
      have : w * (r + 1) = w * r + w := by ring
      unfold sentOffset
      rw [Nat.mul_div_cancel_left r (by decide : 0 < 8)]
      split <;> omega
    have hskip : counterAfterSkip c.xferOffset counter ≤ w * r + (col + 1) := by
      unfold counterAfterSkip
      split <;> omega
    unfold xferColumns
    split
    · have := ih (col + 1) (counter + 1) (by omega) (by omega)
      refine ⟨?_, by simp only; omega⟩
      simp only [List.mem_cons, forall_eq_or_imp]
      exact ⟨hoff, this.1⟩
    · have := ih (col + 1) _ (by omega) hskip
      exact ⟨this.1, by omega⟩

/-- XFER reads at most the offsets `0 .. w*ceil(h/8) - 1` (R44), under every setting of the offset switch. -/
theorem xferRows_lt (c : Config) (x y : Int) (w n r counter : Nat) (hc : counter ≤ w * r) :
    ∀ o ∈ xferRows c x y w n (8 * r) counter, o < w * (r + n) := by
  induction n generalizing r counter with
  | zero => simp [xferRows]
  | succ n ih =>
    have hrow : w * (r + 1) ≤ w * (r + (n + 1)) := Nat.mul_le_mul_left w (by omega)
    have hnext : w * (r + 1 + n) = w * (r + (n + 1)) := by congr 1; omega
    have hcol := xferColumns_lt c x w r w 0 counter (by omega) (by omega)
    have hr : w * r + (0 + w) = w * (r + 1) := by ring
    rw [hr] at hcol
    have hr' : w * r ≤ w * (r + 1) := Nat.mul_le_mul_left w (by omega)
    unfold xferRows
    rw [show 8 * r + 8 = 8 * (r + 1) by ring]
    split
    · intro o ho
      rcases List.mem_append.1 ho with ho | ho
      · have := hcol.1 o ho
        omega
      · rw [← hnext]
        exact ih (r + 1) _ hcol.2 o ho
    · intro o ho
      rw [← hnext]
      exact ih (r + 1) counter (by omega) o ho

theorem xferOffsets_lt (c : Config) (x y : Int) (w h : Nat) : ∀ o ∈ xferOffsets c x y w h, o < w * ((h + 7) / 8) := by
  have := xferRows_lt c x y w ((h + 7) / 8) 0 0 (by omega)
  simpa [xferOffsets] using this

@[simp] theorem windowFrames_length (c : Config) : (windowFrames c).length = 6 := rfl

theorem fillOnePage_length (c : Config) (p pattern : Byte) : (fillOnePage c p pattern).length = 3 + c.width := by
  simp [fillOnePage]
  omega

/-- The frames of a transfer, where every address is inside the space: the window and one data frame per byte. -/
theorem transferFrames_eq_some {x y : Int} {w h src : Nat} {s : State} {es : List BusEvent} :
    transferFrames x y w h src s = some es ↔
      (∀ o ∈ xferOffsets s.cfg x y w h, src + o < 2 ^ 32) ∧
        es = windowFrames s.cfg ++ (xferOffsets s.cfg x y w h).map fun o => dataFrame s.cfg (s.mem.read (src + o)) := by
  unfold transferFrames
  rw [Option.map_eq_some_iff]
  constructor
  · rintro ⟨bytes, hb, rfl⟩
    obtain ⟨hs, rfl⟩ := memReads_eq_some.1 hb
    exact ⟨by simpa using hs, by simp [List.map_map, Function.comp_def]⟩
  · rintro ⟨hs, rfl⟩
    exact ⟨_, memReads_eq_some.2 ⟨by simpa using hs, rfl⟩, by simp [List.map_map, Function.comp_def]⟩

theorem transferFrames_eq_none {x y : Int} {w h src : Nat} {s : State} :
    transferFrames x y w h src s = none ↔ ∃ o ∈ xferOffsets s.cfg x y w h, 2 ^ 32 ≤ src + o := by
  unfold transferFrames
  rw [Option.map_eq_none_iff, memReads_eq_none]
  simp

/-- What a transfer can do: send its frames, where every address is inside the space. -/
theorem transferRegion_eq_next {x y : Int} {w h src : Nat} {s t : State} :
    transferRegion x y w h src s = .next t ↔
      (∀ o ∈ xferOffsets s.cfg x y w h, src + o < 2 ^ 32) ∧
        sendFrames (windowFrames s.cfg ++ (xferOffsets s.cfg x y w h).map fun o => dataFrame s.cfg (s.mem.read (src + o))) s =
          .next t := by
  unfold transferRegion
  cases hf : transferFrames x y w h src s with
  | none =>
    obtain ⟨o, ho, hge⟩ := transferFrames_eq_none.1 hf
    simp only [reduceCtorEq, false_iff, not_and]
    intro hs
    have := hs o ho
    omega
  | some es =>
    obtain ⟨hs, rfl⟩ := transferFrames_eq_some.1 hf
    exact ⟨fun h => ⟨hs, h⟩, fun h => h.2⟩

/-- Where every address is inside the space and every frame is answered a transfer ends with `Done(0)`. -/
theorem transferRegion_answered {x y : Int} {w h src : Nat} {s : State}
    (hs : ∀ o ∈ xferOffsets s.cfg x y w h, src + o < 2 ^ 32)
    (ha : s.willAnswer (6 + (xferOffsets s.cfg x y w h).length) = true) :
    transferRegion x y w h src s = .next ((s.emit (windowFrames s.cfg ++
      (xferOffsets s.cfg x y w h).map fun o => dataFrame s.cfg (s.mem.read (src + o)))).respond 0#32) :=
  transferRegion_eq_next.2 ⟨hs, sendFrames_answered (by rw [List.length_append, List.length_map, windowFrames_length]; exact ha)⟩

/-- A transfer is refused exactly where an address is past the space. -/
theorem transferRegion_eq_refused {x y : Int} {w h src : Nat} {s : State} {r : Refusal} :
    transferRegion x y w h src s = .refused r ↔
      r = .addressPastSpace ∧ ∃ o ∈ xferOffsets s.cfg x y w h, 2 ^ 32 ≤ src + o := by
  unfold transferRegion
  rw [← transferFrames_eq_none]
  cases transferFrames x y w h src s with
  | none => simp [eq_comm]
  | some es =>
    obtain ⟨t, ht⟩ := sendFrames_next es s
    simp [ht]

end Sys2Proof.Machine
end

