-- ==== Sys2Proof/Laws/Exec.lean ====
section
/-! SUPPORT. Everything that one operation, and one step, can do: one inversion lemma each, from which the claims over all
operations follow. -/

namespace Sys2Proof.Machine

/-- Every event is a command or a data frame of the configuration (30_encoding.md R85). -/
def AllFrames (c : Config) (es : List BusEvent) : Prop := ∀ e ∈ es, ∃ b, e = cmdFrame c b ∨ e = dataFrame c b

theorem allFrames_cmds (c : Config) (bs : List Byte) : AllFrames c (bs.map (cmdFrame c)) := by
  intro e he
  obtain ⟨b, -, rfl⟩ := List.mem_map.1 he
  exact ⟨b, .inl rfl⟩

theorem AllFrames.append {c : Config} {es es' : List BusEvent} (h : AllFrames c es) (h' : AllFrames c es') :
    AllFrames c (es ++ es') :=
  fun e he => (List.mem_append.1 he).elim (h e) (h' e)

theorem allFrames_fillOnePage (c : Config) (p pattern : Byte) : AllFrames c (fillOnePage c p pattern) :=
  (allFrames_cmds c _).append fun _ he => ⟨pattern, .inr (List.eq_of_mem_replicate he)⟩

/-- The cases of an operation that completes. -/
inductive Effect (i : Instr) (s t : State) : Prop where
  /-- Colour code 3, the one operation without a legal descriptor (R75 (c)). -/
  | illegal (hwf : i.wf = false) (ht : t = s.raise .illegalOperation)
  /-- No handle (R192). -/
  | noBuffer (hv : s.bufValid = false) (hop : i.op = .setpixel ∨ i.op = .drawbitmap ∨ i.op = .clearbuf ∨ i.op = .update)
      (ht : t = s.raise .noBuffer)
  /-- SETROT (R116). -/
  | rot (r : BitVec 2) (hop : i.op = .setrot) (ht : t = (s.setRot r).respond 0#32)
  /-- SETBUF turned away (R114). -/
  | notStored (v : BitVec 32) (hop : i.op = .setbuf) (ht : t = s.respond v)
  /-- SETBUF (R114). -/
  | stored (base : Addr) (w h : Half) (hop : i.op = .setbuf) (hb : base ≠ 0#32) (hh : h.toNat % 8 = 0)
      (ht : t = (s.storeHandle base w h).respond 0#32)
  /-- A write into the framebuffer, or a dropped or turned away one (R134, R145, R162). -/
  | drawn (u : State) (v : BitVec 32) (hv : s.bufValid = true)
      (hop : i.op = .setpixel ∨ i.op = .drawbitmap ∨ i.op = .clearbuf) (hu : DrawsInBuffer s u) (ht : t = u.respond v)
  /-- Frames that are all answered, and nothing else. -/
  | sent (es : List BusEvent) (hes : AllFrames s.cfg es)
      (hop : i.op ≠ .setbuf ∧ i.op ≠ .setrot ∧ i.op ≠ .setpixel ∧ i.op ≠ .drawbitmap ∧ i.op ≠ .clearbuf)
      (hans : s.willAnswer es.length = true) (ht : t = (s.emit es).respond 0#32)
  /-- CHECKCONN, answered (R179). -/
  | probed (hop : i.op = .checkconn) (hans : s.willAnswer 1 = true)
      (ht : t = (drawCount (s.emit [.read s.cfg.busAddr 1])).2.respond (Config.busReadCount s.draws))
  /-- Bus calls of which one is never answered (R197). -/
  | waiting (es : List BusEvent) (hes : AllFrames s.cfg es ∨ es = [.read s.cfg.busAddr 1])
      (hop : i.op ≠ .setbuf ∧ i.op ≠ .setrot ∧ i.op ≠ .setpixel ∧ i.op ≠ .drawbitmap ∧ i.op ≠ .clearbuf)
      (hans : s.willAnswer es.length = false) (ht : t = s.block es)

theorem Effect.ofSendFrames {i : Instr} {s t : State} {es : List BusEvent} (hes : AllFrames s.cfg es)
    (hop : i.op ≠ .setbuf ∧ i.op ≠ .setrot ∧ i.op ≠ .setpixel ∧ i.op ≠ .drawbitmap ∧ i.op ≠ .clearbuf)
    (h : sendFrames es s = .next t) : Effect i s t := by
  rcases sendFrames_cases h with ⟨hw, ht⟩ | ⟨hw, ht⟩
  · exact .sent es hes hop hw ht
  · exact .waiting es (.inl hes) hop hw ht

theorem Effect.ofSendCmds {i : Instr} {s t : State} (bs : List Byte)
    (hop : i.op ≠ .setbuf ∧ i.op ≠ .setrot ∧ i.op ≠ .setpixel ∧ i.op ≠ .drawbitmap ∧ i.op ≠ .clearbuf)
    (h : sendCmds bs s = .next t) : Effect i s t :=
  .ofSendFrames (allFrames_cmds _ bs) hop h

theorem Effect.ofTransfer {i : Instr} {x y : Int} {w h src : Nat} {s t : State}
    (hop : i.op ≠ .setbuf ∧ i.op ≠ .setrot ∧ i.op ≠ .setpixel ∧ i.op ≠ .drawbitmap ∧ i.op ≠ .clearbuf)
    (ht : transferRegion x y w h src s = .next t) : Effect i s t := by
  refine .ofSendFrames ((allFrames_cmds _ _).append fun e he => ?_) hop (transferRegion_eq_next.1 ht).2
  obtain ⟨o, -, rfl⟩ := List.mem_map.1 he
  exact ⟨_, .inr rfl⟩

/-- Everything an operation that completes can do. -/
theorem exec_cases {i : Instr} {s t : State} (h : exec i s = .next t) : Effect i s t := by
  cases i with
  | init => exact .ofSendCmds _ (by decide) h
  | setbuf w hh buffer size =>
    simp only [exec, execSetbuf, checkSetBuf] at h
    split at h
    · next hok =>
      split at hok
      · cases hok
      · split at hok
        · cases hok
        · rw [ret_eq, Host.Outcome.next.injEq] at h
          exact .stored buffer w hh rfl ‹_› (by omega) h.symm
    · rw [ret_eq, Host.Outcome.next.injEq] at h
      exact .notStored _ rfl h.symm
  | setrot r =>
    simp only [exec, execSetrot, ret_eq, Host.Outcome.next.injEq] at h
    exact .rot r rfl h.symm
  | setpixel x y colour =>
    simp only [exec, execSetpixel] at h
    split at h
    · next hc =>
      rw [fail_eq, Host.Outcome.next.injEq] at h
      refine .illegal ?_ h.symm
      revert hc
      simp only [Instr.wf]
      revert colour
      decide
    · rcases hv : s.bufValid with _ | _
      · rw [withBuffer_invalid _ hv, Host.Outcome.next.injEq] at h
        exact .noBuffer hv (.inl rfl) h.symm
      · rw [withBuffer_valid _ hv, finish_eq_next] at h
        obtain ⟨u, hu, rfl⟩ := h
        exact .drawn u _ hv (.inl rfl) (drawPixel_inBuffer hu) rfl
  | drawbitmap x y w hh data invert =>
    simp only [exec, execDrawbitmap] at h
    rcases hv : s.bufValid with _ | _
    · rw [withBuffer_invalid _ hv, Host.Outcome.next.injEq] at h
      exact .noBuffer hv (.inr (.inl rfl)) h.symm
    · rw [withBuffer_valid _ hv] at h
      split at h
      · obtain ⟨u, hu, rfl⟩ := finish_eq_next.1 h
        exact .drawn u _ hv (.inr (.inl rfl)) (blitRows_inBuffer hu) rfl
      · rw [ret_eq, Host.Outcome.next.injEq] at h
        exact .drawn s _ hv (.inr (.inl rfl)) (.refl s) h.symm
  | clearbuf =>
    simp only [exec, execClearbuf] at h
    rcases hv : s.bufValid with _ | _
    · rw [withBuffer_invalid _ hv, Host.Outcome.next.injEq] at h
      exact .noBuffer hv (.inr (.inr (.inl rfl))) h.symm
    · rw [withBuffer_valid _ hv, finish_eq_next] at h
      obtain ⟨u, hu, rfl⟩ := h
      obtain ⟨m, rfl, hw, hr, -⟩ := memFill_spec hu
      refine .drawn _ _ hv (.inr (.inr rfl)) ⟨m, rfl, hw, fun _ a ha => ?_⟩ rfl
      rw [hr]
      exact if_neg ha
  | xfer x y w hh src => exact .ofTransfer (by simp [Instr.op]) h
  | update =>
    simp only [exec, execUpdate] at h
    rcases hv : s.bufValid with _ | _
    · rw [withBuffer_invalid _ hv, Host.Outcome.next.injEq] at h
      exact .noBuffer hv (.inr (.inr (.inr rfl))) h.symm
    · rw [withBuffer_valid _ hv] at h
      exact .ofTransfer (by decide) h
  | fillscreen pattern delay =>
    refine .ofSendFrames (fun e he => ?_) (by simp [Instr.op]) h
    obtain ⟨p, -, hp⟩ := List.mem_flatMap.1 he
    exact allFrames_fillOnePage _ _ _ e hp
  | fillpage page pattern delay => exact .ofSendFrames (allFrames_fillOnePage _ _ _) (by simp [Instr.op]) h
  | powerdown => exact .ofSendCmds _ (by decide) h
  | setenabled on => exact .ofSendCmds _ (by simp [Instr.op]) h
  | setcontrast c => exact .ofSendCmds _ (by simp [Instr.op]) h
  | setinvert inv => exact .ofSendCmds _ (by simp [Instr.op]) h
  | scrollHr start stop => exact .ofSendCmds _ (by simp [Instr.op]) h
  | scrollHl start stop => exact .ofSendCmds _ (by simp [Instr.op]) h
  | scrollDr start stop => exact .ofSendCmds _ (by simp [Instr.op]) h
  | scrollDl start stop => exact .ofSendCmds _ (by simp [Instr.op]) h
  | stopscroll => exact .ofSendCmds _ (by decide) h
  | checkconn =>
    simp only [exec, execCheckconn] at h
    cases hw : s.willAnswer [BusEvent.read s.cfg.busAddr 1].length with
    | true =>
      rw [busCalls_answered _ hw, ret_eq, Host.Outcome.next.injEq] at h
      exact .probed rfl hw h.symm
    | false =>
      rw [busCalls_unanswered _ hw, Host.Outcome.next.injEq] at h
      exact .waiting _ (.inr rfl) (by decide) hw h.symm

/-- Everything a step can do: nothing, while it waits for the transport or the host has no move; one byte of the host's, an
operation, or the fault of an illegal descriptor. -/
theorem step_cases {s t : State} (h : step s = .next t) :
    ((s.blocked = true ∨ s.host = []) ∧ t = s) ∨
    (s.blocked = false ∧
      ((∃ a v rest, s.host = .store a v :: rest ∧ t = { s with mem := s.mem.write a.toNat v, host := rest }) ∨
      ∃ d rest, s.host = .issue d :: rest ∧
        ((∃ i, decode d = .ok i ∧ exec i { s with host := rest } = .next t) ∨
          ((∃ e, decode d = .error e) ∧ t = State.raise .illegalOperation { s with host := rest })))) := by
  unfold step at h
  by_cases hb : s.blocked = true
  · rw [takeRequest_waiting hb] at h
    exact .inl ⟨.inl hb, (Host.Outcome.next.inj h).symm⟩
  · rw [Bool.not_eq_true] at hb
    rcases hh : s.host with _ | ⟨_ | _, rest⟩
    · rw [takeRequest_idle hb hh] at h
      exact .inl ⟨.inr rfl, (Host.Outcome.next.inj h).symm⟩
    · rename_i d
      rw [takeRequest_issue hb hh] at h
      refine .inr ⟨hb, .inr ⟨d, rest, rfl, ?_⟩⟩
      simp only at h
      split at h
      · exact .inl ⟨_, ‹_›, h⟩
      · exact .inr ⟨⟨_, ‹_›⟩, (Host.Outcome.next.inj h).symm⟩
    · rename_i a v
      rw [takeRequest_store hb hh] at h
      exact .inr ⟨hb, .inl ⟨a, v, rest, rfl, (Host.Outcome.next.inj h).symm⟩⟩

end Sys2Proof.Machine
end

