-- ==== Sys2Proof/Laws/PerInstr.lean ====
section
/-! SUPPORT. Statements made per instruction. Family TableRow: the descriptor of an operation matches the operation's own row
of spec/opcode_table.json, `D & mask = match` (30_encoding.md R76). -/

namespace Sys2Proof.Laws.TableRow

/-- The encoded operation matches its row of the opcode table. -/
def Statement (i : Instr) : Prop := i.op.rowMatches (encode i) = true

/-- A packed descriptor matches a row when its `OP` is the row's and every field, masked, is zero. -/
theorem of_fields {o : Op} {op a b rsv : Byte} {x y w h : Half} {ptr : Addr} {op' a' b' rsv' : Byte} {x' y' w' h' : Half}
    {ptr' : Addr} (hm : o.format.tableMask = pack op' a' b' rsv' x' y' w' h' ptr') (hop : op &&& op' = o.code)
    (h0 : a &&& a' = 0 ∧ b &&& b' = 0 ∧ rsv &&& rsv' = 0 ∧ x &&& x' = 0 ∧ y &&& y' = 0 ∧ w &&& w' = 0 ∧ h &&& h' = 0 ∧
      ptr &&& ptr' = 0) :
    o.rowMatches (pack op a b rsv x y w h ptr) = true := by
  unfold Op.rowMatches
  rw [hm, pack_and, Op.tableMatch_eq, beq_iff_eq, pack_inj]
  exact ⟨hop, h0⟩

theorem code_mask (o : Op) : o.code &&& 0xFF#8 = o.code := by cases o <;> rfl

theorem init : Statement .init :=
  of_fields (Format.tableMask_eq _) (code_mask _) (by simp)

theorem setbuf (w h : Half) (buffer size : Addr) : Statement (.setbuf w h buffer size) :=
  of_fields (Format.tableMask_eq _) (code_mask _) (by simp)

theorem setrot (r : BitVec 2) : Statement (.setrot r) :=
  of_fields (Format.tableMask_eq _) (code_mask _) (by simp [code_and])

theorem setpixel (x y : Half) (colour : BitVec 2) : Statement (.setpixel x y colour) :=
  of_fields (Format.tableMask_eq _) (code_mask _) (by simp [code_and])

theorem drawbitmap (x y w h : Half) (data : Addr) (invert : Bool) : Statement (.drawbitmap x y w h data invert) :=
  of_fields (Format.tableMask_eq _) (code_mask _) (by simp [flagByte_and])

theorem clearbuf : Statement .clearbuf :=
  of_fields (Format.tableMask_eq _) (code_mask _) (by simp)

theorem xfer (x y w h : Half) (src : Addr) : Statement (.xfer x y w h src) :=
  of_fields (Format.tableMask_eq _) (code_mask _) (by simp)

theorem update : Statement .update :=
  of_fields (Format.tableMask_eq _) (code_mask _) (by simp)

theorem fillscreen (pattern : Byte) (delay : Half) : Statement (.fillscreen pattern delay) :=
  of_fields (Format.tableMask_eq _) (code_mask _) (by simp)

theorem fillpage (page pattern : Byte) (delay : Half) : Statement (.fillpage page pattern delay) :=
  of_fields (Format.tableMask_eq _) (code_mask _) (by simp)

theorem powerdown : Statement .powerdown :=
  of_fields (Format.tableMask_eq _) (code_mask _) (by simp)

theorem setenabled (on : Bool) : Statement (.setenabled on) :=
  of_fields (Format.tableMask_eq _) (code_mask _) (by simp [flagByte_and])

theorem setcontrast (c : Byte) : Statement (.setcontrast c) :=
  of_fields (Format.tableMask_eq _) (code_mask _) (by simp)

theorem setinvert (inv : Bool) : Statement (.setinvert inv) :=
  of_fields (Format.tableMask_eq _) (code_mask _) (by simp [flagByte_and])

theorem scrollHr (start stop : Byte) : Statement (.scrollHr start stop) :=
  of_fields (Format.tableMask_eq _) (code_mask _) (by simp)

theorem scrollHl (start stop : Byte) : Statement (.scrollHl start stop) :=
  of_fields (Format.tableMask_eq _) (code_mask _) (by simp)

theorem scrollDr (start stop : Byte) : Statement (.scrollDr start stop) :=
  of_fields (Format.tableMask_eq _) (code_mask _) (by simp)

theorem scrollDl (start stop : Byte) : Statement (.scrollDl start stop) :=
  of_fields (Format.tableMask_eq _) (code_mask _) (by simp)

theorem stopscroll : Statement .stopscroll :=
  of_fields (Format.tableMask_eq _) (code_mask _) (by simp)

theorem checkconn : Statement .checkconn :=
  of_fields (Format.tableMask_eq _) (code_mask _) (by simp)

end Sys2Proof.Laws.TableRow
end

