-- ==== Sys2Proof/Tests/Slice0.lean ====
section
/-! SUPPORT. The model's own tests: expected results are those of 95_test_vectors.md (V-…, P…), of the examples in the
rules, or hand calculation from the rule named; and one witness for the premises of every statement that has premises. -/

namespace Sys2Proof.Tests

open Sys2Proof Sys2Proof.Machine

/-! ### Helpers -/

/-- The next state of an outcome, where it is one. -/
def nextOf : Result → Option State
  | .next s => some s
  | .fault _ => none
  | .refused _ => none

/-- The refusal of an outcome, where it is one. -/
def refusalOf : Result → Option Refusal
  | .next _ => none
  | .fault _ => none
  | .refused r => some r

/-- The small panel of 95_test_vectors.md 2.3: 4 by 16. -/
def panel : State := State.ofConfig { defaultConfig with width := 4, height := .h16 }

/-- A state whose transport answers `n` more bus calls and then none. -/
def answering (n : Nat) (s : State) : State := { s with answersLeft := some n }

/-- The small panel, waiting for good on a transport that answers nothing more. -/
def silenced : State := { panel with answersLeft := some 0, blocked := true }

/-- Construction answers an instance. -/
def constructs (p : Parameters) : Bool := (State.construct p).isSome

/-- Consecutive bytes from an address on. -/
def bytesAt : Nat → List Byte → Memory
  | _, [] => []
  | a, b :: bs => (bytesAt (a + 1) bs).write a b

/-- The small panel with a buffer of its own size at 0x100. -/
def buffered (bytes : List Byte) : State := { panel.storeHandle 0x100 4 16 with mem := bytesAt 0x100 bytes }

/-- The source bytes of 95_test_vectors.md 2.3: `MEM[0x400 + k] = 0x10 + k`. -/
def source : State := { panel with mem := bytesAt 0x400 ((List.range 12).map fun k => BitVec.ofNat 8 (0x10 + k)) }

/-- The 8 by 16 buffer and the bitmap `A5 FF` of 95_test_vectors.md 2.4. -/
def blitState (r : BitVec 2) : State :=
  { (panel.storeHandle 0x200 8 16).setRot r with mem := bytesAt 0x300 [0xA5, 0xFF] }

/-- `n` bytes of memory from `a` on. -/
def window (a n : Nat) (s : State) : List Byte := (List.range n).map fun k => s.mem.read (a + k)

/-- What a response list ends in. -/
def lastResponse (s : State) : Option Response := s.responses.getLast?

/-- Command and data frames of the default configuration. -/
def cmds (bs : List Byte) : List BusEvent := bs.map fun b => .write 0x3C [0x00, b]
def datas (bs : List Byte) : List BusEvent := bs.map fun b => .write 0x3C [0x40, b]

/-- The trace after an operation. -/
def traceOf (i : Instr) (s : State) : Option (List BusEvent) := (nextOf (exec i s)).map (·.trace)

/-- The response of an operation. -/
def responseOf (i : Instr) (s : State) : Option Response := (nextOf (exec i s)).bind lastResponse

/-- The framebuffer bytes after an operation. -/
def bytesOf (i : Instr) (a n : Nat) (s : State) : Option (List Byte) := (nextOf (exec i s)).map (window a n)

/-! ### WellFormed: the one check refuses (R80) -/

theorem test_wf_refuses_colour_three : (Instr.setpixel 0 0 3).wf = false := by decide
theorem test_wf_admits_colour_two : (Instr.setpixel 0 0 2).wf = true := by decide

/-! ### Decoding: words written out from 30_encoding.md and 95_test_vectors.md -/

theorem test_decode_configuration :
    decode 0x00000000000000000000000000000001#128 = .ok .init ∧
    decode 0x20000000004000800000040000000002#128 = .ok (.setbuf 128 64 0x20000000 1024) ∧
    decode 0x00000000000000000000000000000203#128 = .ok (.setrot 2) := by decide

theorem test_decode_framebuffer_writers :
    decode 0x0000000000000000000A000500000210#128 = .ok (.setpixel 5 10 2) ∧
    decode 0x00000000000000000003FFFF00000110#128 = .ok (.setpixel (-1) 3 1) ∧
    decode 0x00000300000200080000000000000111#128 = .ok (.drawbitmap 0 0 8 2 0x300 true) ∧
    decode 0x00000000000000000000000000000012#128 = .ok .clearbuf := by decide

theorem test_decode_transfers :
    decode 0x00000400001000060000FFFF00000020#128 = .ok (.xfer (-1) 0 6 16 0x400) ∧
    decode 0x00000000000000000000000000000021#128 = .ok .update ∧
    decode 0x0000000000000000000001F400003C22#128 = .ok (.fillscreen 0x3C 500) ∧
    decode 0x0000000000000000000000000001AA23#128 = .ok (.fillpage 1 0xAA 0) := by decide

theorem test_decode_controls :
    decode 0x00000000000000000000000000000030#128 = .ok .powerdown ∧
    decode 0x00000000000000000000000000000131#128 = .ok (.setenabled true) ∧
    decode 0x0000000000000000000000000000FF32#128 = .ok (.setcontrast 0xFF) ∧
    decode 0x00000000000000000000000000000033#128 = .ok (.setinvert false) ∧
    decode 0x00000000000000000000000000050240#128 = .ok (.scrollHr 2 5) ∧
    decode 0x00000000000000000000000000050241#128 = .ok (.scrollHl 2 5) ∧
    decode 0x00000000000000000000000000050242#128 = .ok (.scrollDr 2 5) ∧
    decode 0x00000000000000000000000000050243#128 = .ok (.scrollDl 2 5) ∧
    decode 0x00000000000000000000000000000044#128 = .ok .stopscroll ∧
    decode 0x00000000000000000000000000000050#128 = .ok .checkconn := by decide

/-- V-E1, V-E2: `OP` not assigned. -/
theorem test_decode_unknown_op :
    decode 0x00000000000000000000000000000000#128 = .error .unknownOp ∧
    decode 0x000000000000000000000000000000FF#128 = .error .unknownOp := by decide

/-- V-I4, V-B9, V-R2, V-P29, V-F7, V-E3, V-E6: a bit set that the format does not use. -/
theorem test_decode_unused_bits :
    decode 0x00000000000000000000000000000101#128 = .error .unusedBitSet ∧
    decode 0x00000001004000800000040000000102#128 = .error .unusedBitSet ∧
    decode 0x00000000000000000000000000000403#128 = .error .unusedBitSet ∧
    decode 0x00000000000000010000000000000110#128 = .error .unusedBitSet ∧
    decode 0x00000000000000000000000000010122#128 = .error .unusedBitSet ∧
    decode 0x00000000000000000000000001000021#128 = .error .unusedBitSet ∧
    decode 0x00000000000000000000000000000231#128 = .error .unusedBitSet := by decide

/-- V-E4: colour 3. -/
theorem test_decode_colour_three : decode 0x00000000000000000000000000000310#128 = .error .colourThree := by decide

/-- R70, R77: bytes lowest first, and sixteen of them. -/
theorem test_decode_bytes :
    decodeBytes [0x03, 0x02, 0, 0, 0, 0, 0, 0, 0, 0, 0, 0, 0, 0, 0, 0] = .ok (.setrot 2) ∧
    decodeBytes [0x03, 0x02, 0, 0] = .error .wrongLength := by decide

theorem test_decodeTableWord :
    decodeTableWord 128 0x20000000004000800000040000000002 = some (.setbuf 128 64 0x20000000 1024) ∧
    decodeTableWord 128 0x310 = none := by decide

/-- Every constructor's encoding, against words of 95_test_vectors.md. -/
theorem test_encode_words :
    encode (.setbuf 4 16 0x100 8) = 0x00000100001000040000000800000002#128 ∧
    encode (.setpixel 0 (-32768) 1) = 0x00000000000000008000000000000110#128 ∧
    encode (.drawbitmap (-1) 0 9 1 0 false) = 0x00000000000100090000FFFF00000011#128 ∧
    encode (.xfer 0 (-8) 4 16 0x400) = 0x0000040000100004FFF8000000000020#128 ∧
    encode (.fillpage 0x40 0x55 0) = 0x00000000000000000000000000405523#128 ∧
    encode (.fillscreen 0x3C 500) = 0x0000000000000000000001F400003C22#128 := by decide

/-! ### The assembler (R78) -/

theorem test_assemble :
    assemble "SETPIXEL -1, 0x3, SET ; left of the panel".toList = some (.setpixel (-1) 3 1) ∧
    assemble "SETBUF 128, 64, 0x20000000, 1024".toList = some (.setbuf 128 64 0x20000000 1024) ∧
    assemble "FILLPAGE 9, 0x55, 0".toList = some (.fillpage 9 0x55 0) ∧
    assemble "SETENABLED OFF".toList = some (.setenabled false) ∧
    assemble "UPDATE".toList = some .update := by decide

theorem test_assemble_refuses :
    assemble "SETPIXEL 0, 0, 3".toList = none ∧ assemble "UPDATE 1".toList = none ∧ assemble "NOP".toList = none ∧
    assemble "SETROT 4".toList = none := by decide

/-! ### INIT (V-I1 to V-I3) -/

theorem test_init_height_64 : traceOf .init State.reset = some (cmds
    [0xAE, 0xD5, 0x80, 0xA8, 0x3F, 0xD3, 0x00, 0x40, 0x8D, 0x14, 0x20, 0x00, 0xA1, 0xC8, 0xDA, 0x12, 0x81, 0xCF, 0xD9, 0xF1,
     0xDB, 0x40, 0xA4, 0xA6, 0x2E, 0xAF]) := by decide

theorem test_init_height_16 : traceOf .init panel = some (cmds
    [0xAE, 0xD5, 0x80, 0xA8, 0x0F, 0xD3, 0x00, 0x40, 0x8D, 0x14, 0x20, 0x00, 0xA1, 0xC8, 0xDA, 0x02, 0x81, 0xAF, 0xD9, 0xF1,
     0xDB, 0x40, 0xA4, 0xA6, 0x2E, 0xAF]) := by decide

/-! ### SETBUF (V-B1 to V-B8), SETROT (V-R1) -/

theorem test_setbuf_codes :
    responseOf (.setbuf 128 64 0x20000000 1024) State.reset = some (.done 0) ∧
    responseOf (.setbuf 128 64 0x20000000 1023) State.reset = some (.done 1) ∧
    responseOf (.setbuf 128 64 0 1024) State.reset = some (.done 2) ∧
    responseOf (.setbuf 128 64 0 1000) State.reset = some (.done 1) ∧
    responseOf (.setbuf 128 12 0x20000000 128) State.reset = some (.done 1) ∧
    responseOf (.setbuf 0 0 0x100 0) State.reset = some (.done 0) := by decide

/-- V-B6: a failed SETBUF keeps the earlier handle. -/
theorem test_setbuf_failure_keeps_handle :
    (nextOf (exec (.setbuf 128 64 0x20000000 1023) (buffered []))).map
      (fun t => (t.bufValid, t.bufBase, t.bufW, t.bufH)) = some (true, 0x100, 4, 16) := by decide

theorem test_setrot : (nextOf (exec (.setrot 2) panel)).map (·.rot) = some 2 := by decide

/-! ### SETPIXEL (V-P1 to V-P28) -/

theorem test_rotcalc_rotations :
    rotcalc 0 128 64 5 10 = some (133, 2) ∧ rotcalc 1 128 64 5 10 = some (117, 5) ∧
    rotcalc 2 128 64 5 10 = some (890, 5) ∧ rotcalc 3 128 64 5 10 = some (906, 2) ∧
    rotcalc 0 128 64 127 63 = some (1023, 7) ∧ rotcalc 1 128 64 63 127 = some (896, 7) ∧
    rotcalc 2 128 64 127 0 = some (896, 7) ∧ rotcalc 3 128 64 63 0 = some (0, 0) ∧
    rotcalc 0 128 64 128 0 = none ∧ rotcalc 0 128 64 0 64 = none ∧ rotcalc 1 128 64 64 0 = none ∧
    rotcalc 1 128 64 0 128 = none ∧ rotcalc 0 128 64 (-1) 0 = none := by decide

/-- V-P17, V-P18, V-P26 on one byte, and P2's steps 5 and 6. -/
theorem test_setpixel_colours :
    bytesOf (.setpixel 0 2 0) 0x100 1 (buffered [0xFF]) = some [0xFB] ∧
    bytesOf (.setpixel 0 2 2) 0x100 1 (buffered [0x5A]) = some [0x5E] ∧
    bytesOf (.setpixel 0 2 2) 0x100 1 (buffered [0x5E]) = some [0x5A] ∧
    bytesOf (.setpixel 0 0 1) 0x100 1 (buffered [0x01]) = some [0x01] ∧
    bytesOf (.setpixel 3 15 1) 0x100 8 (buffered []) = some [0, 0, 0, 0, 0, 0, 0, 0x80] ∧
    bytesOf (.setpixel 1 9 2) 0x100 8 (buffered []) = some [0, 0, 0, 0, 0, 0x02, 0, 0] := by decide

/-! ### DRAWBITMAP (V-D1 to V-D13) -/

/-- V-D1 to V-D5, V-D7, scaled to the 8 by 16 buffer. -/
theorem test_drawbitmap_codes :
    responseOf (.drawbitmap (-1) 0 9 1 0 false) (blitState 0) = some (.done 1) ∧
    responseOf (.drawbitmap 8 0 8 1 0x300 false) (blitState 0) = some (.done 1) ∧
    responseOf (.drawbitmap 0 0 300 1 0 false) (blitState 0) = some (.done 2) ∧
    responseOf (.drawbitmap 0 0 7 1 0 false) (blitState 0) = some (.done 3) ∧
    responseOf (.drawbitmap 0 0 7 1 0x300 false) (blitState 0) = some (.done 4) ∧
    responseOf (.drawbitmap 0 0 0 0 0x300 false) (blitState 0) = some (.done 0) := by decide

/-- V-D9, V-D11, V-D12, V-D13. -/
theorem test_drawbitmap_pixels :
    bytesOf (.drawbitmap 0 0 8 2 0x300 false) 0x200 8 (blitState 0) = some [3, 2, 3, 2, 2, 3, 2, 3] ∧
    bytesOf (.drawbitmap 0 0 8 2 0x300 false) 0x200 8 (blitState 1) = some [0, 0, 0, 0, 0, 0, 0xFF, 0xA5] ∧
    bytesOf (.drawbitmap 0 0 8 2 0x300 false) 0x208 8 (blitState 2) =
      some [0xC0, 0x40, 0xC0, 0x40, 0x40, 0xC0, 0x40, 0xC0] ∧
    bytesOf (.drawbitmap 0 0 8 2 0x300 false) 0x208 8 (blitState 3) = some [0xA5, 0xFF, 0, 0, 0, 0, 0, 0] := by decide

/-- V-D10, on its first eight bytes. -/
theorem test_drawbitmap_invert :
    bytesOf (.drawbitmap 0 0 8 2 0x300 true) 0x200 8
      { blitState 0 with mem := (List.range 8).foldl (fun m k => m.write (0x200 + k) 0xFF) (blitState 0).mem } =
      some [0xFC, 0xFD, 0xFC, 0xFD, 0xFD, 0xFC, 0xFD, 0xFC] := by decide

/-! ### XFER, UPDATE, CLEARBUF (V-X…, V-L2) -/

/-- The window of the small panel and then these data bytes. -/
def sent (bs : List Byte) : List BusEvent := cmds [0x21, 0x00, 0x03, 0x22, 0x00, 0x01] ++ datas bs

/-- V-X1, V-X2, V-X3, V-X4, V-X5. -/
theorem test_xfer_rectangles :
    traceOf (.xfer 0 0 4 16 0x400) source = some (sent [0x10, 0x11, 0x12, 0x13, 0x14, 0x15, 0x16, 0x17]) ∧
    traceOf (.xfer (-1) 0 6 16 0x400) source = some (sent [0x11, 0x12, 0x13, 0x14, 0x17, 0x18, 0x19, 0x1A]) ∧
    traceOf (.xfer 2 0 4 16 0x400) source = some (sent [0x10, 0x11, 0x14, 0x15]) ∧
    traceOf (.xfer 0 8 4 16 0x400) source = some (sent [0x10, 0x11, 0x12, 0x13]) ∧
    traceOf (.xfer 0 (-8) 4 16 0x400) source = some (sent [0x14, 0x15, 0x16, 0x17]) := by decide

/-- V-X6, V-X8, V-X9, V-X10, V-X12, V-X14. -/
theorem test_xfer_corners :
    traceOf (.xfer 0 (-3) 4 16 0x400) source = some (sent [0x14, 0x15, 0x16, 0x17]) ∧
    traceOf (.xfer 0 0 4 12 0x400) source = some (sent [0x10, 0x11, 0x12, 0x13, 0x14, 0x15, 0x16, 0x17]) ∧
    traceOf (.xfer 0 0 2 1 0x400) source = some (sent [0x10, 0x11]) ∧
    traceOf (.xfer 0 0 0 16 0x400) source = some (sent []) ∧
    traceOf (.xfer 4 0 4 16 0x400) source = some (sent []) ∧
    traceOf (.xfer 0 0 4 24 0x400) source = some (sent [0x10, 0x11, 0x12, 0x13, 0x14, 0x15, 0x16, 0x17]) := by decide

/-- R143: the counter "only per byte sent" reads offsets 0 to 7 where the formula skips (P5); the counter "once per column
visited" differs only where a page row is skipped. -/
theorem test_xfer_other_counters :
    xferOffsets { panel.cfg with xferOffset := .perByteSent } (-1) 0 6 16 = [0, 1, 2, 3, 4, 5, 6, 7] ∧
    xferOffsets { panel.cfg with xferOffset := .perColumn } (-1) 0 6 16 = [1, 2, 3, 4, 7, 8, 9, 10] ∧
    xferOffsets { panel.cfg with xferOffset := .perColumn } 0 (-8) 4 16 = [0, 1, 2, 3] := by decide

/-- P2's step 8. -/
theorem test_update :
    traceOf .update (buffered [1, 0, 0, 0, 0, 2, 0, 0x80]) = some (sent [1, 0, 0, 0, 0, 2, 0, 0x80]) := by decide

/-- V-L2: the byte past the buffer is untouched. -/
theorem test_clearbuf :
    bytesOf .clearbuf 0x100 9 (buffered [0xAA, 0xAA, 0xAA, 0xAA, 0xAA, 0xAA, 0xAA, 0xAA, 0xBB]) =
      some [0, 0, 0, 0, 0, 0, 0, 0, 0xBB] := by decide

/-! ### The fills (V-F2 to V-F6) -/

theorem test_fillscreen : traceOf (.fillscreen 0x3C 500) panel = some
    (cmds [0xB0, 0x10, 0x00] ++ datas [0x3C, 0x3C, 0x3C, 0x3C] ++ (cmds [0xB1, 0x10, 0x00] ++ datas [0x3C, 0x3C, 0x3C, 0x3C])) := by
  decide

theorem test_fillpage :
    traceOf (.fillpage 1 0xAA 0) panel = some (cmds [0xB1, 0x10, 0x00] ++ datas [0xAA, 0xAA, 0xAA, 0xAA]) ∧
    traceOf (.fillpage 0x40 0x55 0) panel = some (cmds [0xF0, 0x10, 0x00] ++ datas [0x55, 0x55, 0x55, 0x55]) := by decide

/-! ### Controls (V-C1 to V-C13), on a panel of height 32 -/

/-- The instance of 95_test_vectors.md 2.5. -/
def panel32 : State := State.ofConfig { defaultConfig with height := .h32 }

theorem test_controls :
    traceOf .powerdown panel32 = some (cmds [0xAE]) ∧ traceOf (.setenabled true) panel32 = some (cmds [0xAF]) ∧
    traceOf (.setenabled false) panel32 = some (cmds [0xAE]) ∧ traceOf (.setcontrast 0xFF) panel32 = some (cmds [0x81, 0xFF]) ∧
    traceOf (.setinvert true) panel32 = some (cmds [0xA7]) ∧ traceOf (.setinvert false) panel32 = some (cmds [0xA6]) ∧
    traceOf .stopscroll panel32 = some (cmds [0x2E]) ∧
    traceOf .checkconn panel32 = some [.read 0x3C 1] := by decide

theorem test_scrolls :
    traceOf (.scrollHr 2 5) panel32 = some (cmds [0x26, 0x00, 0x02, 0x00, 0x05, 0x00, 0xFF, 0x2F]) ∧
    traceOf (.scrollHl 2 5) panel32 = some (cmds [0x27, 0x00, 0x02, 0x00, 0x05, 0x00, 0xFF, 0x2F]) ∧
    traceOf (.scrollDr 2 5) panel32 = some (cmds [0xA3, 0x00, 0x20, 0x29, 0x00, 0x02, 0x00, 0x05, 0x01, 0x2F]) ∧
    traceOf (.scrollDl 2 5) panel32 = some (cmds [0xA3, 0x00, 0x20, 0x2A, 0x00, 0x02, 0x00, 0x05, 0x01, 0x2F]) := by decide

/-- V-C13 to V-C15: the response is the transport's count, whatever it is. -/
theorem test_checkconn_answers_the_count :
    responseOf .checkconn panel32 = some (.done (Config.busReadCount 0)) := rfl

/-! ### Faults, the step, the far side -/

/-- V-P27, V-X15, V-L1, V-D8: no handle; V-F8: the fills need none. -/
theorem test_no_buffer :
    responseOf (.setpixel 0 0 1) panel = some (.fault .noBuffer) ∧ responseOf .update panel = some (.fault .noBuffer) ∧
    traceOf .update panel = some [] ∧ responseOf .clearbuf panel = some (.fault .noBuffer) ∧
    responseOf (.drawbitmap 0 0 8 1 0x300 false) panel = some (.fault .noBuffer) ∧
    responseOf (.fillscreen 0 0) panel = some (.done 0) := by decide

/-- P4's step 4, and a whole step of the machine: the descriptor leaves the port. -/
theorem test_step :
    (nextOf (step (State.reset.withFetchWord 128 0xFF))).bind lastResponse = some (.fault .illegalOperation) ∧
    (nextOf (step (State.reset.withFetchWord 128 0x203))).map (fun t => (t.rot, t.host)) = some (2, []) := by decide

/-- U9: an access above `2^32 - 1` is refused. -/
theorem test_refusal_past_space :
    refusalOf (exec (.xfer 0 0 4 8 0xFFFFFFFF) panel) = some .addressPastSpace ∧
    refusalOf (exec (.xfer 0 0 1 8 0xFFFFFFFF) panel) = none := by decide

theorem test_response_words :
    (Response.done 1).word = 0x0000000000000001 ∧ (Response.done (-1)).word = 0x00000000FFFFFFFF ∧
    (Response.fault .illegalOperation).word = 0x8000000000000001 ∧ (Response.fault .noBuffer).word = 0x8000000000000002 := by
  decide

/-- P2's remark: under the sink of R63, display RAM page 1 is `00 02 00 80` after the update. -/
theorem test_sink :
    (nextOf (exec .update (buffered [1, 0, 0, 0, 0, 2, 0, 0x80]))).map (fun t =>
      let k := sinkRun t.cfg false ⟨[], 9, 9, 9, 9, 9, 9, none⟩ t.trace
      [k.cell 0 0, k.cell 1 0, k.cell 1 1, k.cell 1 2, k.cell 1 3]) = some [1, 0, 2, 0, 0x80] := by decide

/-- R63: the lit pixels of column 3 after the same update: the framebuffer's bit 7 of byte 7 is the panel's row 15. -/
theorem test_sink_pixel :
    (nextOf (exec .update (buffered [1, 0, 0, 0, 0, 2, 0, 0x80]))).map (fun t =>
      let k := sinkRun t.cfg false ⟨[], 9, 9, 9, 9, 9, 9, none⟩ t.trace
      [k.pixel 0 0, k.pixel 1 9, k.pixel 3 15, k.pixel 3 14]) = some [true, true, true, false] := by decide

/-- R197, U10: INIT on a transport that answers three calls and not the fourth: four frames are on the trace, no response is
given, and no step follows, whatever the host asks. -/
theorem test_silent_transport :
    (nextOf (exec .init (answering 3 panel))).map (fun t => (t.trace, t.responses, t.blocked)) =
      some (cmds [0xAE, 0xD5, 0x80, 0xA8], [], true) ∧
    (nextOf (step { silenced with host := [.issue 0x203] })).map (fun t => (t.rot, t.host)) = some (0, [.issue 0x203]) ∧
    responseOf (.setrot 1) (answering 0 panel) = some (.done 0) := by decide

/-- R9, R220: construction fails on equal control bytes, and on a height outside the enumeration. -/
theorem test_construction_fails :
    State.construct { defaultParameters with ctrlCmd := 0x40 } = none ∧
    State.construct { defaultParameters with height := 40 } = none := ⟨rfl, rfl⟩

/-! ### Witnesses: for every statement with premises, a state and operands that meet all of them together -/

theorem test_witness_DecodeOfEncode : (Instr.setpixel (-1) 3 2).wf = true := by decide

theorem test_witness_EncodeOfDecode : decode 0x203#128 = .ok (.setrot 2) := by decide

theorem test_witness_DecodeAgreesWithOpcodeTable :
    (0x203#128 &&& Op.setrot.format.tableMask = Op.setrot.tableMatch) ∧
    (0x310#128 &&& Op.setpixel.format.tableMask = Op.setpixel.tableMatch ∧ (0x310#128).extractLsb' 8 2 = 3#2) := by decide

/-- Clause (a). -/
theorem test_witness_IllegalDescriptorFaults_a :
    State.reset.blocked = false ∧ { State.reset with host := [.issue 0xFF#128] }.host = .issue 0xFF#128 :: [] ∧
      ∀ o : Op, o.code ≠ (0xFF#128).extractLsb' 0 8 :=
  ⟨rfl, rfl, fun o => by cases o <;> decide⟩

/-- Clause (b). -/
theorem test_witness_IllegalDescriptorFaults_b :
    ∃ o : Op, o.code = (0x01000021#128).extractLsb' 0 8 ∧
      0x01000021#128 &&& (o.format.tableMask &&& ~~~ 0xFF#128) ≠ 0#128 :=
  ⟨.update, by decide⟩

/-- Clause (c). -/
theorem test_witness_IllegalDescriptorFaults_c :
    (0x310#128).extractLsb' 0 8 = 0x10#8 ∧ (0x310#128).extractLsb' 8 2 = 3#2 := by decide

/-- None of the clauses. -/
theorem test_witness_IllegalDescriptorFaults_legal :
    ¬ ((∀ o : Op, o.code ≠ (0x203#128).extractLsb' 0 8) ∨
      (∃ o : Op, o.code = (0x203#128).extractLsb' 0 8 ∧
        0x203#128 &&& (o.format.tableMask &&& ~~~ 0xFF#128) ≠ 0#128) ∨
      ((0x203#128).extractLsb' 0 8 = 0x10#8 ∧ (0x203#128).extractLsb' 8 2 = 3#2)) := by
  rintro (h | ⟨o, h, hb⟩ | h)
  · exact h .setrot (by decide)
  · revert h hb
    cases o <;> decide
  · revert h
    decide

theorem test_witness_StoredDescriptorDecodes :
    decodeBytes [0x21, 0, 0, 0, 0, 0, 0, 0, 0, 0, 0, 0, 0, 0, 0, 0] = .ok .update := by decide

/-- Operands at both ends of their ranges. -/
theorem test_witness_AssembledLineIsLegal :
    assemble "SETPIXEL 0, 0, INVERT".toList = some (.setpixel 0 0 2) ∧
    assemble "XFER -32768, 32767, 65535, 0, 4294967295".toList = some (.xfer 0x8000 0x7FFF 0xFFFF 0 0xFFFFFFFF) ∧
    assemble "DRAWBITMAP -1, 0, 8, 2, 768, 1".toList = some (.drawbitmap (-1) 0 8 2 0x300 true) := by decide

theorem test_witness_StepRunsDecodedOperation :
    { State.reset with host := [.issue 0x203#128] }.blocked = false ∧
    { State.reset with host := [.issue 0x203#128] }.host = .issue 0x203#128 :: [] ∧ decode 0x203#128 = .ok (.setrot 2) ∧
    silenced.blocked = true := by
  decide

theorem test_witness_HostStoresBetweenOperations :
    { State.reset with host := [.store 0xFFFFFFFF 5] }.blocked = false ∧
    { State.reset with host := [.store 0xFFFFFFFF 5] }.host = .store 0xFFFFFFFF 5 :: [] ∧ State.reset.host = [] := by decide

theorem test_witness_ResetValues : State.construct { defaultParameters with width := 1, height := 16 } =
    some (State.ofConfig { defaultConfig with width := 1, height := .h16 }) := rfl

/-- Each bound of R9 from both sides. -/
theorem test_witness_ConstructionRejectsUnsupportedGeometry :
    constructs defaultParameters = true ∧ constructs { defaultParameters with width := 1, height := 16, busAddr := 0 } = true ∧
    constructs { defaultParameters with width := 256, height := 32, busAddr := 127 } = true ∧
    constructs { defaultParameters with width := 257 } = false ∧ constructs { defaultParameters with width := 0 } = false ∧
    constructs { defaultParameters with height := 48 } = false ∧ constructs { defaultParameters with busAddr := 128 } = false ∧
    constructs { defaultParameters with ctrlData := 0x00 } = false := by decide

theorem test_witness_InitSequence :
    panel.willAnswer 26 = true ∧ (answering 26 panel).willAnswer 26 = true ∧ (answering 25 panel).willAnswer 26 = false := by
  decide

/-- The three results of SETBUF, at the boundaries of their conditions. -/
theorem test_witness_SetbufResult :
    ((63 : Half).toNat % 8 ≠ 0) ∧ ((64 : Half).toNat % 8 = 0 ∧ (1024 : Addr).toNat = (128 : Half).toNat * ((64 : Half).toNat / 8)) ∧
    ((0 : Half).toNat % 8 = 0 ∧ (0 : Addr).toNat = (0 : Half).toNat * ((0 : Half).toNat / 8) ∧ (1 : Addr) ≠ 0#32) := by decide

theorem test_witness_ConfigurationOrderIsFree : ∃ a b c d,
    panel.willAnswer 26 = true ∧ Instr.init.op = .init ∧ (Instr.setbuf 4 16 0x100 8).op = .setbuf ∧ Instr.init.op ≠ (Instr.setbuf 4 16 0x100 8).op ∧
    exec .init panel = .next a ∧ exec (.setbuf 4 16 0x100 8) a = .next b ∧
    exec (.setbuf 4 16 0x100 8) panel = .next c ∧ exec .init c = .next d :=
  ⟨_, _, _, _, rfl, rfl, rfl, by decide, rfl, rfl, rfl, rfl⟩

theorem test_witness_ConfigurationOrderIsFree_rotation : ∃ a b c d,
    (Instr.setrot 3).op ≠ (Instr.setbuf 4 16 0x100 8).op ∧
    exec (.setrot 3) panel = .next a ∧ exec (.setbuf 4 16 0x100 8) a = .next b ∧
    exec (.setbuf 4 16 0x100 8) panel = .next c ∧ exec (.setrot 3) c = .next d :=
  ⟨_, _, _, _, by decide, rfl, rfl, rfl, rfl⟩

theorem test_witness_RotcalcTransforms : ((-1 : Int) < 0 ∨ (0 : Int) < 0) ∧ ((0 : Int) < 0 ∨ (-1 : Int) < 0) := by decide

theorem test_witness_RotcalcBijection :
    16 % 8 = 0 ∧ rotcalc 1#2 4 16 15 3 = some (4, 7) ∧ 4 < 4 * (16 / 8) ∧ 7 < 8 := by decide

/-- One state and operands for each branch; in range, the last pixel under rotations 0 and 1. -/
theorem test_witness_SetpixelResult :
    (0 : BitVec 2) ≠ 3#2 ∧ panel.bufValid = false ∧ (buffered []).bufValid ≠ false ∧ (blitState 1).bufValid ≠ false ∧
    ((buffered []).bufW.toNat : Int) ≤ (4 : Half).toInt ∧ ((blitState 1).bufW.toNat : Int) ≤ (8 : Half).toInt ∧
    ¬ ((3 : Half).toInt < 0 ∨ ((buffered []).bufW.toNat : Int) ≤ (3 : Half).toInt ∨ (15 : Half).toInt < 0 ∨
      ((buffered []).bufH.toNat : Int) ≤ (15 : Half).toInt) ∧
    ¬ ((15 : Half).toInt < 0 ∨ ((blitState 1).bufH.toNat : Int) ≤ (15 : Half).toInt ∨ (7 : Half).toInt < 0 ∨
      ((blitState 1).bufW.toNat : Int) ≤ (7 : Half).toInt) ∧
    (buffered []).bufBase.toNat + (buffered []).bufW.toNat * (15 / 8) + 3 < 2 ^ 32 ∧
    (blitState 1).bufBase.toNat + (blitState 1).bufW.toNat * (15 / 8) + 0 < 2 ^ 32 := by decide

/-- One state for each of the four sides, and for a rotated one. -/
theorem test_witness_SetpixelOutOfRangeDropped :
    (buffered []).bufValid = true ∧ (-1 : Half).toInt < 0 ∧
    (if (buffered []).rot = 1#2 ∨ (buffered []).rot = 3#2 then ((buffered []).bufH.toNat : Int) else (buffered []).bufW.toNat) ≤
      (4 : Half).toInt ∧
    (if (buffered []).rot = 1#2 ∨ (buffered []).rot = 3#2 then ((buffered []).bufW.toNat : Int) else (buffered []).bufH.toNat) ≤
      (16 : Half).toInt ∧
    (if (blitState 1).rot = 1#2 ∨ (blitState 1).rot = 3#2 then ((blitState 1).bufH.toNat : Int) else (blitState 1).bufW.toNat) ≤
      (16 : Half).toInt := by decide

theorem test_witness_SetpixelChangesOneBit : ∃ t,
    (buffered []).bufValid = true ∧ (2 : BitVec 2) ≠ 3#2 ∧
    rotcalc (buffered []).rot (buffered []).bufW.toNat (buffered []).bufH.toNat (3 : Half).toInt (15 : Half).toInt = some (7, 7) ∧
    exec (.setpixel 3 15 2) (buffered []) = .next t :=
  ⟨_, by decide, by decide, by decide, rfl⟩

theorem test_witness_InvertTwiceRestores : ∃ t u,
    exec (.setpixel 3 15 2#2) (buffered []) = .next t ∧ exec (.setpixel 3 15 2#2) t = .next u :=
  ⟨_, _, rfl, rfl⟩

theorem test_witness_XferOffsetsClosedForm : panel.cfg.xferOffset = .formula := by decide

theorem test_witness_XferCountersAgreeUnskipped :
    (0 : Int) ≤ 0 ∧ (0 : Int) + (4 : Nat) ≤ panel.cfg.width ∧
    (0 : Int) + 8 * (((16 + 7) / 8 : Nat) : Int) < panel.cfg.height.pixels + 8 := by decide

/-- The source ends at the last byte of the space, and the transport's answers with the last frame. -/
theorem test_witness_XferResult :
    (0xFFFFFFF8 : Addr).toNat + (4 : Half).toNat * (((16 : Half).toNat + 7) / 8) = 2 ^ 32 ∧
    (answering 14 panel).willAnswer (6 + (xferOffsets panel.cfg (0 : Half).toInt (0 : Half).toInt (4 : Half).toNat
      (16 : Half).toNat).length) = true := by decide

theorem test_witness_XferSendsRectangle :
    panel.cfg.xferOffset = .formula ∧
    (0xFFFFFFF8 : Addr).toNat + (4 : Half).toNat * (((16 : Half).toNat + 7) / 8) ≤ 2 ^ 32 ∧
    (answering 10 panel).willAnswer (6 + (xferOffsets panel.cfg (2 : Half).toInt (0 : Half).toInt (4 : Half).toNat
      (16 : Half).toNat).length) = true := by decide

theorem test_witness_UpdateIsXferOfBuffer :
    panel.bufValid = false ∧ (buffered []).bufValid ≠ false ∧
    (buffered []).bufBase.toNat + (buffered []).bufW.toNat * (((buffered []).bufH.toNat + 7) / 8) ≤ 2 ^ 32 ∧
    (buffered []).willAnswer (6 + (xferOffsets (buffered []).cfg 0 0 (buffered []).bufW.toNat
      (buffered []).bufH.toNat).length) = true := by decide

theorem test_witness_UpdateSendsWholeFramebuffer :
    (buffered []).bufValid = true ∧ (buffered []).bufW.toNat = (buffered []).cfg.width ∧
    (buffered []).bufH.toNat = (buffered []).cfg.height.pixels ∧
    (buffered []).bufBase.toNat + (buffered []).cfg.width * (buffered []).cfg.pages ≤ 2 ^ 32 ∧
    (answering 14 (buffered [])).willAnswer (6 + (buffered []).cfg.width * (buffered []).cfg.pages) = true := by decide

theorem test_witness_ClearbufResult :
    panel.bufValid = false ∧ (buffered [1]).bufValid ≠ false ∧
    (buffered [1]).bufBase.toNat + (buffered [1]).bufW.toNat * ((buffered [1]).bufH.toNat / 8) ≤ 2 ^ 32 := by decide

theorem test_witness_ClearThenUpdateSendsZeros : ∃ t u,
    (buffered [1]).handleOk = true ∧ exec .clearbuf (buffered [1]) = .next t ∧ exec .update t = .next u ∧
    (buffered [1]).bufValid = true ∧
    t.willAnswer (6 + (xferOffsets (buffered [1]).cfg 0 0 (buffered [1]).bufW.toNat (buffered [1]).bufH.toNat).length) = true :=
  ⟨_, _, by decide, rfl, rfl, by decide, by decide⟩

theorem test_witness_FillscreenResult :
    (answering 14 panel).willAnswer (panel.cfg.height.pixels / 8 * (3 + panel.cfg.width)) = true := by decide

theorem test_witness_FillpageResult : (answering 7 panel).willAnswer (3 + panel.cfg.width) = true := by decide

/-- A state for each branch of the chain, under rotation 1: `(LW, LH) = (16, 8)`. -/
theorem test_witness_DrawbitmapChecksInOrder :
    (blitState 1).bufValid = true ∧
    (16, 8) = (if (blitState 1).rot = 1#2 ∨ (blitState 1).rot = 3#2 then ((blitState 1).bufH.toNat, (blitState 1).bufW.toNat)
      else ((blitState 1).bufW.toNat, (blitState 1).bufH.toNat)) ∧
    ((16 : Nat) : Int) ≤ (16 : Half).toInt ∧
    (¬ ((15 : Half).toInt < 0 ∨ ((16 : Nat) : Int) ≤ (15 : Half).toInt ∨ (7 : Half).toInt < 0 ∨ ((8 : Nat) : Int) ≤ (7 : Half).toInt)) ∧
    (8 < (9 : Half).toNat ∧ ¬ (16 < (16 : Half).toNat ∨ 8 < (8 : Half).toNat)) ∧
    ((0x300 : Addr) ≠ 0#32 ∧ (15 : Half).toNat % 8 ≠ 0 ∧ (16 : Half).toNat % 8 = 0) ∧
    (blitState 1).bufH.toNat % 8 = 0 ∧
    (blitState 1).bufBase.toNat + (blitState 1).bufW.toNat * ((blitState 1).bufH.toNat / 8) ≤ 2 ^ 32 ∧
    (0x300 : Addr).toNat + (8 : Half).toNat * ((16 : Half).toNat / 8) ≤ 2 ^ 32 := by decide

theorem test_witness_DrawbitmapPixels : ∃ t,
    (blitState 1).bufValid = true ∧ (blitState 1).bufH.toNat % 8 = 0 ∧
    checkBlit (logicalDims (blitState 1).rot (blitState 1).bufW.toNat (blitState 1).bufH.toNat) (0 : Half).toInt (0 : Half).toInt 8 2
      0x300 = .success ∧
    (blitState 1).bufBase.toNat + (blitState 1).bufW.toNat * ((blitState 1).bufH.toNat / 8) ≤ (0x300 : Addr).toNat ∧
    exec (.drawbitmap 0 0 8 2 0x300 true) (blitState 1) = .next t ∧
    (1 < (2 : Half).toNat ∧ 7 < (8 : Half).toNat ∧
      rotcalc (blitState 1).rot (blitState 1).bufW.toNat (blitState 1).bufH.toNat ((0 : Half).toInt + (7 : Nat))
        ((0 : Half).toInt + (1 : Nat)) = some (6, 7)) ∧
    8 < (blitState 1).bufW.toNat * ((blitState 1).bufH.toNat / 8) :=
  ⟨_, by decide, by decide, by decide, by decide, rfl, by decide, by decide⟩

theorem test_witness_DisplayControls :
    (answering 1 panel).willAnswer 1 = true ∧ (answering 2 panel).willAnswer 2 = true := by decide

/-- A configuration whose `SCROLL_SEQ.HR` is no template. -/
theorem test_witness_ScrollSendsItsSequence :
    let q : ScrollSequence := ⟨[.start], [((2, 5), [7, 8, 9])]⟩
    let s := State.ofConfig { defaultConfig with scroll := { defaultScroll with hr := q } }
    s.cfg.scroll.hr = q ∧ s.willAnswer 3 = true ∧
      traceOf (.scrollHr 2 5) s = some (cmds [7, 8, 9]) ∧ traceOf (.scrollHr 2 6) s = some (cmds [2]) := by decide

theorem test_witness_ScrollDefaultSequences :
    panel32.cfg.scroll = defaultScroll ∧ panel32.willAnswer 8 = true ∧ panel32.willAnswer 10 = true := by decide

theorem test_witness_CheckconnResult : (answering 1 panel).willAnswer 1 = true := by decide

theorem test_witness_AliasesBehaveAlike :
    (answering 24 panel).willAnswer 24 = true ∧ (buffered []).bufValid = true ∧ panel.bufValid ≠ true := by decide

theorem test_witness_NoBufferFault : ∃ t u,
    panel.bufValid = false ∧ (0 : BitVec 2) ≠ 3#2 ∧
    Instr.powerdown.op ≠ .setpixel ∧ Instr.powerdown.op ≠ .drawbitmap ∧ Instr.powerdown.op ≠ .clearbuf ∧
    Instr.powerdown.op ≠ .update ∧ exec .powerdown panel = .next t ∧ exec .powerdown (answering 0 panel) = .next u :=
  ⟨_, _, by decide, by decide, by decide, by decide, by decide, by decide, rfl, rfl⟩

theorem test_witness_OneResponseAndFaultsAreClean : ∃ t u v,
    (Instr.setpixel 3 15 1).wf = true ∧ exec (.setpixel 3 15 1) (buffered []) = .next t ∧
    exec (.setpixel 3 15 1) panel = .next u ∧ Instr.checkconn.wf = true ∧ exec .checkconn (answering 0 panel) = .next v :=
  ⟨_, _, _, by decide, rfl, rfl, by decide, rfl⟩

theorem test_witness_OnlyAddressesPastSpaceStop : exec (.xfer 0 0 4 8 0xFFFFFFFD) panel = .refused .addressPastSpace := rfl

/-- A buffer whose first byte is the last one of the space. -/
def edge : State := panel.storeHandle 0xFFFFFFFF 4 16

theorem test_witness_RefusedExactlyPastSpace :
    edge.bufValid = true ∧
    rotcalc edge.rot edge.bufW.toNat edge.bufH.toNat (0 : Half).toInt (0 : Half).toInt = some (0, 0) ∧
    rotcalc edge.rot edge.bufW.toNat edge.bufH.toNat (1 : Half).toInt (0 : Half).toInt = some (1, 0) ∧
    refusalOf (exec (.setpixel 0 0 1) edge) = none ∧ refusalOf (exec (.setpixel 1 0 1) edge) = some .addressPastSpace ∧
    refusalOf (exec .clearbuf edge) = some .addressPastSpace ∧ refusalOf (exec .update edge) = some .addressPastSpace := by decide

/-- DRAWBITMAP: the bitmap's last byte is the last of the space, or one past it; and a framebuffer past the space. -/
theorem test_witness_RefusedExactlyPastSpace_drawbitmap :
    (blitState 0).bufValid = true ∧
    checkBlit (logicalDims (blitState 0).rot (blitState 0).bufW.toNat (blitState 0).bufH.toNat) (0 : Half).toInt (0 : Half).toInt
      8 2 0xFFFFFFFF = .success ∧
    refusalOf (exec (.drawbitmap 0 0 8 2 0xFFFFFFFE false) (blitState 0)) = none ∧
    refusalOf (exec (.drawbitmap 0 0 8 2 0xFFFFFFFF false) (blitState 0)) = some .addressPastSpace ∧
    refusalOf (exec (.drawbitmap 0 0 8 1 0x300 false) (panel.storeHandle 0xFFFFFFFC 8 16)) = some .addressPastSpace := by decide

theorem test_witness_ConfigurationNeverWritten :
    (∃ t, step (State.reset.withFetchWord 128 0x203) = .next t) ∧ constructs { defaultParameters with busAddr := 0x3D } = true :=
  ⟨⟨_, rfl⟩, by decide⟩

theorem test_witness_RegistersHaveOneWriter : ∃ t u,
    exec (.setrot 2) panel = .next t ∧ t.rot ≠ panel.rot ∧
    exec (.setbuf 4 16 0x100 8) panel = .next u ∧
    (u.bufValid, u.bufBase, u.bufW, u.bufH) ≠ (panel.bufValid, panel.bufBase, panel.bufW, panel.bufH) :=
  ⟨_, _, rfl, by decide, rfl, by decide⟩

theorem test_witness_OperationFootprints : ∃ t u,
    exec .clearbuf (buffered [1]) = .next t ∧ Instr.clearbuf.op = .clearbuf ∧
    exec .update (buffered [1]) = .next u ∧ Instr.update.op ≠ .setpixel ∧ Instr.update.op ≠ .drawbitmap ∧
    Instr.update.op ≠ .clearbuf :=
  ⟨_, _, rfl, rfl, rfl, by decide⟩

theorem test_witness_WritesStayInFramebuffer : ∃ t,
    (buffered [1]).handleOk = true ∧ exec .clearbuf (buffered [1]) = .next t ∧
    ¬ ((buffered [1]).bufValid = true ∧ (buffered [1]).inBuffer 0x108) ∧ (buffered [1]).inBuffer 0x107 :=
  ⟨_, by decide, rfl, by unfold State.inBuffer; decide, by unfold State.inBuffer; decide⟩

theorem test_witness_DeadHandleIsUnread : State.reset.bufValid = false := by decide

theorem test_witness_StepAppendsLegalBusEvents : ∃ t, step (State.reset.withFetchWord 128 0x30) = .next t := ⟨_, rfl⟩

theorem test_witness_StepKeepsStateWf : ∃ t,
    ({ buffered [1, 0, 2] with host := [.store 0x101 7] }).wf = true ∧
    step { buffered [1, 0, 2] with host := [.store 0x101 7] } = .next t :=
  ⟨_, by decide, rfl⟩

theorem test_witness_ResetStateWf : constructs { defaultParameters with width := 256, height := 16 } = true := by decide

theorem test_witness_RunKeepsStateWfAndTrace : ∃ t,
    (State.reset.withFetchWord 128 0x30).wf = true ∧ (State.reset.withFetchWord 128 0x30).traceLegal = true ∧
    Sys2Proof.core.run 2 (State.reset.withFetchWord 128 0x30) = .next t :=
  ⟨_, by decide, by decide, rfl⟩

/-- A controller that holds anything, with no command pending. -/
def anySink : Sink := ⟨[(5, 0xEE)], 3, 9, 2, 1, 77, 4, none⟩

theorem test_witness_UpdateShowsFramebuffer : ∃ t,
    (buffered [1]).cfg.wf = true ∧ (buffered [1]).cfg.cmd = defaultCommands ∧ (buffered [1]).cfg.width ≤ 128 ∧
    (buffered [1]).bufValid = true ∧ (buffered [1]).bufW.toNat = (buffered [1]).cfg.width ∧
    (buffered [1]).bufH.toNat = (buffered [1]).cfg.height.pixels ∧
    (buffered [1]).willAnswer (6 + (buffered [1]).cfg.width * (buffered [1]).cfg.pages) = true ∧ anySink.pending = none ∧
    exec .update (buffered [1]) = .next t ∧ 7 < (buffered [1]).cfg.width * (buffered [1]).cfg.pages ∧
    3 < (buffered [1]).cfg.width ∧ 15 < (buffered [1]).cfg.height.pixels :=
  ⟨_, by decide, by decide, by decide, by decide, by decide, by decide, by decide, rfl, rfl, by decide, by decide, by decide⟩

theorem test_witness_XferFillsDisplayFromOrigin : ∃ t,
    source.cfg.wf = true ∧ source.cfg.cmd = defaultCommands ∧ source.cfg.width ≤ 128 ∧
    source.willAnswer (6 + (xferOffsets source.cfg (2 : Half).toInt (0 : Half).toInt (4 : Half).toNat (16 : Half).toNat).length) =
      true ∧ anySink.pending = none ∧
    exec (.xfer 2 0 4 16 0x400) source = .next t ∧
    (xferOffsets source.cfg (2 : Half).toInt (0 : Half).toInt (4 : Half).toNat (16 : Half).toNat)[3]? = some 5 :=
  ⟨_, by decide, by decide, by decide, by decide, rfl, rfl, by decide⟩

/-- The bitmap is the framebuffer's own first two bytes, so that the second row's byte is one that the first row has changed. -/
theorem test_witness_DrawbitmapDrawsByteByByte :
    (blitState 0).bufValid = true ∧ (blitState 0).bufH.toNat % 8 = 0 ∧
    checkBlit (logicalDims (blitState 0).rot (blitState 0).bufW.toNat (blitState 0).bufH.toNat) (0 : Half).toInt (0 : Half).toInt 8 2
      0x200 = .success ∧
    (blitState 0).bufBase.toNat + (blitState 0).bufW.toNat * ((blitState 0).bufH.toNat / 8) ≤ 2 ^ 32 ∧
    (0x200 : Addr).toNat + (2 : Half).toNat * ((8 : Half).toNat / 8) ≤ 2 ^ 32 ∧ (blitState 0).inBuffer 0x200 := by
  unfold State.inBuffer
  decide

/-- SETCONTRAST's two frames, with two answers left and with one; and a state that waits. -/
theorem test_witness_SilentTransportBlocksForGood : ∃ u v,
    (answering 2 panel).answersLeft = some 2 ∧ (answering 1 panel).answersLeft = some 1 ∧
    exec (.setcontrast 7) { answering 2 panel with answersLeft := none } = .next u ∧
    u.trace = (answering 2 panel).trace ++ cmds [0x81, 7] ∧
    exec (.setcontrast 7) { answering 1 panel with answersLeft := none } = .next v ∧
    v.trace = (answering 1 panel).trace ++ cmds [0x81, 7] ∧ silenced.blocked = true :=
  ⟨_, _, rfl, rfl, rfl, rfl, rfl, rfl, rfl⟩

end Sys2Proof.Tests
end

section
/-! SUPPORT. Scope (00_scope.md): what construction answers, the well-formedness of the state and what keeps it, and
the obligations on them. -/

namespace Sys2Proof

/-! ### Geometry and parameters (R5 to R9) -/

theorem PanelHeight.ofPixels_eq_some {n : Nat} {h : PanelHeight} : PanelHeight.ofPixels n = some h ↔ h.pixels = n := by
  constructor
  · intro hn
    unfold PanelHeight.ofPixels at hn
    split_ifs at hn with h16 h32 h64
    · cases hn; exact h16.symm
    · cases hn; exact h32.symm
    · cases hn; exact h64.symm
  · rintro rfl
    cases h <;> rfl

theorem PanelHeight.exists_pixels_eq {n : Nat} : (∃ h : PanelHeight, h.pixels = n) ↔ n = 16 ∨ n = 32 ∨ n = 64 := by
  constructor
  · rintro ⟨_ | _ | _, rfl⟩ <;> decide
  · rintro (rfl | rfl | rfl)
    · exact ⟨.h16, rfl⟩
    · exact ⟨.h32, rfl⟩
    · exact ⟨.h64, rfl⟩

/-- A bus address of at most 7 bits is held as it is (R6). -/
theorem busAddr_toNat {n : Nat} (h : n ≤ 127) : (BitVec.ofNat 7 n).toNat = n := by
  rw [BitVec.toNat_ofNat]
  omega

theorem Config.wf_iff {c : Config} : c.wf = true ↔ 1 ≤ c.width ∧ c.width ≤ 256 ∧ c.ctrlCmd ≠ c.ctrlData := by
  simp [Config.wf, and_assoc]

/-- The parameters that a configuration is constructed from: `constructConfig` read backwards (`constructConfig_eq_some`). -/
def Config.parameters (c : Config) : Parameters where
  width := c.width
  height := c.height.pixels
  busAddr := c.busAddr.toNat
  ctrlCmd := c.ctrlCmd
  ctrlData := c.ctrlData
  cmd := c.cmd
  scroll := c.scroll
  xferOffset := c.xferOffset

end Sys2Proof

namespace Sys2Proof.Machine

/-! ### Construction (R9, R220) -/

/-- Construction answers exactly the well-formed configuration with these parameters. -/
theorem constructConfig_eq_some {p : Parameters} {c : Config} :
    constructConfig p = some c ↔ c.wf = true ∧ c.parameters = p := by
  constructor
  · intro h
    unfold constructConfig at h
    split at h
    · cases h
    · next height hh =>
      rw [PanelHeight.ofPixels_eq_some] at hh
      simp only [Option.ite_none_right_eq_some, Bool.and_eq_true, decide_eq_true_eq, Option.some.injEq] at h
      obtain ⟨⟨hwf, haddr⟩, rfl⟩ := h
      exact ⟨hwf, by simp only [Config.parameters, hh, busAddr_toNat haddr]⟩
  · rintro ⟨hwf, rfl⟩
    have hh : PanelHeight.ofPixels c.parameters.height = some c.height := PanelHeight.ofPixels_eq_some.2 rfl
    have haddr : c.busAddr.toNat ≤ 127 := Nat.le_of_lt_succ c.busAddr.isLt
    simp only [constructConfig, hh]
    simp [Config.parameters, hwf, haddr]

theorem State.construct_eq_some {p : Parameters} {s : State} :
    State.construct p = some s ↔ ∃ c : Config, c.wf = true ∧ c.parameters = p ∧ State.ofConfig c = s := by
  simp [State.construct, constructConfig_eq_some, and_assoc]

/-- The parameters of well-formed configurations, in terms of the parameters alone (R9). -/
theorem exists_wf_config_iff {p : Parameters} :
    (∃ c : Config, c.wf = true ∧ c.parameters = p) ↔
      (p.height = 16 ∨ p.height = 32 ∨ p.height = 64) ∧ 1 ≤ p.width ∧ p.width ≤ 256 ∧ p.busAddr ≤ 127 ∧
        p.ctrlCmd ≠ p.ctrlData := by
  constructor
  · rintro ⟨c, hwf, rfl⟩
    obtain ⟨hlo, hhi, hctrl⟩ := Config.wf_iff.1 hwf
    exact ⟨PanelHeight.exists_pixels_eq.1 ⟨c.height, rfl⟩, hlo, hhi, Nat.le_of_lt_succ c.busAddr.isLt, hctrl⟩
  · rintro ⟨hheight, hlo, hhi, haddr, hctrl⟩
    obtain ⟨h, hh⟩ := PanelHeight.exists_pixels_eq.2 hheight
    refine ⟨⟨p.width, h, BitVec.ofNat 7 p.busAddr, p.ctrlCmd, p.ctrlData, p.cmd, p.scroll, p.xferOffset⟩,
      Config.wf_iff.2 ⟨hlo, hhi, hctrl⟩, ?_⟩
    simp only [Config.parameters, hh, busAddr_toNat haddr]

/-! ### The well-formed state -/

theorem State.handleOk_iff {s : State} :
    s.handleOk = true ↔ (s.bufValid = true → s.bufBase ≠ 0#32 ∧ s.bufH.toNat % 8 = 0) := by
  cases hv : s.bufValid <;> simp [State.handleOk, hv]

theorem State.waitOk_iff {s : State} : s.waitOk = true ↔ (s.blocked = true → s.answersLeft = some 0) := by
  cases hb : s.blocked <;> simp [State.waitOk, hb]

theorem State.wf_iff {s : State} :
    s.wf = true ↔ s.cfg.wf = true ∧ s.mem.wf = true ∧ s.handleOk = true ∧ s.waitOk = true := by
  simp [State.wf, and_assoc]

@[simp] theorem State.ofConfig_wf (c : Config) : (State.ofConfig c).wf = c.wf := by
  simp [State.wf, State.ofConfig, Memory.wf, Memory.wfFrom, State.handleOk, State.waitOk]

/-! ### What keeps it, one rule per state operation -/

@[simp] theorem State.respond_wf (v : BitVec 32) (s : State) : (s.respond v).wf = s.wf := rfl
@[simp] theorem State.raise_wf (c : Cause) (s : State) : (s.raise c).wf = s.wf := rfl
@[simp] theorem State.setRot_wf (r : BitVec 2) (s : State) : (s.setRot r).wf = s.wf := rfl
@[simp] theorem drawCount_wf (s : State) : (drawCount s).2.wf = s.wf := rfl
@[simp] theorem State.withHost_wf (rest : List HostMove) (s : State) : ({ s with host := rest } : State).wf = s.wf := rfl

theorem State.withMem_wf {s : State} {m : Memory} (h : s.wf = true) (hm : m.wf = true) :
    ({ s with mem := m } : State).wf = true := by
  obtain ⟨hcfg, -, hhandle, hwait⟩ := State.wf_iff.1 h
  exact State.wf_iff.2 ⟨hcfg, hm, hhandle, hwait⟩

theorem State.storeHandle_wf {base : Addr} {w h : Half} {s : State} (hs : s.wf = true) (hbase : base ≠ 0#32)
    (hh : h.toNat % 8 = 0) : (s.storeHandle base w h).wf = true := by
  obtain ⟨hcfg, hmem, -, hwait⟩ := State.wf_iff.1 hs
  exact State.wf_iff.2 ⟨hcfg, hmem, State.handleOk_iff.2 fun _ => ⟨hbase, hh⟩, hwait⟩

/-- Answered calls keep the wait's clause: where FBSEQ waits no answer is left, before and after. -/
theorem State.emit_wf {es : List BusEvent} {s : State} (h : s.wf = true) : (s.emit es).wf = true := by
  obtain ⟨hcfg, hmem, hhandle, hwait⟩ := State.wf_iff.1 h
  refine State.wf_iff.2 ⟨hcfg, hmem, hhandle, State.waitOk_iff.2 fun hb => ?_⟩
  have hleft : s.answersLeft = some 0 := State.waitOk_iff.1 hwait hb
  simp [hleft]

theorem State.block_wf {es : List BusEvent} {s : State} (h : s.wf = true) : (s.block es).wf = true := by
  obtain ⟨hcfg, hmem, hhandle, -⟩ := State.wf_iff.1 h
  exact State.wf_iff.2 ⟨hcfg, hmem, hhandle, State.waitOk_iff.2 fun _ => State.block_answersLeft es s⟩

theorem DrawsInBuffer.wf {s t : State} (hd : DrawsInBuffer s t) (h : s.wf = true) : t.wf = true := by
  obtain ⟨m, rfl, hm, -⟩ := hd
  obtain ⟨-, hmem, -, -⟩ := State.wf_iff.1 h
  exact State.withMem_wf h (hm hmem)

/-- The host's byte goes to a 32-bit address, so memory stays canonical (R40, R57). -/
theorem State.hostStore_wf {s : State} (h : s.wf = true) (a : Addr) (v : Byte) :
    ({ s with mem := s.mem.write a.toNat v } : State).wf = true := by
  obtain ⟨-, hmem, -, -⟩ := State.wf_iff.1 h
  exact State.withMem_wf h (Memory.wf_write s.mem a.toNat v hmem a.isLt)

/-! ### Operations and steps -/

/-- Every case of a completed operation keeps the state well-formed. -/
theorem Effect.wf {i : Instr} {s t : State} (he : Effect i s t) (h : s.wf = true) : t.wf = true := by
  cases he with
  | illegal _ ht => rw [ht, State.raise_wf, h]
  | noBuffer _ _ ht => rw [ht, State.raise_wf, h]
  | rot r _ ht => rw [ht, State.respond_wf, State.setRot_wf, h]
  | notStored v _ ht => rw [ht, State.respond_wf, h]
  | stored base w hh _ hb hmod ht => rw [ht, State.respond_wf, State.storeHandle_wf h hb hmod]
  | drawn u v _ _ hu ht => rw [ht, State.respond_wf, hu.wf h]
  | sent es _ _ _ ht => rw [ht, State.respond_wf, State.emit_wf h]
  | probed _ _ ht => rw [ht, State.respond_wf, drawCount_wf, State.emit_wf h]
  | waiting es _ _ _ ht => rw [ht, State.block_wf h]

theorem exec_wf {i : Instr} {s t : State} (h : s.wf = true) (he : exec i s = .next t) : t.wf = true :=
  (exec_cases he).wf h

theorem step_wf {s t : State} (h : s.wf = true) (hstep : step s = .next t) : t.wf = true := by
  rcases step_cases hstep with ⟨-, rfl⟩ | ⟨-, ⟨a, v, rest, -, rfl⟩ | ⟨d, rest, -, ⟨i, -, he⟩ | ⟨-, rfl⟩⟩⟩
  · exact h
  · exact State.hostStore_wf (s := { s with host := rest }) h a v
  · exact exec_wf (s := { s with host := rest }) h he
  · rw [State.raise_wf, State.withHost_wf, h]

theorem step_blocked {s : State} (hb : s.blocked = true) : step s = .next s := by
  simp only [step, takeRequest_waiting hb]

theorem step_issue {s : State} {d : Descriptor} {rest : List HostMove} {i : Instr} (hb : s.blocked = false)
    (hhost : s.host = .issue d :: rest) (hd : decode d = .ok i) : step s = exec i { s with host := rest } := by
  simp only [step, takeRequest_issue hb hhost, hd]

/-! ### The obligations -/

/-- Settles O52: each case of `step_cases` keeps the invariant, by one rule per state operation. -/
theorem stepKeepsStateWf : Obligations.StepKeepsStateWf :=
  fun _ _ => step_wf

/-- Settles O12, by reading construction backwards: a configuration determines its parameters. -/
theorem constructionRejectsUnsupportedGeometry : Obligations.ConstructionRejectsUnsupportedGeometry := by
  intro p
  constructor
  · rw [← exists_wf_config_iff, State.construct, Option.isSome_map, Option.isSome_iff_exists]
    simp only [constructConfig_eq_some]
  · intro s hs
    obtain ⟨c, hwf, rfl, rfl⟩ := State.construct_eq_some.1 hs
    exact ⟨hwf, rfl, rfl, rfl, rfl, rfl, rfl, rfl, rfl, rfl⟩

/-- Settles O8, from what the request port answers. -/
theorem stepRunsDecodedOperation : Obligations.StepRunsDecodedOperation :=
  ⟨fun _ _ _ _ => step_issue, fun _ => step_blocked⟩

/-- Settles O11: the default parameters are those of the default configuration. -/
theorem resetIsDefaultInstance : Obligations.ResetIsDefaultInstance :=
  ⟨State.construct_eq_some.2 ⟨defaultConfig, by decide, rfl, rfl⟩, rfl, rfl, rfl, rfl, rfl⟩

/-- Settles O53: the fields after reset are well-formed when the configuration is. -/
theorem resetStateWf : Obligations.ResetStateWf := by
  constructor
  · rw [State.reset, State.ofConfig_wf]
    decide
  · intro p s hs
    obtain ⟨c, hwf, -, rfl⟩ := State.construct_eq_some.1 hs
    rw [State.ofConfig_wf, hwf]

end Sys2Proof.Machine
end

section
/-! SUPPORT. State (10_state.md): who writes the configuration, `ROT` and the handle, what a step and a run append to the bus
trace, that a dead handle is not read, and the obligations on them. -/

namespace Sys2Proof.Machine

/-! ### Legal bus events (30_encoding.md R85, R92) -/

@[simp] theorem cmdFrame_legal (c : Config) (b : Byte) : (cmdFrame c b).legal c = true := by
  simp [cmdFrame, BusEvent.legal]

@[simp] theorem dataFrame_legal (c : Config) (b : Byte) : (dataFrame c b).legal c = true := by
  simp [dataFrame, BusEvent.legal]

@[simp] theorem probe_legal (c : Config) : (BusEvent.read c.busAddr 1).legal c = true := by
  simp [BusEvent.legal]

theorem AllFrames.legal {c : Config} {es : List BusEvent} (h : AllFrames c es) : ∀ e ∈ es, e.legal c = true := by
  intro e he
  obtain ⟨b, rfl | rfl⟩ := h e he
  · exact cmdFrame_legal c b
  · exact dataFrame_legal c b

/-! ### What operations, steps and runs append to the trace -/

/-- From `s` to `t` the configuration is kept and the trace has only grown, by legal events. -/
structure Sends (s t : State) : Prop where
  cfg : t.cfg = s.cfg
  appended : ∃ es : List BusEvent, t.trace = s.trace ++ es ∧ ∀ e ∈ es, e.legal s.cfg = true

theorem Sends.nothing {s t : State} (hcfg : t.cfg = s.cfg) (htrace : t.trace = s.trace) : Sends s t :=
  ⟨hcfg, [], by rw [htrace, List.append_nil], by simp⟩

theorem Sends.trans {s t u : State} (h : Sends s t) (h' : Sends t u) : Sends s u := by
  obtain ⟨hcfg, es, htrace, hes⟩ := h
  obtain ⟨hcfg', es', htrace', hes'⟩ := h'
  rw [hcfg] at hes'
  refine ⟨hcfg'.trans hcfg, es ++ es', by rw [htrace', htrace, List.append_assoc], fun e he => ?_⟩
  exact (List.mem_append.1 he).elim (hes e) (hes' e)

theorem State.emit_sends {s : State} {es : List BusEvent} (hes : ∀ e ∈ es, e.legal s.cfg = true) : Sends s (s.emit es) :=
  ⟨rfl, es, rfl, hes⟩

/-- The events up to the unanswered call are some of those that were to be sent. -/
theorem State.block_sends {s : State} {es : List BusEvent} (hes : ∀ e ∈ es, e.legal s.cfg = true) : Sends s (s.block es) :=
  ⟨rfl, _, rfl, fun e he => hes e (List.mem_of_mem_take he)⟩

theorem DrawsInBuffer.sends {s t : State} (hd : DrawsInBuffer s t) : Sends s t := by
  obtain ⟨m, rfl, -⟩ := hd
  exact .nothing rfl rfl

theorem Effect.sends {i : Instr} {s t : State} (he : Effect i s t) : Sends s t := by
  cases he with
  | illegal _ ht | noBuffer _ _ ht | rot _ _ ht | notStored _ _ ht | stored _ _ _ _ _ _ ht =>
    subst ht; exact .nothing rfl rfl
  | drawn u v _ _ hu ht => subst ht; exact hu.sends.trans (.nothing rfl rfl)
  | sent es hes _ _ ht => subst ht; exact (State.emit_sends hes.legal).trans (.nothing rfl rfl)
  | probed _ _ ht => subst ht; exact (State.emit_sends (by simp)).trans (.nothing rfl rfl)
  | waiting es hes _ _ ht =>
    subst ht
    rcases hes with hes | rfl
    · exact State.block_sends hes.legal
    · exact State.block_sends (by simp)

theorem exec_sends {i : Instr} {s t : State} (h : exec i s = .next t) : Sends s t := (exec_cases h).sends

theorem step_sends {s t : State} (h : step s = .next t) : Sends s t := by
  rcases step_cases h with ⟨-, rfl⟩ | ⟨-, ⟨a, v, rest, -, rfl⟩ | ⟨d, rest, -, ⟨i, -, he⟩ | ⟨-, rfl⟩⟩⟩
  · exact .nothing rfl rfl
  · exact .nothing rfl rfl
  · have htaken : Sends s { s with host := rest } := .nothing rfl rfl
    exact htaken.trans (exec_sends he)
  · exact .nothing rfl rfl

theorem Sends.traceLegal {s t : State} (h : Sends s t) (hs : s.traceLegal = true) : t.traceLegal = true := by
  obtain ⟨hcfg, es, htrace, hes⟩ := h
  rw [State.traceLegal, htrace, hcfg, List.all_append, Bool.and_eq_true, List.all_eq_true (l := es)]
  exact ⟨hs, hes⟩

/-! ### Runs -/

/-- `t` is reached from `s` by steps that all answer a next state. -/
def Steps : State → State → Prop := Relation.ReflTransGen fun s t => step s = .next t

theorem run_succ_eq_next {M : Host.Core} {n : Nat} {s t : M.State} (h : M.run (n + 1) s = .next t) :
    ∃ u, M.step s = .next u ∧ M.run n u = .next t := by
  unfold Host.Core.run at h
  split at h
  · next u hu => exact ⟨u, hu, h⟩
  · cases h
  · cases h

theorem run_steps {n : Nat} {s t : State} (h : Sys2Proof.core.run n s = .next t) : Steps s t := by
  induction n generalizing s with
  | zero =>
    cases h
    exact .refl
  | succ n ih =>
    obtain ⟨u, hu, hrun⟩ := run_succ_eq_next h
    exact .head hu (ih hrun)

theorem Steps.wf {s t : State} (h : Steps s t) (hs : s.wf = true) : t.wf = true := by
  induction h with
  | refl => exact hs
  | tail _ hstep ih => exact step_wf ih hstep

theorem Steps.sends {s t : State} (h : Steps s t) : Sends s t := by
  induction h with
  | refl => exact .nothing rfl rfl
  | tail _ hstep ih => exact ih.trans (step_sends hstep)

/-! ### The writers of the registers (R25, R26) -/

/-- The four registers of the buffer handle. -/
def State.handle (s : State) : Bool × Addr × Half × Half := (s.bufValid, s.bufBase, s.bufW, s.bufH)

theorem Effect.rot_eq {i : Instr} {s t : State} (he : Effect i s t) (hop : i.op ≠ .setrot) : t.rot = s.rot := by
  cases he with
  | rot _ hrot _ => exact absurd hrot hop
  | drawn u v _ _ hu ht =>
    obtain ⟨m, rfl, -⟩ := hu
    subst ht
    rfl
  | illegal _ ht | noBuffer _ _ ht | notStored _ _ ht | stored _ _ _ _ _ _ ht | sent _ _ _ _ ht | probed _ _ ht
  | waiting _ _ _ _ ht => subst ht; rfl

theorem Effect.handle_cases {i : Instr} {s t : State} (he : Effect i s t) :
    t.handle = s.handle ∨ (i.op = .setbuf ∧ t.bufValid = true) := by
  cases he with
  | stored _ _ _ hop _ _ ht => subst ht; exact .inr ⟨hop, rfl⟩
  | drawn u v _ _ hu ht =>
    obtain ⟨m, rfl, -⟩ := hu
    subst ht
    exact .inl rfl
  | illegal _ ht | noBuffer _ _ ht | rot _ _ ht | notStored _ _ ht | sent _ _ _ _ ht | probed _ _ ht
  | waiting _ _ _ _ ht => subst ht; exact .inl rfl

/-! ### The dead handle (R26, 93_implementation_defined.md U15) -/

/-- The same state with other values in `BUF_BASE`, `BUF_W` and `BUF_H`. -/
def State.withHandle (base : Addr) (w h : Half) (s : State) : State := { s with bufBase := base, bufW := w, bufH := h }

theorem outcomesAgree_next_refl (t : State) : outcomesAgree (.next t) (.next t) :=
  ⟨rfl, rfl, rfl, rfl, rfl, rfl, fun _ => ⟨rfl, rfl, rfl⟩⟩

theorem memReads_withHandle (as : List Nat) (base : Addr) (w h : Half) (s : State) :
    memReads as (s.withHandle base w h) = memReads as s := by
  induction as with
  | nil => rfl
  | cons a as ih =>
    unfold memReads
    rw [ih]
    rfl

theorem transferFrames_withHandle (x y : Int) (n m src : Nat) (base : Addr) (w h : Half) (s : State) :
    transferFrames x y n m src (s.withHandle base w h) = transferFrames x y n m src s := by
  unfold transferFrames
  rw [memReads_withHandle]
  rfl

section
variable {s : State} (base : Addr) (w h : Half) (hv : s.bufValid = false)
include hv

theorem outcomesAgree_withHandle : outcomesAgree (.next s) (.next (s.withHandle base w h)) :=
  ⟨rfl, rfl, rfl, rfl, rfl, rfl, fun hvalid => by simp [hv] at hvalid⟩

/-- Bus calls that end without a valid handle do not show its registers, answered or not. -/
theorem busCalls_withHandle (es : List BusEvent) {k : State → Result}
    (hk : outcomesAgree (k (s.emit es)) (k ((s.emit es).withHandle base w h))) :
    outcomesAgree (busCalls es k s) (busCalls es k (s.withHandle base w h)) := by
  cases ha : s.willAnswer es.length with
  | true =>
    have ha' : (s.withHandle base w h).willAnswer es.length = true := ha
    rw [busCalls_answered k ha, busCalls_answered k ha']
    exact hk
  | false =>
    have ha' : (s.withHandle base w h).willAnswer es.length = false := ha
    rw [busCalls_unanswered k ha, busCalls_unanswered k ha']
    exact outcomesAgree_withHandle (s := s.block es) base w h hv

theorem sendFrames_withHandle (es : List BusEvent) :
    outcomesAgree (sendFrames es s) (sendFrames es (s.withHandle base w h)) :=
  busCalls_withHandle base w h hv es (outcomesAgree_withHandle (s := (s.emit es).respond 0#32) base w h hv)

theorem transferRegion_withHandle (x y : Int) (n m src : Nat) :
    outcomesAgree (transferRegion x y n m src s) (transferRegion x y n m src (s.withHandle base w h)) := by
  unfold transferRegion
  rw [transferFrames_withHandle]
  cases transferFrames x y n m src s with
  | none => rfl
  | some es => exact sendFrames_withHandle base w h hv es

/-- The buffer test turns both runs away, whatever would follow it (R192). -/
theorem withBuffer_withHandle (k k' : Result) :
    outcomesAgree (withBuffer s k) (withBuffer (s.withHandle base w h) k') := by
  have hv' : (s.withHandle base w h).bufValid = false := hv
  rw [withBuffer_invalid k hv, withBuffer_invalid k' hv']
  exact outcomesAgree_withHandle (s := s.raise .noBuffer) base w h hv

/-- SETBUF overwrites the registers on success and leaves them dead otherwise. -/
theorem execSetbuf_withHandle (w' h' : Half) (buffer size : Addr) :
    outcomesAgree (execSetbuf w' h' buffer size s) (execSetbuf w' h' buffer size (s.withHandle base w h)) := by
  unfold execSetbuf
  cases checkSetBuf w' h' buffer size with
  | ok => exact outcomesAgree_next_refl ((s.storeHandle buffer w' h').respond _)
  | errSize | errNull => exact outcomesAgree_withHandle (s := s.respond _) base w h hv

theorem execSetpixel_withHandle (x y : Half) (colour : BitVec 2) :
    outcomesAgree (execSetpixel x y colour s) (execSetpixel x y colour (s.withHandle base w h)) := by
  unfold execSetpixel
  cases Colour.ofCode colour with
  | none => exact outcomesAgree_withHandle (s := s.raise .illegalOperation) base w h hv
  | some c => exact withBuffer_withHandle base w h hv _ _

theorem execCheckconn_withHandle : outcomesAgree (execCheckconn s) (execCheckconn (s.withHandle base w h)) := by
  have hended := outcomesAgree_withHandle
    (s := (drawCount (s.emit [.read s.cfg.busAddr 1])).2.respond (Config.busReadCount s.draws)) base w h hv
  exact busCalls_withHandle base w h hv [.read s.cfg.busAddr 1] (k := fun t => ret (drawCount t).1 (drawCount t).2) hended

theorem exec_withHandle (i : Instr) : outcomesAgree (exec i s) (exec i (s.withHandle base w h)) := by
  cases i with
  | setbuf w' h' buffer size => exact execSetbuf_withHandle base w h hv w' h' buffer size
  | setrot r => exact outcomesAgree_withHandle (s := (s.setRot r).respond 0#32) base w h hv
  | setpixel x y colour => exact execSetpixel_withHandle base w h hv x y colour
  | drawbitmap | clearbuf | update => exact withBuffer_withHandle base w h hv _ _
  | xfer x y w' h' src => exact transferRegion_withHandle base w h hv _ _ _ _ _
  | checkconn => exact execCheckconn_withHandle base w h hv
  | init | fillscreen | fillpage | powerdown | setenabled | setcontrast | setinvert | scrollHr | scrollHl | scrollDr
  | scrollDl | stopscroll => exact sendFrames_withHandle base w h hv _

end

/-! ### Construction and the idle step (R34, R220) -/

theorem State.construct_config {p : Parameters} {s : State} (h : State.construct p = some s) :
    constructConfig p = some s.cfg := by
  obtain ⟨c, hwf, hp, rfl⟩ := State.construct_eq_some.1 h
  exact constructConfig_eq_some.2 ⟨hwf, hp⟩

/-- With no further move of the host nothing happens, waiting or not (log entry 1). -/
theorem step_noMove {s : State} (h : s.host = []) : step s = .next s := by
  cases hb : s.blocked with
  | true => exact step_blocked hb
  | false => simp only [step, takeRequest_idle hb h]

/-! ### The obligations -/

/-- Settles O54: a run is a chain of steps, each of which keeps the invariant of O52 and appends legal events. -/
theorem runKeepsStateWfAndTrace : Obligations.RunKeepsStateWfAndTrace := by
  intro n s t hwf hlegal hrun
  have hsteps : Steps s t := run_steps hrun
  obtain ⟨es, htrace, -⟩ := hsteps.sends.appended
  exact ⟨hsteps.wf hwf, hsteps.sends.traceLegal hlegal, es, htrace⟩

/-- Settles O46: no case of a step writes the configuration, and construction takes it from the parameters. -/
theorem configurationNeverWritten : Obligations.ConfigurationNeverWritten :=
  ⟨fun _ _ hstep => (step_sends hstep).cfg, fun _ _ => State.construct_config⟩

/-- Settles O47, from the cases of a completed operation: one of them writes `ROT`, one the handle. -/
theorem registersHaveOneWriter : Obligations.RegistersHaveOneWriter := by
  intro i s t h
  have he : Effect i s t := exec_cases h
  constructor
  · intro hrot
    by_contra hop
    exact hrot (he.rot_eq hop)
  · intro hhandle
    exact he.handle_cases.resolve_left hhandle

/-- Settles O50: the operations that read the handle test `BUF_VALID` first, the others do not look at it. -/
theorem deadHandleIsUnread : Obligations.DeadHandleIsUnread :=
  fun i _ base w h hv => exec_withHandle base w h hv i

/-- Settles O10: construction leaves the handle dead and the request port empty. -/
theorem resetValues : Obligations.ResetValues := by
  intro p s hs
  have hcfg : constructConfig p = some s.cfg := State.construct_config hs
  obtain ⟨c, -, -, rfl⟩ := State.construct_eq_some.1 hs
  exact ⟨rfl, rfl, hcfg, rfl, rfl, fun i base w h => exec_withHandle base w h rfl i, step_noMove rfl⟩

end Sys2Proof.Machine
end

section
/-! SUPPORT. Memory (20_memory.md): what an operation that completes leaves unchanged, where exactly an operation is refused,
and the obligations on them. -/

namespace Sys2Proof.Machine

/-! ### Footprints of the operations that complete (R40, R49, R53) -/

/-- Only a write into the framebuffer changes memory, and only with a handle (R49). -/
theorem Effect.mem_cases {i : Instr} {s t : State} (he : Effect i s t) :
    t.mem = s.mem ∨
      (s.bufValid = true ∧ (i.op = .setpixel ∨ i.op = .drawbitmap ∨ i.op = .clearbuf) ∧
        ∃ u, DrawsInBuffer s u ∧ t.mem = u.mem) := by
  cases he with
  | drawn u v hv hop hu ht => subst ht; exact .inr ⟨hv, hop, u, hu, rfl⟩
  | illegal _ ht | noBuffer _ _ ht | rot _ _ ht | notStored _ _ ht | stored _ _ _ _ _ _ ht | sent _ _ _ _ ht
  | probed _ _ ht | waiting _ _ _ _ ht => subst ht; exact .inl rfl

/-- The configuration and framebuffer operations put nothing on the bus (R40). -/
theorem Effect.trace_eq {i : Instr} {s t : State} (he : Effect i s t)
    (hop : i.op = .setbuf ∨ i.op = .setrot ∨ i.op = .setpixel ∨ i.op = .drawbitmap ∨ i.op = .clearbuf) :
    t.trace = s.trace := by
  cases he with
  | drawn u v _ _ hu ht =>
    obtain ⟨m, rfl, -⟩ := hu
    subst ht
    rfl
  | sent _ _ hbus _ _ | waiting _ _ hbus _ _ => simp [hbus] at hop
  | probed hbus _ _ => simp [hbus] at hop
  | illegal _ ht | noBuffer _ _ ht | rot _ _ ht | notStored _ _ ht | stored _ _ _ _ _ _ ht => subst ht; rfl

/-- An operation does not touch what is at the request port (log entry 1). -/
theorem Effect.host_eq {i : Instr} {s t : State} (he : Effect i s t) : t.host = s.host := by
  cases he with
  | drawn u v _ _ hu ht =>
    obtain ⟨m, rfl, -⟩ := hu
    subst ht
    rfl
  | illegal _ ht | noBuffer _ _ ht | rot _ _ ht | notStored _ _ ht | stored _ _ _ _ _ _ ht | sent _ _ _ _ ht
  | probed _ _ ht | waiting _ _ _ _ ht => subst ht; rfl

/-- A byte outside the framebuffer is not drawn on, where the buffer's height is a multiple of 8 (R53). -/
theorem DrawsInBuffer.read_outside {s u : State} (hd : DrawsInBuffer s u) (hH : s.bufH.toNat % 8 = 0) {a : Nat}
    (ha : ¬ s.inBuffer a) : u.mem.read a = s.mem.read a := by
  obtain ⟨m, rfl, -, hread⟩ := hd
  exact hread hH a ha

/-! ### The host's store between operations (R57) -/

theorem step_store {s : State} {a : Addr} {v : Byte} {rest : List HostMove} (hb : s.blocked = false)
    (hhost : s.host = .store a v :: rest) : step s = .next { s with mem := s.mem.write a.toNat v, host := rest } := by
  simp only [step, takeRequest_store hb hhost]

/-! ### Refusals (R53, 93_implementation_defined.md U9, log entry 7) -/

theorem busCalls_ne_refused {es : List BusEvent} {k : State → Result} {s : State} {r : Refusal}
    (hk : k (s.emit es) ≠ .refused r) : busCalls es k s ≠ .refused r := by
  cases ha : s.willAnswer es.length with
  | true => rwa [busCalls_answered k ha]
  | false => rw [busCalls_unanswered k ha]; exact nofun

theorem sendFrames_ne_refused (es : List BusEvent) (s : State) (r : Refusal) : sendFrames es s ≠ .refused r :=
  busCalls_ne_refused nofun

theorem withBuffer_eq_refused {s : State} {k : Result} {r : Refusal} :
    withBuffer s k = .refused r ↔ s.bufValid = true ∧ k = .refused r := by
  cases hv : s.bufValid with
  | true => simp [withBuffer_valid k hv]
  | false => simp [withBuffer_invalid k hv]

/-- The operations on the framebuffer are refused exactly where one of their accesses was past the space. -/
theorem withBuffer_finish_eq_refused {s : State} {o : Option State} {r : Refusal} :
    withBuffer s (finish o) = .refused r ↔ r = .addressPastSpace ∧ s.bufValid = true ∧ o = none := by
  rw [withBuffer_eq_refused, finish_eq_refused]
  tauto

theorem Colour.ofCode_eq_none {c : BitVec 2} : Colour.ofCode c = none ↔ c = 3#2 := by
  revert c
  decide

/-- A fill is cut short exactly where it runs past the space. -/
theorem memFill_eq_none {v : Byte} {n a : Nat} {s : State} : memFill v n a s = none ↔ 0 < n ∧ 2 ^ 32 < a + n := by
  constructor
  · intro h
    by_contra hc
    rcases Nat.eq_zero_or_pos n with rfl | hn
    · cases h
    · obtain ⟨t, ht⟩ := memFill_isSome (v := v) (by omega : a + n ≤ 2 ^ 32) s
      rw [ht] at h
      cases h
  · rintro ⟨hn, hgt⟩
    cases h : memFill v n a s with
    | none => rfl
    | some t =>
      obtain ⟨m, -, -, -, hspace⟩ := memFill_spec h
      have := hspace hn
      omega

theorem execSetpixel_eq_refused {x y : Half} {colour : BitVec 2} {s : State} {r : Refusal} :
    execSetpixel x y colour s = .refused r ↔
      colour ≠ 3#2 ∧ r = .addressPastSpace ∧ s.bufValid = true ∧
        ∃ k b, pixelPlace s x.toInt y.toInt = some (k, b) ∧ 2 ^ 32 ≤ s.bufBase.toNat + k := by
  unfold execSetpixel
  cases hc : Colour.ofCode colour with
  | none => simp [Colour.ofCode_eq_none.1 hc, fail_eq]
  | some c =>
    have hne : colour ≠ 3#2 := fun h => by simp [Colour.ofCode_eq_none.2 h] at hc
    simp only [withBuffer_finish_eq_refused, drawPixel_eq_none, coord, ne_eq, hne, not_false_eq_true, true_and]

theorem execDrawbitmap_eq_refused {x y w h : Half} {data : Addr} {invert : Bool} {s : State} {r : Refusal} :
    execDrawbitmap x y w h data invert s = .refused r ↔
      checkBlit (logicalDims s.rot s.bufW.toNat s.bufH.toNat) x.toInt y.toInt w h data = .success ∧
        r = .addressPastSpace ∧ s.bufValid = true ∧
        ∃ j i : Nat, j < h.toNat ∧ i < w.toNat ∧
          (2 ^ 32 ≤ data.toNat + j * (w.toNat / 8) + i / 8 ∨
            ∃ k b, pixelPlace s (x.toInt + (i : Int)) (y.toInt + (j : Int)) = some (k, b) ∧
              2 ^ 32 ≤ s.bufBase.toNat + k) := by
  unfold execDrawbitmap coord
  cases checkBlit (logicalDims s.rot s.bufW.toNat s.bufH.toNat) x.toInt y.toInt w h data with
  | success =>
    simp only [withBuffer_finish_eq_refused, blitRows_eq_none, PastSpace, bitmapAddr, Nat.zero_le, Nat.zero_add, true_and]
  | outOfScreenBounds | largerThanScreen | nullBitmapPointer | invalidWidthAlignment =>
    simp [withBuffer_eq_refused, ret_eq]

theorem execClearbuf_eq_refused {s : State} {r : Refusal} :
    execClearbuf s = .refused r ↔
      r = .addressPastSpace ∧ s.bufValid = true ∧ 0 < bufferBytes s ∧ 2 ^ 32 < s.bufBase.toNat + bufferBytes s := by
  rw [execClearbuf, withBuffer_finish_eq_refused, memFill_eq_none]

theorem execUpdate_eq_refused {s : State} {r : Refusal} :
    execUpdate s = .refused r ↔
      s.bufValid = true ∧ r = .addressPastSpace ∧
        ∃ o ∈ xferOffsets s.cfg 0 0 s.bufW.toNat s.bufH.toNat, 2 ^ 32 ≤ s.bufBase.toNat + o := by
  rw [execUpdate, withBuffer_eq_refused, transferRegion_eq_refused]

theorem execCheckconn_ne_refused (s : State) (r : Refusal) : execCheckconn s ≠ .refused r := by
  unfold execCheckconn
  exact busCalls_ne_refused nofun

/-- An operation that is refused has an address past the space on its access list (R49, R53). -/
theorem exec_refused_cases {i : Instr} {s : State} {r : Refusal} (h : exec i s = .refused r) :
    r = .addressPastSpace ∧ ∃ a, 2 ^ 32 ≤ a ∧ s.accesses a i := by
  cases i with
  | setpixel x y colour =>
    obtain ⟨hc, hr, hv, k, b, hk, hge⟩ := execSetpixel_eq_refused.1 h
    exact ⟨hr, _, hge, hc, hv, k, b, hk, rfl⟩
  | drawbitmap x y w hh data invert =>
    obtain ⟨hok, hr, hv, j, i, hj, hi, hge | ⟨k, b, hk, hge⟩⟩ := execDrawbitmap_eq_refused.1 h
    · exact ⟨hr, _, hge, hv, hok, j, i, hj, hi, .inl rfl⟩
    · exact ⟨hr, _, hge, hv, hok, j, i, hj, hi, .inr ⟨k, b, hk, rfl⟩⟩
  | clearbuf =>
    obtain ⟨hr, hv, hpos, hgt⟩ := execClearbuf_eq_refused.1 h
    refine ⟨hr, s.bufBase.toNat + bufferBytes s - 1, by omega, hv, ?_⟩
    constructor <;> omega
  | xfer x y w hh src =>
    obtain ⟨hr, o, ho, hge⟩ := transferRegion_eq_refused.1 h
    exact ⟨hr, _, hge, o, ho, rfl⟩
  | update =>
    obtain ⟨hv, hr, o, ho, hge⟩ := execUpdate_eq_refused.1 h
    exact ⟨hr, _, hge, hv, o, ho, rfl⟩
  | setbuf w hh buffer size =>
    simp only [exec, execSetbuf] at h
    split at h <;> cases h
  | setrot r => cases h
  | checkconn => exact absurd h (execCheckconn_ne_refused s r)
  | init | fillscreen | fillpage | powerdown | setenabled | setcontrast | setinvert | scrollHr | scrollHl | scrollDr
  | scrollDl | stopscroll => exact absurd h (sendFrames_ne_refused _ s r)

/-- The five operations that access memory (R49). -/
theorem State.accesses_op {s : State} {a : Nat} {i : Instr} (h : s.accesses a i) :
    i.op = .setpixel ∨ i.op = .drawbitmap ∨ i.op = .clearbuf ∨ i.op = .xfer ∨ i.op = .update := by
  cases i with
  | setpixel | drawbitmap | clearbuf | xfer | update => simp [Instr.op]
  | init | setbuf | setrot | fillscreen | fillpage | powerdown | setenabled | setcontrast | setinvert | scrollHr | scrollHl
  | scrollDr | scrollDl | stopscroll | checkconn => exact h.elim

/-! ### The obligations -/

/-- Settles O43: the refusals of each operation, and no fault exists. -/
theorem onlyAddressesPastSpaceStop : Obligations.OnlyAddressesPastSpaceStop := by
  intro i s
  refine ⟨fun r h => ?_, nofun⟩
  obtain ⟨hr, a, ha, hacc⟩ := exec_refused_cases h
  exact ⟨hr, ⟨a, ha, hacc⟩, State.accesses_op hacc⟩

/-- Settles O44, by the refusals of each of the five operations under its premises. -/
theorem refusedExactlyPastSpace : Obligations.RefusedExactlyPastSpace := by
  intro s
  refine ⟨fun x y colour k b hv hc hk => ?_, fun x y w h data invert hv hok => ?_, fun hv => ?_, fun x y w h src => ?_,
    fun hv => ?_⟩
  · have hplace : pixelPlace s x.toInt y.toInt = some (k, b) := hk
    simp [exec, execSetpixel_eq_refused, hv, hc, hplace]
  · rw [exec, execDrawbitmap_eq_refused]
    simp only [hok, hv, true_and]
    rfl
  · rw [exec, execClearbuf_eq_refused]
    simp only [hv, true_and]
    rfl
  · rw [exec, execXfer, transferRegion_eq_refused]
    simp only [true_and]
    rfl
  · rw [exec, execUpdate_eq_refused]
    simp only [hv, true_and]

/-- Settles O48, from the cases of a completed operation. -/
theorem operationFootprints : Obligations.OperationFootprints := by
  intro i s t h
  have he : Effect i s t := exec_cases h
  refine ⟨he.trace_eq, fun hpixel hbitmap hclear => ?_, he.host_eq⟩
  rcases he.mem_cases with hmem | ⟨-, hop, -⟩
  · exact hmem
  · simp [hpixel, hbitmap, hclear] at hop

/-- Settles O49: memory changes only by drawing, which stays in the framebuffer while the handle's invariants hold. -/
theorem writesStayInFramebuffer : Obligations.WritesStayInFramebuffer := by
  intro i s t hok h a ha
  rcases (exec_cases h).mem_cases with hmem | ⟨hv, -, u, hu, hmem⟩
  · rw [hmem]
  · obtain ⟨-, hH⟩ := State.handleOk_iff.1 hok hv
    rw [hmem]
    exact hu.read_outside hH fun hin => ha ⟨hv, hin⟩

/-- Settles O9: the step is one write of memory, and a step without a move does nothing. -/
theorem hostStoresBetweenOperations : Obligations.HostStoresBetweenOperations :=
  ⟨fun s a v _ hb hhost => ⟨_, step_store hb hhost, fun b => Memory.read_write s.mem a.toNat b v⟩, fun _ => step_noMove⟩

end Sys2Proof.Machine
end

section
/-! SUPPORT. The far side (20_memory.md R63, R64; informative, log entry 15): which offsets a transfer sends, and what its
frames leave in the sink. -/

namespace Sys2Proof

theorem Config.pixels_eq_pages (c : Config) : c.height.pixels = 8 * c.pages := by
  unfold Config.pages
  cases c.height <;> rfl

theorem Config.pages_bounds (c : Config) : 0 < c.pages ∧ c.pages ≤ 8 := by
  unfold Config.pages
  cases c.height <;> decide

end Sys2Proof

namespace Sys2Proof.Machine

/-! ### How many bytes a transfer sends, and which (42_transfer.md R141, R143) -/

theorem columnOnPanel_iff {c : Config} {x : Int} {col : Nat} :
    columnOnPanel c x col = true ↔ 0 ≤ x + col ∧ x + col < c.width := by
  simp [columnOnPanel]

theorem rowOnPanel_iff {c : Config} {y : Int} {page : Nat} :
    rowOnPanel c y page = true ↔ 0 ≤ y + page ∧ y + page < c.height.pixels := by
  simp [rowOnPanel]

/-- A page row sends no more bytes than there are panel columns from its first one on. -/
theorem xferColumns_length_le (c : Config) (x : Int) (w page n col counter m : Nat)
    (hm : (c.width : Int) ≤ max 0 (x + col) + m) : (xferColumns c x w page n col counter).1.length ≤ m := by
  induction n generalizing col counter m with
  | zero => exact Nat.zero_le m
  | succ n ih =>
    unfold xferColumns
    split
    · next hon =>
      rw [columnOnPanel_iff] at hon
      have hrest := ih (col + 1) (counter + 1) (m - 1) (by push_cast; omega)
      rw [List.length_cons]
      omega
    · exact ih (col + 1) _ m (by push_cast; omega)

/-- A transfer sends no more bytes than the panel has positions from its first page row on. -/
theorem xferRows_length_le (c : Config) (x y : Int) (w n page counter m : Nat)
    (hm : (c.height.pixels : Int) ≤ max 0 (y + page) + 8 * m) : (xferRows c x y w n page counter).length ≤ c.width * m := by
  induction n generalizing page counter m with
  | zero => exact Nat.zero_le _
  | succ n ih =>
    unfold xferRows
    split
    · next hon =>
      rw [rowOnPanel_iff] at hon
      obtain ⟨m, rfl⟩ : ∃ k, m = k + 1 := ⟨m - 1, by omega⟩
      have hrow := xferColumns_length_le c x w page w 0 counter c.width (by omega)
      have hrest := ih (page + 8) (xferColumns c x w page w 0 counter).2 m (by push_cast at hm ⊢; omega)
      rw [List.length_append, Nat.mul_succ]
      omega
    · exact ih (page + 8) counter m (by push_cast; omega)

theorem xferOffsets_length_le (c : Config) (x y : Int) (w h : Nat) : (xferOffsets c x y w h).length ≤ c.width * c.pages :=
  xferRows_length_le c x y w _ 0 0 c.pages (by rw [Config.pixels_eq_pages]; push_cast; omega)

/-- A page row of which no column is skipped sends consecutive offsets, under every setting of the offset switch. -/
theorem xferColumns_unskipped {c : Config} {x : Int} {w page n col counter : Nat}
    (hon : ∀ k, col ≤ k → k < col + n → columnOnPanel c x k = true) (hcounter : counter = w * (page / 8) + col) :
    xferColumns c x w page n col counter = (List.range' counter n, counter + n) := by
  induction n generalizing col counter with
  | zero => rfl
  | succ n ih =>
    have hoff : sentOffset c.xferOffset w page col counter = counter := by
      unfold sentOffset
      split <;> simp [hcounter]
    rw [xferColumns, if_pos (hon col (le_refl _) (by omega)),
      ih (fun k h1 h2 => hon k (by omega) (by omega)) (by omega), hoff, List.range'_succ, Nat.add_right_comm]
    rfl

/-- A transfer of which nothing is skipped sends consecutive offsets. -/
theorem xferRows_unskipped {c : Config} {x y : Int} {w n page counter : Nat}
    (hcol : ∀ k, k < w → columnOnPanel c x k = true) (hrow : ∀ r, r < n → rowOnPanel c y (page + 8 * r) = true)
    (hcounter : counter = w * (page / 8)) : xferRows c x y w n page counter = List.range' counter (w * n) := by
  induction n generalizing page counter with
  | zero => rfl
  | succ n ih =>
    have hcols := xferColumns_unskipped (n := w) (col := 0) (fun k _ hk => hcol k (by omega)) hcounter
    have hrows := ih (page := page + 8) (counter := counter + w)
      (fun r hr => by rw [show page + 8 + 8 * r = page + 8 * (r + 1) by ring]; exact hrow (r + 1) (by omega))
      (by rw [hcounter, Nat.add_div_right _ (by decide), Nat.mul_succ])
    have hfirst : rowOnPanel c y page = true := hrow 0 (Nat.succ_pos n)
    simp only [xferRows, hfirst, if_true, hcols, hrows]
    rw [Nat.mul_succ, Nat.add_comm (w * n), List.range'_append_1]

/-- The whole panel is sent byte by byte, in order (R144). -/
theorem xferOffsets_wholePanel (c : Config) :
    xferOffsets c 0 0 c.width c.height.pixels = List.range (c.width * c.pages) := by
  have hpages : (c.height.pixels + 7) / 8 = c.pages := by rw [Config.pixels_eq_pages]; omega
  rw [xferOffsets, hpages, List.range_eq_range']
  refine xferRows_unskipped (fun k hk => columnOnPanel_iff.2 ?_) (fun r hr => rowOnPanel_iff.2 ?_) rfl
  · omega
  · rw [Config.pixels_eq_pages]
    push_cast
    omega

/-! ### Frames arriving at the sink (R63) -/

@[simp] theorem sinkEvent_cmdFrame (c : Config) (honoured : Bool) (k : Sink) (b : Byte) :
    sinkEvent c honoured k (cmdFrame c b) = sinkCommand c.cmd honoured b k := by
  simp [sinkEvent, cmdFrame]

theorem sinkEvent_dataFrame {c : Config} (hc : c.ctrlCmd ≠ c.ctrlData) (honoured : Bool) (k : Sink) (b : Byte) :
    sinkEvent c honoured k (dataFrame c b) = sinkData b k := by
  simp [sinkEvent, dataFrame, hc.symm]

theorem sinkRun_append (c : Config) (honoured : Bool) (k : Sink) (es fs : List BusEvent) :
    sinkRun c honoured k (es ++ fs) = sinkRun c honoured (sinkRun c honoured k es) fs := List.foldl_append

theorem sinkRun_dataFrames {c : Config} (hc : c.ctrlCmd ≠ c.ctrlData) (honoured : Bool) (k : Sink) (f : Nat → Byte)
    (os : List Nat) :
    sinkRun c honoured k (os.map fun o => dataFrame c (f o)) = (os.map f).foldl (fun k b => sinkData b k) k := by
  simp only [sinkRun, List.foldl_map, sinkEvent_dataFrame hc]

/-- A command with two argument bytes takes effect when the second arrives. -/
theorem sinkRun_twoArguments (c : Config) (honoured : Bool) {k : Sink} (hk : k.pending = none) {op : Byte}
    (hop : argCount c.cmd op = 2) (a b : Byte) :
    sinkRun c honoured k ([op, a, b].map (cmdFrame c)) = applyCommand c.cmd op [a, b] k := by
  obtain ⟨ram, c0, c1, p0, p1, cc, pc, pending⟩ := k
  subst hk
  simp [sinkRun, sinkCommand, hop]

/-- The sink's window is the first `W` columns of the first `P` pages, and its position is the window's `n`-th in page-major order,
starting again at the origin past the last. -/
structure Sink.AtPosition (W P n : Nat) (k : Sink) : Prop where
  c0 : k.c0 = 0
  c1 : k.c1 = W - 1
  p0 : k.p0 = 0
  p1 : k.p1 = P - 1
  cc : k.cc = n % W
  pc : k.pc = n / W % P

/-- After `ProgramWindow()` the position is the panel's origin (R140, R64). -/
theorem sinkRun_windowFrames {c : Config} (hwf : c.wf = true) (hcmd : c.cmd = defaultCommands) (honoured : Bool) {k : Sink}
    (hk : k.pending = none) : (sinkRun c honoured k (windowFrames c)).AtPosition c.width c.pages 0 := by
  obtain ⟨hlo, hhi, -⟩ := Config.wf_iff.1 hwf
  obtain ⟨-, hpages⟩ := c.pages_bounds
  have hcol : argCount c.cmd c.cmd.columnAddr = 2 := by rw [hcmd]; rfl
  have hpage : argCount c.cmd c.cmd.pageAddr = 2 := by rw [hcmd]; rfl
  have hne : c.cmd.pageAddr ≠ c.cmd.columnAddr := by rw [hcmd]; decide
  have hlast : (c.width - 1) % 2 ^ 8 = c.width - 1 := Nat.mod_eq_of_lt (by omega)
  have hlast' : (c.pages - 1) % 2 ^ 8 = c.pages - 1 := Nat.mod_eq_of_lt (by omega)
  have hframes : windowFrames c = [c.cmd.columnAddr, 0x00#8, BitVec.ofNat 8 (c.width - 1)].map (cmdFrame c) ++
      [c.cmd.pageAddr, 0x00#8, BitVec.ofNat 8 (c.pages - 1)].map (cmdFrame c) := rfl
  rw [hframes, sinkRun_append, sinkRun_twoArguments c honoured hk hcol, sinkRun_twoArguments c honoured _ hpage]
  · simp only [applyCommand, hne, if_true, if_false, BitVec.toNat_ofNat, hlast, hlast']
    exact ⟨rfl, rfl, rfl, rfl, (Nat.zero_mod _).symm, by simp⟩
  · simpa [applyCommand] using hk

/-! ### Data bytes fill the window in page-major order (R63, R64) -/

theorem divMod_succ_of_lt {n W : Nat} (h : n % W < W - 1) : (n + 1) / W = n / W ∧ (n + 1) % W = n % W + 1 := by
  have := Nat.mod_add_div n W
  exact (Nat.div_mod_unique (by omega)).2 ⟨by omega, by omega⟩

theorem divMod_succ_of_not_lt {n W : Nat} (hW : 0 < W) (h : ¬ n % W < W - 1) :
    (n + 1) / W = n / W + 1 ∧ (n + 1) % W = 0 := by
  have := Nat.mod_add_div n W
  have := Nat.mod_lt n hW
  exact (Nat.div_mod_unique hW).2 ⟨by rw [Nat.mul_succ]; omega, hW⟩

/-- Display RAM keeps 128 columns to a page, so the positions of a window of at most 128 columns are different cells. -/
theorem cellIndex_inj {W m n : Nat} (hW : 0 < W) (hW' : W ≤ 128) :
    128 * (m / W) + m % W = 128 * (n / W) + n % W ↔ m = n := by
  refine ⟨fun h => ?_, fun h => by rw [h]⟩
  have hm := Nat.mod_lt m hW
  have hn := Nat.mod_lt n hW
  have hdiv : m / W = n / W := by omega
  rw [← Nat.div_add_mod m W, ← Nat.div_add_mod n W, hdiv, show m % W = n % W by omega]

@[simp] theorem Sink.advance_ram (k : Sink) : k.advance.ram = k.ram := by
  unfold Sink.advance
  split <;> rfl

section
variable {W P n : Nat} {k : Sink} (hW : 0 < W) (hP : 0 < P) (hk : k.AtPosition W P n)
include hW hP hk

theorem advance_atPosition : k.advance.AtPosition W P (n + 1) := by
  obtain ⟨hc0, hc1, hp0, hp1, hcc, hpc⟩ := hk
  unfold Sink.advance
  rw [hc0, hc1, hp0, hp1, hcc, hpc]
  split
  · next hcol =>
    obtain ⟨hdiv, hmod⟩ := divMod_succ_of_lt hcol
    exact ⟨rfl, rfl, rfl, rfl, hmod.symm, by rw [hdiv]⟩
  · next hcol =>
    obtain ⟨hdiv, hmod⟩ := divMod_succ_of_not_lt hW hcol
    refine ⟨rfl, rfl, rfl, rfl, hmod.symm, ?_⟩
    rw [hdiv]
    simp only
    split
    · next hpage => exact (divMod_succ_of_lt hpage).2.symm
    · next hpage => exact (divMod_succ_of_not_lt hP hpage).2.symm

theorem sinkData_atPosition (b : Byte) : (sinkData b k).AtPosition W P (n + 1) := by
  unfold sinkData
  split
  · exact advance_atPosition hW hP ⟨hk.c0, hk.c1, hk.p0, hk.p1, hk.cc, hk.pc⟩
  · exact advance_atPosition hW hP hk

/-- A data byte lands at the position and nowhere else. -/
theorem cell_sinkData (hW' : W ≤ 128) (hP' : P ≤ 8) (hn : n < W * P) (b : Byte) (m : Nat) :
    (sinkData b k).cell (m / W) (m % W) = if m = n then b else k.cell (m / W) (m % W) := by
  have hpage : n / W < P := Nat.div_lt_of_lt_mul hn
  have hpc : k.pc = n / W := by rw [hk.pc, Nat.mod_eq_of_lt hpage]
  have hcol := Nat.mod_lt n hW
  have hin : k.pc < 8 ∧ k.cc < 128 := by rw [hpc, hk.cc]; omega
  rw [sinkData, if_pos hin, Sink.cell, Sink.advance_ram, Memory.read_write, hpc, hk.cc]
  simp only [cellIndex_inj hW hW', Sink.cell]

end

/-- As many data bytes as the window has positions at most, sent from its origin, stand at its positions in order. -/
theorem foldl_sinkData {W P : Nat} {k : Sink} (hW : 0 < W) (hP : 0 < P) (hW' : W ≤ 128) (hP' : P ≤ 8)
    (hk : k.AtPosition W P 0) (bs : List Byte) (hlen : bs.length ≤ W * P) :
    (bs.foldl (fun k b => sinkData b k) k).AtPosition W P bs.length ∧
      ∀ m b, bs[m]? = some b → (bs.foldl (fun k b => sinkData b k) k).cell (m / W) (m % W) = b := by
  induction bs using List.reverseRecOn with
  | nil => exact ⟨hk, nofun⟩
  | append_singleton bs last ih =>
    rw [List.length_append, List.length_singleton] at hlen
    obtain ⟨hat, hcells⟩ := ih (by omega)
    rw [List.foldl_append, List.foldl_cons, List.foldl_nil, List.length_append, List.length_singleton]
    refine ⟨sinkData_atPosition hW hP hat last, fun m b hb => ?_⟩
    rw [cell_sinkData hW hP hat hW' hP' (by omega)]
    split
    · next hm => simpa [hm] using hb
    · next hm =>
      have hlt : m < bs.length := by
        have := (List.getElem?_eq_some_iff.1 hb).1
        rw [List.length_append, List.length_singleton] at this
        omega
      exact hcells m b (by rwa [List.getElem?_append_left hlt] at hb)

/-- A transfer that is answered leaves the `n`-th byte it sends at the `n`-th position of display RAM (R64). -/
theorem transferRegion_cell {x y : Int} {w h src : Nat} {s t : State} {sink : Sink} (honoured : Bool)
    (hwf : s.cfg.wf = true) (hcmd : s.cfg.cmd = defaultCommands) (hwidth : s.cfg.width ≤ 128)
    (hans : s.willAnswer (6 + (xferOffsets s.cfg x y w h).length) = true) (hsink : sink.pending = none)
    (ht : transferRegion x y w h src s = .next t) {n o : Nat} (hn : (xferOffsets s.cfg x y w h)[n]? = some o) :
    (sinkRun s.cfg honoured sink (t.trace.drop s.trace.length)).cell (n / s.cfg.width) (n % s.cfg.width) =
      s.mem.read (src + o) := by
  obtain ⟨hlo, -, hctrl⟩ := Config.wf_iff.1 hwf
  obtain ⟨hpages, hpages'⟩ := s.cfg.pages_bounds
  have hsent := transferRegion_answered (transferRegion_eq_next.1 ht).1 hans
  obtain rfl := Host.Outcome.next.inj (ht.symm.trans hsent)
  have horigin := sinkRun_windowFrames hwf hcmd honoured hsink
  have hcells := (foldl_sinkData hlo hpages hwidth hpages' horigin
    ((xferOffsets s.cfg x y w h).map fun o => s.mem.read (src + o))
    (by rw [List.length_map]; exact xferOffsets_length_le s.cfg x y w h)).2
  rw [State.respond_trace, State.emit_trace, List.drop_left, sinkRun_append,
    sinkRun_dataFrames hctrl honoured _ fun o => s.mem.read (src + o)]
  exact hcells n _ (by rw [List.getElem?_map, hn]; rfl)

/-! ### The obligations -/

/-- Settles O56: a transfer's frames are the window's, which set the position to the origin, and then its bytes. -/
theorem xferFillsDisplayFromOrigin : Obligations.XferFillsDisplayFromOrigin :=
  fun _ _ honoured _ _ _ _ _ _ hwf hcmd hwidth hans hsink ht _ _ hn =>
    transferRegion_cell honoured hwf hcmd hwidth hans hsink ht hn

/-- Settles O55: UPDATE is a transfer of the whole panel, which sends the framebuffer byte by byte; the pixel `(x, y)` is a bit of
byte `WIDTH * (y / 8) + x`. -/
theorem updateShowsFramebuffer : Obligations.UpdateShowsFramebuffer := by
  intro s t honoured sink hwf hcmd hwidth hv hbufW hbufH hans hsink ht
  have hoffsets : xferOffsets s.cfg 0 0 s.bufW.toNat s.bufH.toNat = List.range (s.cfg.width * s.cfg.pages) := by
    rw [hbufW, hbufH, xferOffsets_wholePanel]
  have htransfer : transferRegion 0 0 s.bufW.toNat s.bufH.toNat s.bufBase.toNat s = .next t := by
    rwa [exec, execUpdate, withBuffer_valid _ hv] at ht
  have hcells : ∀ k : Nat, k < s.cfg.width * s.cfg.pages →
      (sinkRun s.cfg honoured sink (t.trace.drop s.trace.length)).cell (k / s.cfg.width) (k % s.cfg.width) =
        s.mem.read (s.bufBase.toNat + k) := fun k hk =>
    transferRegion_cell honoured hwf hcmd hwidth (by rwa [hoffsets, List.length_range]) hsink htransfer
      (by rw [hoffsets, List.getElem?_range hk])
  refine ⟨hcells, fun x y hx hy => ?_⟩
  have hpage : y / 8 < s.cfg.pages := by rw [Config.pixels_eq_pages] at hy; omega
  have hlt : s.cfg.width * (y / 8) + x < s.cfg.width * s.cfg.pages := by
    have := Nat.mul_le_mul_left s.cfg.width hpage
    rw [Nat.mul_succ] at this
    omega
  obtain ⟨hdiv, hmod⟩ : (s.cfg.width * (y / 8) + x) / s.cfg.width = y / 8 ∧ (s.cfg.width * (y / 8) + x) % s.cfg.width = x :=
    (Nat.div_mod_unique (Nat.zero_lt_of_lt hx)).2 ⟨Nat.add_comm _ _, hx⟩
  have hcell := hcells (s.cfg.width * (y / 8) + x) hlt
  rw [hdiv, hmod] at hcell
  rw [Sink.pixel, hcell, hbufW]

end Sys2Proof.Machine
end

section
/-! SUPPORT. Inbound encoding (30_encoding.md part A): the rows of the opcode map as conditions on the fields of a descriptor,
the two round trips of the encoder and the decoder, which descriptors are illegal, and the obligations on them. -/

namespace Sys2Proof

/-! ### Rows by fields (R72, R75, R76) -/

@[simp] theorem byte_and_ones (a : Byte) : a &&& 0xFF#8 = a := BitVec.and_allOnes
@[simp] theorem half_and_ones (x : Half) : x &&& 0xFFFF#16 = x := BitVec.and_allOnes
@[simp] theorem addr_and_ones (p : Addr) : p &&& 0xFFFFFFFF#32 = p := BitVec.and_allOnes

/-- A masked descriptor is a code and nothing else exactly when its `OP` is that code and every bit that the format does not
use is zero: field by field, each mask field being 0, all ones, or all but a flag or a two-bit code. -/
theorem Format.and_tableMask_eq {fmt : Format} {d : Descriptor} {c : Byte} :
    d &&& fmt.tableMask = pack c 0 0 0 0 0 0 0 0 ↔ fieldOp d = c ∧ fmt.unusedZero d = true := by
  rw [Format.tableMask_eq]
  conv_lhs => rw [← pack_fields d]
  cases fmt <;>
    simp [pack_and, pack_inj, Format.unusedZero, flagOnly, codeOnly, restZero, xyZero, whpZero, and_assoc]

/-- `D & mask = match` (R76). -/
theorem Op.and_tableMask_eq {o : Op} {d : Descriptor} :
    d &&& o.format.tableMask = o.tableMatch ↔ fieldOp d = o.code ∧ o.format.unusedZero d = true := by
  rw [Op.tableMatch_eq, Format.and_tableMask_eq]

theorem Op.code_injective {o o' : Op} (h : o.code = o'.code) : o = o' := by
  have := Op.ofCode_code o
  rw [h, Op.ofCode_code, Option.some.injEq] at this
  exact this.symm

/-- The mask without its `OP` bits sees a 1 in a bit that the format does not use (R75 (b)). -/
theorem Format.and_unusedMask_eq {fmt : Format} {d : Descriptor} :
    d &&& (fmt.tableMask &&& ~~~ 0xFF#128) = 0#128 ↔ fmt.unusedZero d = true := by
  have hop : ~~~ 0xFF#128 = pack 0 0xFF 0xFF 0xFF 0xFFFF 0xFFFF 0xFFFF 0xFFFF 0xFFFFFFFF := rfl
  have hzero : 0#128 = pack 0 0 0 0 0 0 0 0 0 := rfl
  have hrest : d &&& ~~~ 0xFF#128 =
      pack 0 (fieldA d) (fieldB d) (fieldRsv d) (fieldX d) (fieldY d) (fieldW d) (fieldH d) (fieldPtr d) := by
    conv_lhs => rw [← pack_fields d]
    simp [hop, pack_and]
  rw [BitVec.and_comm fmt.tableMask, ← BitVec.and_assoc, hzero, Format.and_tableMask_eq, hrest, fieldOp_pack]
  cases fmt <;> simp [Format.unusedZero, restZero, xyZero, whpZero]

/-- The colour code of a SETPIXEL, as bits of the descriptor (R71, R80). -/
theorem codeOf_fieldA (d : Descriptor) : codeOf (fieldA d) = d.extractLsb' 8 2 := by
  unfold codeOf fieldA
  ext k hk
  have : k < 8 := by omega
  simp [this]

theorem colourCodeOk_iff {c : BitVec 2} : colourCodeOk c = true ↔ c ≠ 3#2 := bne_iff_ne

@[simp] theorem Op.op_build (d : Descriptor) (o : Op) : (o.build d).op = o := by cases o <;> rfl

/-- A descriptor decodes exactly when it matches a row, and a SETPIXEL's colour code is not 3 (R76). -/
theorem decode_eq_ok_iff_row {d : Descriptor} {i : Instr} :
    decode d = .ok i ↔
      (d &&& i.op.format.tableMask = i.op.tableMatch ∧ (i.op = .setpixel → d.extractLsb' 8 2 ≠ 3#2)) ∧ i.op.build d = i := by
  rw [decode_eq_ok, ← codeOf_fieldA, Op.and_tableMask_eq, ← colourCodeOk_iff]
  constructor
  · rintro ⟨o, hcode, hzero, hcolour, rfl⟩
    rw [Op.op_build]
    exact ⟨⟨⟨(Op.code_of_ofCode hcode).symm, hzero⟩, hcolour⟩, rfl⟩
  · rintro ⟨⟨⟨hcode, hzero⟩, hcolour⟩, hbuild⟩
    exact ⟨i.op, by rw [hcode, Op.ofCode_code], hzero, hcolour, hbuild⟩

/-- A row's operation is what a descriptor decodes to exactly when it matches the row (R76). -/
theorem exists_decode_eq_ok_iff {d : Descriptor} {o : Op} :
    (∃ i, decode d = .ok i ∧ i.op = o) ↔
      d &&& o.format.tableMask = o.tableMatch ∧ (o = .setpixel → d.extractLsb' 8 2 ≠ 3#2) := by
  constructor
  · rintro ⟨i, hd, rfl⟩
    exact (decode_eq_ok_iff_row.1 hd).1
  · intro h
    refine ⟨o.build d, decode_eq_ok_iff_row.2 ?_, Op.op_build d o⟩
    rw [Op.op_build]
    exact ⟨h, rfl⟩

/-! ### Encoding and decoding are inverse to each other (R76) -/

/-- An encoded operation matches its row, whatever its operands. -/
theorem rowMatches_encode (i : Instr) : i.op.rowMatches (encode i) = true := by
  cases i with
  | init => exact Laws.TableRow.init
  | setbuf w h buffer size => exact Laws.TableRow.setbuf w h buffer size
  | setrot r => exact Laws.TableRow.setrot r
  | setpixel x y colour => exact Laws.TableRow.setpixel x y colour
  | drawbitmap x y w h data invert => exact Laws.TableRow.drawbitmap x y w h data invert
  | clearbuf => exact Laws.TableRow.clearbuf
  | xfer x y w h src => exact Laws.TableRow.xfer x y w h src
  | update => exact Laws.TableRow.update
  | fillscreen pattern delay => exact Laws.TableRow.fillscreen pattern delay
  | fillpage page pattern delay => exact Laws.TableRow.fillpage page pattern delay
  | powerdown => exact Laws.TableRow.powerdown
  | setenabled on => exact Laws.TableRow.setenabled on
  | setcontrast c => exact Laws.TableRow.setcontrast c
  | setinvert inv => exact Laws.TableRow.setinvert inv
  | scrollHr start stop => exact Laws.TableRow.scrollHr start stop
  | scrollHl start stop => exact Laws.TableRow.scrollHl start stop
  | scrollDr start stop => exact Laws.TableRow.scrollDr start stop
  | scrollDl start stop => exact Laws.TableRow.scrollDl start stop
  | stopscroll => exact Laws.TableRow.stopscroll
  | checkconn => exact Laws.TableRow.checkconn

/-- A 32-bit value is its two halves: `SIZE` over `Y` and `X` (R71). -/
theorem halves_append (v : Addr) : v.extractLsb' 16 16 ++ v.extractLsb' 0 16 = v :=
  BitVec.extractLsb'_append_extractLsb'

/-- Each operand is read from the field that it was put into. -/
theorem build_encode (i : Instr) : i.op.build (encode i) = i := by
  cases i with
  | init | clearbuf | update | powerdown | stopscroll | checkconn => rfl
  | setbuf w h buffer size => simp [encode, Instr.op, Op.build, fieldSize_eq, halves_append]
  | setrot | setpixel | drawbitmap | xfer | fillscreen | fillpage | setenabled | setcontrast | setinvert | scrollHr | scrollHl
  | scrollDr | scrollDl => simp [encode, Instr.op, Op.build]

theorem Instr.wf_iff {i : Instr} : i.wf = true ↔ (i.op = .setpixel → (encode i).extractLsb' 8 2 ≠ 3#2) := by
  rw [← codeOf_fieldA, ← colourCodeOk_iff]
  cases i with
  | setpixel x y colour => simp [Instr.wf, Instr.op, encode]
  | init | setbuf | setrot | drawbitmap | clearbuf | xfer | update | fillscreen | fillpage | powerdown | setenabled
  | setcontrast | setinvert | scrollHr | scrollHl | scrollDr | scrollDl | stopscroll | checkconn => simp [Instr.wf, Instr.op]

theorem decode_encode {i : Instr} (hwf : i.wf = true) : decode (encode i) = .ok i :=
  decode_eq_ok_iff_row.2 ⟨⟨beq_iff_eq.1 (rowMatches_encode i), Instr.wf_iff.1 hwf⟩, build_encode i⟩

/-- A written-out word that is the encoding of an operation decodes to it. -/
theorem decode_of_eq_encode {d : Descriptor} {i : Instr} (h : encode i = d) (hwf : i.wf = true) : decode d = .ok i := by
  rw [← h, decode_encode hwf]

/-- A flag field with nothing beside the flag. -/
theorem flagByte_flagOf {a : Byte} (h : flagOnly a = true) : flagByte (flagOf a) = a := by
  revert a
  decide

/-- A code field with nothing beside the code. -/
theorem setWidth_codeOf {a : Byte} (h : codeOnly a = true) : (codeOf a).setWidth 8 = a := by
  revert a
  decide

@[simp] theorem fieldDelay_eq (d : Descriptor) : fieldDelay d = fieldX d := rfl

@[simp] theorem fieldSize_low (d : Descriptor) : (fieldSize d).extractLsb' 0 16 = fieldX d := by
  rw [fieldSize_eq]
  exact BitVec.extractLsb'_append_eq_right

@[simp] theorem fieldSize_high (d : Descriptor) : (fieldSize d).extractLsb' 16 16 = fieldY d := by
  rw [fieldSize_eq]
  exact BitVec.extractLsb'_append_eq_left

/-- The operation of a row that a descriptor matches is encoded as that descriptor: its operands are the fields that the format
uses, and every other field is zero. -/
theorem encode_build {o : Op} {d : Descriptor} (h : d &&& o.format.tableMask = o.tableMatch) : encode (o.build d) = d := by
  obtain ⟨hop, hzero⟩ := Op.and_tableMask_eq.1 h
  conv_rhs => rw [← pack_fields d, hop]
  cases o <;>
    simp only [Op.format, Format.unusedZero, restZero, xyZero, whpZero, Bool.and_eq_true, beq_iff_eq] at hzero
  case setenabled | setinvert | drawbitmap => simp [encode, Op.build, Instr.op, hzero, flagByte_flagOf]
  case setrot | setpixel => simp [encode, Op.build, Instr.op, hzero, setWidth_codeOf]
  all_goals simp [encode, Op.build, Instr.op, hzero]

/-- A descriptor that decodes is the encoding of what it decodes to, which is well-formed. -/
theorem encode_of_decode {d : Descriptor} {i : Instr} (h : decode d = .ok i) : i.wf = true ∧ encode i = d := by
  obtain ⟨⟨hrow, hcolour⟩, hbuild⟩ := decode_eq_ok_iff_row.1 h
  have henc : encode i = d := by rw [← hbuild, encode_build hrow]
  exact ⟨Instr.wf_iff.2 (henc ▸ hcolour), henc⟩

/-! ### Illegal descriptors (R75) -/

/-- A descriptor is illegal: one of the three clauses of R75. -/
def Descriptor.Illegal (d : Descriptor) : Prop :=
  (∀ o : Op, o.code ≠ d.extractLsb' 0 8) ∨
    (∃ o : Op, o.code = d.extractLsb' 0 8 ∧ d &&& (o.format.tableMask &&& ~~~ 0xFF#128) ≠ 0#128) ∨
    (d.extractLsb' 0 8 = 0x10#8 ∧ d.extractLsb' 8 2 = 3#2)

/-- The illegal descriptors are exactly those that decode to no operation. -/
theorem not_illegal_iff {d : Descriptor} : ¬ Descriptor.Illegal d ↔ ∃ i, decode d = .ok i := by
  constructor
  · intro h
    simp only [Descriptor.Illegal, not_or, not_forall, not_exists, not_not, not_and] at h
    obtain ⟨⟨o, hcode⟩, hunused, hcolour⟩ := h
    have hrow : d &&& o.format.tableMask = o.tableMatch :=
      Op.and_tableMask_eq.2 ⟨hcode.symm, Format.and_unusedMask_eq.1 (hunused o hcode)⟩
    obtain ⟨i, hi, -⟩ := exists_decode_eq_ok_iff.2 ⟨hrow, fun hpixel => hcolour (by rw [← hcode, hpixel]; rfl)⟩
    exact ⟨i, hi⟩
  · rintro ⟨i, hi⟩ (hcode | ⟨o, hcode, hunused⟩ | ⟨hcode, hcolour⟩)
    all_goals
      obtain ⟨⟨hrow, hlegal⟩, -⟩ := decode_eq_ok_iff_row.1 hi
      obtain ⟨hop, hzero⟩ := Op.and_tableMask_eq.1 hrow
    · exact hcode _ hop.symm
    · obtain rfl : o = i.op := Op.code_injective (hcode.trans hop)
      exact hunused (Format.and_unusedMask_eq.2 hzero)
    · exact hlegal (Op.code_injective (hop.symm.trans hcode)) hcolour

theorem decode_error_of_illegal {d : Descriptor} (h : Descriptor.Illegal d) : ∃ e, decode d = .error e := by
  cases hd : decode d with
  | error e => exact ⟨e, rfl⟩
  | ok i => exact absurd h (not_illegal_iff.2 ⟨i, hd⟩)

/-! ### Stored descriptors (R70, R77) -/

/-- Reading `n` little-endian bytes gives back what they hold of the value. -/
theorem descriptorOfBytes_littleEndian (n v : Nat) : descriptorOfBytes (littleEndian n v) = v % 256 ^ n := by
  induction n generalizing v with
  | zero => simp [littleEndian, descriptorOfBytes, Nat.mod_one]
  | succ n ih =>
    rw [littleEndian, descriptorOfBytes, ih, BitVec.toNat_ofNat]
    change v % 256 + 256 * (v / 256 % 256 ^ n) = v % 256 ^ (n + 1)
    rw [Nat.pow_succ', Nat.mod_mul]

theorem littleEndian_length (n v : Nat) : (littleEndian n v).length = n := by
  induction n generalizing v with
  | zero => rfl
  | succ n ih => simp [littleEndian, ih]

theorem decodeBytes_littleEndian (d : Descriptor) : decodeBytes (littleEndian 16 d.toNat) = decode d := by
  have hlt : d.toNat < 256 ^ 16 := d.isLt
  rw [decodeBytes, if_pos (littleEndian_length 16 _), descriptorOfBytes_littleEndian, Nat.mod_eq_of_lt hlt,
    BitVec.ofNat_toNat, BitVec.setWidth_eq]

theorem length_of_decodeBytes {bs : List Byte} {i : Instr} (h : decodeBytes bs = .ok i) : bs.length = 16 := by
  unfold decodeBytes at h
  split at h
  · assumption
  · cases h

end Sys2Proof

namespace Sys2Proof.Machine

/-! ### The fault of an illegal descriptor (R75, R191) -/

theorem step_illegal {s : State} {d : Descriptor} {rest : List HostMove} (hb : s.blocked = false)
    (hhost : s.host = .issue d :: rest) (hd : ∃ e, decode d = .error e) :
    step s = .next (State.raise .illegalOperation { s with host := rest }) := by
  obtain ⟨e, he⟩ := hd
  simp only [step, takeRequest_issue hb hhost, he, fail_eq]

/-! ### The obligations -/

/-- Settles O2: an encoded operation matches its row, and each operand is read from the field that it was put into. -/
theorem decodeOfEncode : Obligations.DecodeOfEncode :=
  fun _ => decode_encode

/-- Settles O3: the fields that a format does not use are zero in a legal descriptor, so its operands determine it. -/
theorem encodeOfDecode : Obligations.EncodeOfDecode :=
  fun _ _ => encode_of_decode

/-- Settles O4: the decoder's conditions on the fields are those of the masks, and the `OP` values are different. -/
theorem decodeAgreesWithOpcodeTable : Obligations.DecodeAgreesWithOpcodeTable := by
  refine ⟨fun d o => exists_decode_eq_ok_iff, fun d o o' h h' => ?_⟩
  obtain ⟨hop, -⟩ := Op.and_tableMask_eq.1 h
  obtain ⟨hop', -⟩ := Op.and_tableMask_eq.1 h'
  exact Op.code_injective (hop.symm.trans hop')

/-- Settles O5: R75's clauses are exactly those of the descriptors that decode to nothing. -/
theorem illegalDescriptorFaults : Obligations.IllegalDescriptorFaults :=
  fun _ _ _ hb hhost => ⟨fun h => step_illegal hb hhost (decode_error_of_illegal h), not_illegal_iff.1⟩

/-- Settles O6: sixteen bytes hold all of a descriptor. -/
theorem storedDescriptorDecodes : Obligations.StoredDescriptorDecodes :=
  ⟨decodeBytes_littleEndian, fun _ _ => length_of_decodeBytes⟩

/-- Settles O1: each word is the encoding of its operation. -/
theorem specWordsDecode : Obligations.SpecWordsDecode := by
  refine ⟨?_, ?_, ?_, ?_, ?_, ?_, ?_, ?_, ?_, ?_, ?_, ?_, ?_, ?_, ?_, ?_, ?_, ?_, ?_, ?_⟩ <;>
    exact decode_of_eq_encode rfl rfl

end Sys2Proof.Machine
end

section
/-! SUPPORT. Outbound encoding (30_encoding.md part B): the one response of an operation, what a step puts on the bus, the
default scroll sequences and the aliases, and the obligations on them. -/

namespace Sys2Proof.Machine

/-! ### Responses (R84) -/

theorem Response.word_done_low (v : BitVec 32) : (Response.done v).word.extractLsb' 0 32 = v :=
  BitVec.extractLsb'_append_eq_right

theorem Response.word_done_high (v : BitVec 32) : (Response.done v).word.extractLsb' 32 32 = 0 :=
  BitVec.extractLsb'_append_eq_left

/-! ### One response per operation (R84, R193, R194, R197) -/

/-- An unanswered call is one that a counted transport does not answer. -/
theorem State.answersLeft_isSome {n : Nat} {s : State} (h : s.willAnswer n = false) : s.answersLeft.isSome = true := by
  unfold State.willAnswer at h
  cases hs : s.answersLeft with
  | none => simp [hs] at h
  | some k => rfl

/-- How an operation can end: with one `Done`, with the fault NoBuffer and no other mark, or never. -/
theorem Effect.response_cases {i : Instr} {s t : State} (he : Effect i s t) (hwf : i.wf = true) :
    ((∃ v, t.responses = s.responses ++ [.done v]) ∧ t.blocked = s.blocked) ∨
      (t = s.raise .noBuffer ∧ s.bufValid = false ∧
        (i.op = .setpixel ∨ i.op = .drawbitmap ∨ i.op = .clearbuf ∨ i.op = .update)) ∨
      (t.responses = s.responses ∧ t.blocked = true ∧ s.answersLeft.isSome = true) := by
  cases he with
  | illegal hill _ => simp [hwf] at hill
  | noBuffer hv hop ht => exact .inr (.inl ⟨ht, hv, hop⟩)
  | rot _ _ ht | notStored _ _ ht | stored _ _ _ _ _ _ ht | sent _ _ _ _ ht | probed _ _ ht =>
    subst ht; exact .inl ⟨⟨_, rfl⟩, rfl⟩
  | drawn u v _ _ hu ht =>
    obtain ⟨m, rfl, -⟩ := hu
    subst ht
    exact .inl ⟨⟨v, rfl⟩, rfl⟩
  | waiting es _ _ hans ht =>
    subst ht
    exact .inr (.inr ⟨rfl, rfl, State.answersLeft_isSome hans⟩)

/-! ### Legal events by their shape (R85, R86) -/

theorem BusEvent.legal_iff {c : Config} {e : BusEvent} :
    e.legal c = true ↔
      (∃ control payload, e = .write c.busAddr [control, payload] ∧ (control = c.ctrlCmd ∨ control = c.ctrlData)) ∨
        e = .read c.busAddr 1 := by
  constructor
  · intro h
    unfold BusEvent.legal at h
    split at h
    · next a control payload =>
      simp only [Bool.and_eq_true, Bool.or_eq_true, beq_iff_eq] at h
      obtain ⟨rfl, hcontrol⟩ := h
      exact .inl ⟨control, payload, rfl, hcontrol⟩
    · cases h
    · simp only [Bool.and_eq_true, beq_iff_eq] at h
      obtain ⟨rfl, rfl⟩ := h
      exact .inr rfl
  · rintro (⟨control, payload, rfl, hcontrol⟩ | rfl)
    · simpa [BusEvent.legal] using hcontrol
    · exact probe_legal c

/-! ### Scrolls that send a template (R91) -/

/-- A scroll start whose sequence lists no pair of pages sends its template. -/
theorem sendScroll_template {template : List ScrollItem} {start stop : Byte} {s : State}
    (ha : s.willAnswer template.length = true) :
    sendScroll ⟨template, []⟩ start stop s = .next { s with
      trace := s.trace ++ (template.map (scrollByte s.cfg start stop)).map (cmdFrame s.cfg)
      answersLeft := s.answersLeft.map (· - template.length)
      responses := s.responses ++ [.done 0#32] } := by
  rw [sendScroll, scrollBytes_template, sendCmds_answered (by rw [List.length_map]; exact ha)]
  simp [State.emit, State.respond]

/-- `HEIGHT` as a byte (R91). -/
theorem ofNat_pixels (h : PanelHeight) :
    BitVec.ofNat 8 h.pixels = (match h with | .h64 => 0x40 | .h32 => 0x20 | .h16 => 0x10 : Byte) := by
  cases h <;> rfl

/-! ### What is sent where the transport stops answering (R197) -/

/-- Frames that a transport answers, and the first that it does not, are on the trace where they were to be sent. -/
theorem sendFrames_getElem? {es : List BusEvent} {s t : State} {n : Nat} (h : sendFrames es s = .next t)
    (ha : s.willAnswer n = true) : (t.trace.drop s.trace.length)[n]? = es[n]? := by
  rcases sendFrames_cases h with ⟨-, rfl⟩ | ⟨hun, rfl⟩
  · simp
  · obtain ⟨k, hk⟩ := Option.isSome_iff_exists.1 (State.answersLeft_isSome hun)
    have hn : n ≤ k := (State.willAnswer_iff n s).1 ha k hk
    simp [hk, Nat.lt_succ_of_le hn]

/-! ### The obligations -/

/-- Settles O42, from the cases of a completed operation. -/
theorem oneResponseAndFaultsAreClean : Obligations.OneResponseAndFaultsAreClean :=
  fun _ _ _ hwf h => (exec_cases h).response_cases hwf

/-- Settles O51: a step appends legal events, which have one of two shapes. -/
theorem stepAppendsLegalBusEvents : Obligations.StepAppendsLegalBusEvents := by
  intro s t h
  obtain ⟨es, htrace, hes⟩ := (step_sends h).appended
  exact ⟨es, htrace, fun e he => BusEvent.legal_iff.1 (hes e he)⟩

/-- Settles O38: the default sequences are templates, so the operations send their items. -/
theorem scrollDefaultSequences : Obligations.ScrollDefaultSequences := by
  intro s start stop hscroll frames height
  have hheight : BitVec.ofNat 8 s.cfg.height.pixels = height := ofNat_pixels _
  have hhr : exec (.scrollHr start stop) s = sendScroll defaultScroll.hr start stop s := by rw [← hscroll]; rfl
  have hhl : exec (.scrollHl start stop) s = sendScroll defaultScroll.hl start stop s := by rw [← hscroll]; rfl
  have hdr : exec (.scrollDr start stop) s = sendScroll defaultScroll.dr start stop s := by rw [← hscroll]; rfl
  have hdl : exec (.scrollDl start stop) s = sendScroll defaultScroll.dl start stop s := by rw [← hscroll]; rfl
  rw [hhr, hhl, hdr, hdl, ← hheight]
  exact ⟨sendScroll_template (template := defaultScroll.hr.template), sendScroll_template (template := defaultScroll.hl.template),
    sendScroll_template (template := defaultScroll.dr.template), sendScroll_template (template := defaultScroll.dl.template)⟩

/-- Settles O40: the aliases share their definitions, and STOPSCROLL's frame is INIT's at index 24. -/
theorem aliasesBehaveAlike : Obligations.AliasesBehaveAlike := by
  intro s
  refine ⟨rfl, rfl, fun ha => ?_⟩
  have hone : s.willAnswer 1 = true := State.willAnswer_mono ha (by decide)
  obtain ⟨u, hu⟩ : ∃ u, exec .init s = .next u := sendFrames_next _ s
  exact ⟨_, u, _, sendCmds_answered hone, hu, rfl, sendFrames_getElem? hu ha⟩

/-- Settles O45: the word is the value or the cause below a half that is 0 or holds bit 63 alone. -/
theorem responseWord : Obligations.ResponseWord :=
  ⟨fun v => ⟨Response.word_done_low v, Response.word_done_high v⟩, rfl, rfl⟩

end Sys2Proof.Machine
end

section
/-! SUPPORT. The assembler (30_encoding.md R78, R80, log entry 17): reading back decimal operands, the words of a line, and the
obligation on them. -/

namespace Sys2Proof.Machine

/-! ### Numbers -/

theorem digit_ten {c : Char} (h : c.isDigit = true) : digit 10 c = some (c.toNat - '0'.toNat) := by
  have hzero : '0'.toNat = 48 := rfl
  obtain ⟨hlo, hhi⟩ : 48 ≤ c.toNat ∧ c.toNat ≤ 57 := Char.isDigit_iff_toNat.1 h
  unfold digit
  simp only [hlo, hhi, hzero, and_self, if_true]
  rw [if_pos (by omega)]

theorem digits_ten {cs : List Char} (h : ∀ c ∈ cs, c.isDigit = true) (acc : Nat) :
    digits 10 acc cs = some (Nat.ofDigitChars 10 cs acc) := by
  induction cs generalizing acc with
  | nil => rfl
  | cons c cs ih =>
    obtain ⟨hc, hcs⟩ := List.forall_mem_cons.1 h
    simp only [digits, digit_ten hc, ih hcs, Nat.ofDigitChars_cons]

/-- Without an `x` a number is not read as hexadecimal. -/
theorem readNat_decimal {cs : List Char} (hne : cs ≠ []) (h : ∀ c ∈ cs, c.isDigit = true) :
    readNat cs = some (Nat.ofDigitChars 10 cs 0) := by
  have hx : 'x' ∉ cs := fun hmem => absurd (h 'x' hmem) (by decide)
  unfold readNat
  split
  · exact absurd rfl hne
  · simp at hx
  · simp at hx
  · exact digits_ten h 0

/-- The decimal numeral of an unsigned operand. -/
abbrev decimal (n : Nat) : List Char := Nat.toDigits 10 n

theorem isDigit_of_mem_decimal {n : Nat} {c : Char} (h : c ∈ decimal n) : c.isDigit = true :=
  Nat.isDigit_of_mem_toDigits (by decide) (by decide) h

@[simp] theorem readNat_decimal_eq (n : Nat) : readNat (decimal n) = some n := by
  rw [readNat_decimal Nat.toDigits_ne_nil fun _ => isDigit_of_mem_decimal, Nat.ofDigitChars_ten_toDigits]

@[simp] theorem readField_decimal {n : Nat} (v : BitVec n) : readField n (decimal v.toNat) = some v := by
  simp [readField, v.isLt]

/-- The decimal numeral of a coordinate. -/
def decimalInt (v : Int) : List Char := if v < 0 then '-' :: decimal (-v).toNat else decimal v.toNat

theorem readCoord_decimal (n : Nat) (h : n < 32768) : readCoord (decimal n) = some (BitVec.ofNat 16 n) := by
  have hminus : '-' ∉ decimal n := fun hmem => absurd (isDigit_of_mem_decimal hmem) (by decide)
  unfold readCoord
  split
  · next heq => simp [heq] at hminus
  · simp [h]

@[simp] theorem readCoord_decimalInt (x : Half) : readCoord (decimalInt x.toInt) = some x := by
  have hlo : -32768 ≤ x.toInt := BitVec.le_toInt x
  have hhi : x.toInt < 32768 := BitVec.toInt_lt
  unfold decimalInt
  split
  · have hv : -(((-x.toInt).toNat : Nat) : Int) = x.toInt := by omega
    have hle : (-x.toInt).toNat ≤ 32768 := by omega
    simp only [readCoord, readNat_decimal_eq, hle, if_true, hv, BitVec.ofInt_toInt]
  · have hv : ((x.toInt.toNat : Nat) : Int) = x.toInt := by omega
    rw [readCoord_decimal _ (by omega), ← BitVec.ofInt_natCast, hv, BitVec.ofInt_toInt]

/-! ### The operands of an assembled operation (R80) -/

theorem readColour_ne_three {w : List Char} {c : BitVec 2} (h : readColour w = some c) : c ≠ 3#2 := by
  unfold readColour at h
  split_ifs at h
  · cases h; decide
  · cases h; decide
  · cases h; decide
  · split at h
    · next v _ =>
      split_ifs at h with hv
      cases h
      interval_cases v <;> decide
    · cases h

/-- The operands that are read make a well-formed operation: a colour is never 3. -/
theorem readOperands_wf {o : Op} {ws : List (List Char)} {i : Instr} (h : readOperands o ws = some i) : i.wf = true := by
  revert i
  cases o <;> simp only [readOperands, readNone, readOneFlag, readPages]
  case setpixel =>
    split
    · simp only [Option.bind_eq_some_iff]
      rintro i ⟨x, -, y, -, c, hc, h⟩
      cases h
      exact colourCodeOk_iff.2 (readColour_ne_three hc)
    · nofun
  all_goals
    split
    · simp only [Option.bind_eq_some_iff, Option.map_eq_some_iff, Option.some.injEq, forall_exists_index, and_imp]
      intros
      subst_vars
      rfl
    · nofun

theorem assemble_wf {line : List Char} {i : Instr} (h : assemble line = some i) : i.wf = true := by
  obtain ⟨o, -, ho⟩ := Option.bind_eq_some_iff.1 h
  exact readOperands_wf ho

/-! ### Words and lines (R78) -/

/-- A character of a mnemonic or an operand: no blank, comma or semicolon. -/
def isWordChar (c : Char) : Bool := !isBlank c && c != ',' && c != ';'

/-- A mnemonic or an operand. -/
def isWord (w : List Char) : Bool := !w.isEmpty && w.all isWordChar

/-- The operands after the first, each behind a comma and a blank. -/
def operandTail (ws : List (List Char)) : List Char := ws.flatMap fun v => [',', ' '] ++ v

/-- A line with operands as R78 writes it: the mnemonic, a blank, and the operands one after another. -/
def operandLine (o : Op) (w : List Char) (ws : List (List Char)) : List Char :=
  ws.foldl (fun text v => text ++ [',', ' '] ++ v) ((mnemonicOf o).toList ++ [' '] ++ w)

theorem operandLine_eq (o : Op) (w : List Char) (ws : List (List Char)) :
    operandLine o w ws = (mnemonicOf o).toList ++ ' ' :: (w ++ operandTail ws) := by
  simp [operandLine, operandTail, List.flatMap_def]

theorem isWord_iff {w : List Char} : isWord w = true ↔ w ≠ [] ∧ ∀ c ∈ w, isWordChar c = true := by
  simp [isWord]

section
variable {w : List Char} (hw : isWord w = true)
include hw

theorem ne_nil_of_isWord : w ≠ [] := (isWord_iff.1 hw).1

/-- What is in a word separates no words. -/
theorem of_mem_word {c : Char} (hc : c ∈ w) : isBlank c = false ∧ c ≠ ',' ∧ c ≠ ';' := by
  simpa [isWordChar, and_assoc] using (isWord_iff.1 hw).2 c hc

theorem isBlank_of_mem_word {c : Char} (hc : c ∈ w) : isBlank c = false := by
  obtain ⟨hblank, -, -⟩ := of_mem_word hw hc
  exact hblank

theorem comma_notMem_word : ',' ∉ w := by
  intro hc
  obtain ⟨-, hcomma, -⟩ := of_mem_word hw hc
  exact hcomma rfl

theorem semicolon_notMem_word : ';' ∉ w := by
  intro hc
  obtain ⟨-, -, hsemicolon⟩ := of_mem_word hw hc
  exact hsemicolon rfl

end

theorem isWord_mnemonicOf (o : Op) : isWord (mnemonicOf o).toList = true := by cases o <;> rfl

theorem isWordChar_of_isDigit {c : Char} (h : c.isDigit = true) : isWordChar c = true := by
  have hne : ∀ b : Char, b.isDigit = false → c ≠ b := fun b hb hcb => by simp [← hcb, h] at hb
  simp [isWordChar, isBlank, hne ' ' rfl, hne '\t' rfl, hne ',' rfl, hne ';' rfl]

@[simp] theorem isWord_decimal (n : Nat) : isWord (decimal n) = true :=
  isWord_iff.2 ⟨Nat.toDigits_ne_nil, fun _ hc => isWordChar_of_isDigit (isDigit_of_mem_decimal hc)⟩

@[simp] theorem isWord_decimalInt (v : Int) : isWord (decimalInt v) = true := by
  unfold decimalInt
  split
  · obtain ⟨-, hdigits⟩ := isWord_iff.1 (isWord_decimal (-v).toNat)
    exact isWord_iff.2 ⟨List.cons_ne_nil _ _, List.forall_mem_cons.2 ⟨rfl, hdigits⟩⟩
  · exact isWord_decimal _

/-! ### Trimming -/

theorem dropWhile_isBlank_eq_self {cs : List Char} (h : ∀ c ∈ cs.head?, isBlank c = false) : cs.dropWhile isBlank = cs := by
  cases cs with
  | nil => rfl
  | cons c cs => exact List.dropWhile_cons_of_neg (by simp [h c rfl])

/-- A text that neither begins nor ends in a blank is kept. -/
theorem trimBlanks_eq_self {cs : List Char} (hfirst : ∀ c ∈ cs.head?, isBlank c = false)
    (hlast : ∀ c ∈ cs.getLast?, isBlank c = false) : trimBlanks cs = cs := by
  rw [← List.head?_reverse] at hlast
  rw [trimBlanks, dropWhile_isBlank_eq_self hfirst, dropWhile_isBlank_eq_self hlast, List.reverse_reverse]

theorem trimBlanks_word {w : List Char} (hw : isWord w = true) : trimBlanks w = w :=
  trimBlanks_eq_self (fun _ hc => isBlank_of_mem_word hw (List.mem_of_mem_head? hc))
    fun _ hc => isBlank_of_mem_word hw (List.mem_of_mem_getLast? hc)

theorem trimBlanks_blank_cons (cs : List Char) : trimBlanks (' ' :: cs) = trimBlanks cs := rfl

/-! ### Splitting at commas -/

theorem splitCommas_ne_nil (cs : List Char) : splitCommas cs ≠ [] := by
  cases cs with
  | nil => simp [splitCommas]
  | cons c cs =>
    unfold splitCommas
    split
    · simp
    · split <;> simp

theorem splitCommas_comma (cs : List Char) : splitCommas (',' :: cs) = [] :: splitCommas cs := by
  obtain ⟨w, ws, h⟩ := List.exists_cons_of_ne_nil (splitCommas_ne_nil cs)
  simp [splitCommas, h]

/-- A part without commas goes before the first comma. -/
theorem splitCommas_append {v cs w : List Char} {ws : List (List Char)} (hv : ',' ∉ v) (h : splitCommas cs = w :: ws) :
    splitCommas (v ++ cs) = (v ++ w) :: ws := by
  induction v with
  | nil => exact h
  | cons c v ih =>
    obtain ⟨hc, hv⟩ : ',' ≠ c ∧ ',' ∉ v := by simpa using hv
    simp [splitCommas, ih hv, Ne.symm hc]

/-- Operands put behind commas and blanks are split off, the blanks still before them. -/
theorem splitCommas_operands {v : List Char} {ws : List (List Char)} (hv : ',' ∉ v) (hws : ∀ w ∈ ws, ',' ∉ w) :
    splitCommas (v ++ operandTail ws) = v :: ws.map (' ' :: ·) := by
  induction ws generalizing v with
  | nil => simpa [operandTail] using splitCommas_append hv (rfl : splitCommas [] = [[]])
  | cons w ws ih =>
    obtain ⟨hw, hws⟩ := List.forall_mem_cons.1 hws
    have hrest : splitCommas (',' :: ' ' :: w ++ operandTail ws) = [] :: (' ' :: w) :: ws.map (' ' :: ·) :=
      (splitCommas_comma _).trans (congrArg _ (ih (by simpa using hw) hws))
    simpa [operandTail] using splitCommas_append hv hrest

/-! ### A line with operands is read as its mnemonic and its operands -/

theorem find_mnemonicOf (o : Op) : (Op.all.find? fun o' => (mnemonicOf o').toList == (mnemonicOf o).toList) = some o := by
  cases o <;> rfl

section
variable {w : List Char} {ws : List (List Char)} (hw : isWord w = true) (hws : ∀ v ∈ ws, isWord v = true)
include hw hws

/-- No comment is cut off. -/
theorem takeWhile_operandLine (o : Op) : (operandLine o w ws).takeWhile (fun c => c != ';') = operandLine o w ws := by
  have hname : ';' ∉ (mnemonicOf o).toList := semicolon_notMem_word (isWord_mnemonicOf o)
  have htail : ';' ∉ operandTail ws := by simpa [operandTail] using fun v hv => semicolon_notMem_word (hws v hv)
  have hline : ';' ∉ operandLine o w ws := by simp [operandLine_eq, hname, semicolon_notMem_word hw, htail]
  rw [List.takeWhile_eq_self_iff]
  intro c hc
  exact bne_iff_ne.2 fun heq => hline (heq ▸ hc)

/-- A text that ends in operands ends in a word. -/
theorem exists_last_word (text : List Char) : ∃ t v, isWord v = true ∧ text ++ w ++ operandTail ws = t ++ v := by
  rcases List.eq_nil_or_concat ws with rfl | ⟨vs, v, rfl⟩
  · exact ⟨text, w, hw, List.append_nil _⟩
  · exact ⟨text ++ w ++ operandTail vs ++ [',', ' '], v, hws v (by simp), by simp [operandTail]⟩

/-- A text that begins with a word and ends in operands is not trimmed. -/
theorem trimBlanks_operands {text : List Char} (hfirst : ∀ c ∈ (text ++ w).head?, isBlank c = false) :
    trimBlanks (text ++ w ++ operandTail ws) = text ++ w ++ operandTail ws := by
  refine trimBlanks_eq_self ?_ ?_
  · rw [List.head?_append_of_ne_nil _ (List.append_ne_nil_of_right_ne_nil _ (ne_nil_of_isWord hw))]
    exact hfirst
  · obtain ⟨t, v, hv, ht⟩ := exists_last_word hw hws text
    rw [ht, List.getLast?_append_of_ne_nil _ (ne_nil_of_isWord hv)]
    exact fun c hc => isBlank_of_mem_word hv (List.mem_of_mem_getLast? hc)

theorem trimBlanks_operandLine (o : Op) : trimBlanks (operandLine o w ws) = operandLine o w ws := by
  have hname : isWord (mnemonicOf o).toList = true := isWord_mnemonicOf o
  have hline : operandLine o w ws = (mnemonicOf o).toList ++ [' '] ++ w ++ operandTail ws := by simp [operandLine_eq]
  rw [hline]
  refine trimBlanks_operands hw hws ?_
  rw [List.append_assoc, List.head?_append_of_ne_nil _ (ne_nil_of_isWord hname)]
  exact fun c hc => isBlank_of_mem_word hname (List.mem_of_mem_head? hc)

theorem operandWords_operands : operandWords (' ' :: (w ++ operandTail ws)) = w :: ws := by
  have htrim : trimBlanks (' ' :: (w ++ operandTail ws)) = w ++ operandTail ws :=
    trimBlanks_operands (text := []) hw hws fun c hc => isBlank_of_mem_word hw (List.mem_of_mem_head? hc)
  have hne : w ++ operandTail ws ≠ [] := List.append_ne_nil_of_left_ne_nil (ne_nil_of_isWord hw) _
  have hsplit : splitCommas (' ' :: w ++ operandTail ws) = (' ' :: w) :: ws.map (' ' :: ·) :=
    splitCommas_operands (by simpa using comma_notMem_word hw) fun v hv => comma_notMem_word (hws v hv)
  have hwords : ws.map (trimBlanks ∘ (' ' :: ·)) = ws :=
    (List.map_congr_left fun v hv => trimBlanks_word (hws v hv)).trans (List.map_id ws)
  rw [operandWords, htrim, if_neg hne, ← List.cons_append, hsplit, List.map_cons, List.map_map, hwords,
    trimBlanks_blank_cons, trimBlanks_word hw]

theorem assemble_operandLine (o : Op) : assemble (operandLine o w ws) = readOperands o (w :: ws) := by
  have hname : ∀ rest, ((mnemonicOf o).toList ++ ' ' :: rest).takeWhile (fun c => !isBlank c) = (mnemonicOf o).toList := by
    intro rest
    rw [List.takeWhile_append_of_pos fun c hc => by simp [isBlank_of_mem_word (isWord_mnemonicOf o) hc]]
    simp [isBlank]
  simp only [assemble, takeWhile_operandLine hw hws, trimBlanks_operandLine hw hws]
  rw [operandLine_eq, hname, find_mnemonicOf, Option.bind_some, List.drop_left, operandWords_operands hw hws]

end

/-- A line with word operands that are read as `i` assembles to `i`. -/
theorem assemble_eq_some {o : Op} {w : List Char} {ws : List (List Char)} {i : Instr}
    (hwords : (w :: ws).all isWord = true) (h : readOperands o (w :: ws) = some i) :
    assemble (operandLine o w ws) = some i := by
  obtain ⟨hw, hws⟩ : isWord w = true ∧ ∀ v ∈ ws, isWord v = true := by simpa using hwords
  rw [assemble_operandLine hw hws, h]

theorem assemble_setpixel {name : List Char} {colour : BitVec 2} (hname : isWord name = true)
    (hcolour : readColour name = some colour) (x y : Half) :
    assemble (operandLine .setpixel (decimalInt x.toInt) [decimalInt y.toInt, name]) = some (.setpixel x y colour) :=
  assemble_eq_some (by simp [hname]) (by simp [readOperands, hcolour])

theorem assemble_drawbitmap {name : List Char} {invert : Bool} (hname : isWord name = true)
    (hinvert : readFlag name = some invert) (x y w h : Half) (data : Addr) :
    assemble (operandLine .drawbitmap (decimalInt x.toInt)
      [decimalInt y.toInt, decimal w.toNat, decimal h.toNat, decimal data.toNat, name]) =
        some (.drawbitmap x y w h data invert) :=
  assemble_eq_some (by simp [hname]) (by simp [readOperands, hinvert])

/-- The four scroll starts read the same two operands. -/
theorem assemble_pages {o : Op} {k : Byte → Byte → Instr} (ho : readOperands o = readPages k) (start stop : Byte) :
    assemble (operandLine o (decimal start.toNat) [decimal stop.toNat]) = some (k start stop) :=
  assemble_eq_some (by simp) (by simp [ho, readPages])

/-! ### The obligation -/

/-- Settles O7: operands are read only into well-formed operations; a line without operands is one of ten, and a line with
operands is read as its mnemonic and the operands, each of which is read back from its numeral or name. -/
theorem assembledLineIsLegal : Obligations.AssembledLineIsLegal := by
  refine ⟨fun _ _ => assemble_wf, by decide, fun w h buffer size => ?_, fun r => ?_, fun x y => ⟨?_, ?_, ?_⟩,
    fun x y w h data invert => ?_, fun x y w h src => ?_, fun pattern delay => ?_, fun page pattern delay => ?_,
    fun c => ?_, fun start stop => ⟨?_, ?_, ?_, ?_⟩⟩
  · exact assemble_eq_some (o := .setbuf) (ws := [decimal h.toNat, decimal buffer.toNat, decimal size.toNat]) (by simp)
      (by simp [readOperands])
  · exact assemble_eq_some (o := .setrot) (ws := []) (by simp) (by simp [readOperands])
  · exact assemble_setpixel rfl rfl x y
  · exact assemble_setpixel rfl rfl x y
  · exact assemble_setpixel rfl rfl x y
  · cases invert with
    | true => exact assemble_drawbitmap rfl rfl x y w h data
    | false => exact assemble_drawbitmap rfl rfl x y w h data
  · exact assemble_eq_some (o := .xfer) (w := decimalInt x.toInt)
      (ws := [decimalInt y.toInt, decimal w.toNat, decimal h.toNat, decimal src.toNat]) (by simp) (by simp [readOperands])
  · exact assemble_eq_some (o := .fillscreen) (ws := [decimal delay.toNat]) (by simp) (by simp [readOperands])
  · exact assemble_eq_some (o := .fillpage) (ws := [decimal pattern.toNat, decimal delay.toNat]) (by simp)
      (by simp [readOperands])
  · exact assemble_eq_some (o := .setcontrast) (ws := []) (by simp) (by simp [readOperands])
  · exact assemble_pages (o := .scrollHr) rfl start stop
  · exact assemble_pages (o := .scrollHl) rfl start stop
  · exact assemble_pages (o := .scrollDr) rfl start stop
  · exact assemble_pages (o := .scrollDl) rfl start stop

end Sys2Proof.Machine
end

section
/-! SUPPORT. Initialisation and configuration (40_init_config.md): what each of INIT, SETBUF and SETROT answers, the changes
that they make and that these commute, and the obligations on them. -/

namespace Sys2Proof.Machine

/-! ### INIT (R110, R111) -/

/-- The frames of INIT. -/
def initFrames (c : Config) : List BusEvent := (initBytes c).map (cmdFrame c)

@[simp] theorem initFrames_length (c : Config) : (initFrames c).length = 26 := rfl

theorem exec_init_answered {s : State} (h : s.willAnswer 26 = true) :
    exec .init s = .next ((s.emit (initFrames s.cfg)).respond 0#32) :=
  sendCmds_answered h

/-! ### SETBUF (R114) -/

section
variable {w h : Half} {buffer size : Addr}

theorem checkSetBuf_errSize (hs : h.toNat % 8 ≠ 0 ∨ size.toNat ≠ w.toNat * (h.toNat / 8)) :
    checkSetBuf w h buffer size = .errSize := if_pos hs

theorem checkSetBuf_errNull (hs : ¬(h.toNat % 8 ≠ 0 ∨ size.toNat ≠ w.toNat * (h.toNat / 8))) (hb : buffer = 0#32) :
    checkSetBuf w h buffer size = .errNull := (if_neg hs).trans (if_pos hb)

theorem checkSetBuf_ok (hs : ¬(h.toNat % 8 ≠ 0 ∨ size.toNat ≠ w.toNat * (h.toNat / 8))) (hb : buffer ≠ 0#32) :
    checkSetBuf w h buffer size = .ok := (if_neg hs).trans (if_neg hb)

theorem exec_setbuf_ok (hc : checkSetBuf w h buffer size = .ok) (s : State) :
    exec (.setbuf w h buffer size) s = .next ((s.storeHandle buffer w h).respond 0#32) := by
  simp only [exec, execSetbuf, hc, ret_eq, SetBufCode.value]

theorem exec_setbuf_error {code : SetBufCode} (hc : checkSetBuf w h buffer size = code) (hcode : code ≠ .ok) (s : State) :
    exec (.setbuf w h buffer size) s = .next (s.respond code.value) := by
  cases code with
  | ok => exact absurd rfl hcode
  | errSize => simp only [exec, execSetbuf, hc, ret_eq]
  | errNull => simp only [exec, execSetbuf, hc, ret_eq]

end

/-! ### SETROT (R116) -/

theorem exec_setrot (r : BitVec 2) (s : State) : exec (.setrot r) s = .next ((s.setRot r).respond 0#32) := rfl

/-! ### The changes that the three make, and their order (R117) -/

/-- The change that an operation of this family makes before it responds, and the value of its response: neither depends on
what the other two kinds change. -/
inductive Configures : Instr → (State → State) → BitVec 32 → Prop where
  /-- INIT, its frames answered. -/
  | commands : Configures .init (fun s => s.emit (initFrames s.cfg)) 0#32
  /-- SETBUF, the handle stored. -/
  | stored {w h : Half} {buffer size : Addr} (hc : checkSetBuf w h buffer size = .ok) :
      Configures (.setbuf w h buffer size) (State.storeHandle buffer w h) 0#32
  /-- SETBUF turned away. -/
  | notStored {w h : Half} {buffer size : Addr} (hc : checkSetBuf w h buffer size ≠ .ok) :
      Configures (.setbuf w h buffer size) id (checkSetBuf w h buffer size).value
  /-- SETROT. -/
  | rotation (r : BitVec 2) : Configures (.setrot r) (State.setRot r) 0#32

theorem exists_configures {i : Instr} (h : i.op = .init ∨ i.op = .setbuf ∨ i.op = .setrot) : ∃ f v, Configures i f v := by
  cases i with
  | init => exact ⟨_, _, .commands⟩
  | setbuf w hh buffer size =>
    by_cases hc : checkSetBuf w hh buffer size = .ok
    · exact ⟨_, _, .stored hc⟩
    · exact ⟨_, _, .notStored hc⟩
  | setrot r => exact ⟨_, _, .rotation r⟩
  | _ => simp [Instr.op] at h

namespace Configures

variable {i j : Instr} {f g : State → State} {v u : BitVec 32}

theorem exec_eq (hi : Configures i f v) {s : State} (ha : i.op = .init → s.willAnswer 26 = true) :
    exec i s = .next ((f s).respond v) := by
  cases hi with
  | commands => exact exec_init_answered (ha rfl)
  | stored hc => exact exec_setbuf_ok hc s
  | notStored hc => exact exec_setbuf_error rfl hc s
  | rotation r => exact exec_setrot r s

theorem respond_comm (hi : Configures i f v) (w : BitVec 32) (s : State) : f (s.respond w) = (f s).respond w := by
  cases hi <;> rfl

theorem responses_eq (hi : Configures i f v) (s : State) : (f s).responses = s.responses := by
  cases hi <;> rfl

/-- Only INIT uses up answers of the transport. -/
theorem willAnswer_eq (hi : Configures i f v) (hop : i.op ≠ .init) (n : Nat) (s : State) :
    (f s).willAnswer n = s.willAnswer n := by
  cases hi with
  | commands => exact absurd rfl hop
  | _ => rfl

/-- The three kinds change different fields: the trace, the handle and `ROT`. -/
theorem comm (hi : Configures i f v) (hj : Configures j g u) (hne : i.op ≠ j.op) (s : State) : g (f s) = f (g s) := by
  cases hi with
  | commands =>
    cases hj with
    | commands => exact absurd rfl hne
    | _ => rfl
  | stored _ | notStored _ =>
    cases hj with
    | stored _ | notStored _ => exact absurd rfl hne
    | _ => rfl
  | rotation _ =>
    cases hj with
    | rotation _ => exact absurd rfl hne
    | _ => rfl

/-- Two of different kinds, one after the other. -/
theorem exec_exec (hi : Configures i f v) (hj : Configures j g u) (hne : i.op ≠ j.op) {s a b : State}
    (hs : s.willAnswer 26 = true) (ha : exec i s = .next a) (hb : exec j a = .next b) :
    b = ((g (f s)).respond v).respond u := by
  obtain rfl : (f s).respond v = a := Host.Outcome.next.inj ((hi.exec_eq fun _ => hs).symm.trans ha)
  have hans : j.op = .init → ((f s).respond v).willAnswer 26 = true := fun hop =>
    (hi.willAnswer_eq (fun h => hne (h.trans hop.symm)) 26 s).trans hs
  rw [hj.exec_eq hans, hj.respond_comm, Host.Outcome.next.injEq] at hb
  exact hb.symm

end Configures

/-! ### The obligations -/

/-- Settles O16: the changes of two different kinds commute, and the responses do not depend on the state. -/
theorem configurationOrderIsFree : Obligations.ConfigurationOrderIsFree := by
  intro i j s a b c d hs hopi hopj hne ha hb hc hd
  obtain ⟨f, v, hi⟩ := exists_configures hopi
  obtain ⟨g, u, hj⟩ := exists_configures hopj
  have hbEq := hi.exec_exec hj hne hs ha hb
  have hdEq := hj.exec_exec hi hne.symm hs hc hd
  rw [← hi.comm hj hne] at hdEq
  have hresp : (g (f s)).responses = s.responses := (hj.responses_eq _).trans (hi.responses_eq s)
  refine ⟨.done v, .done u, ?_, ?_⟩
  · simp [hbEq, hresp]
  · simp [hbEq, hdEq, State.respond, hresp]

/-- Settles O13: the frames are those of `initBytes`, whose bytes are R110's at each height. -/
theorem initSequence : Obligations.InitSequence := by
  intro s hs
  rw [exec_init_answered hs]
  cases hh : s.cfg.height <;>
    simp [State.emit, State.respond, initFrames, initBytes, cmdFrame, comPins, initContrast, PanelHeight.pixels, hh]

/-- Settles O14, by the three results of the checks. -/
theorem setbufResult : Obligations.SetbufResult := by
  intro s w h buffer size
  split_ifs with hsize hnull
  · exact exec_setbuf_error (checkSetBuf_errSize hsize) (by decide) s
  · exact exec_setbuf_error (checkSetBuf_errNull hsize hnull) (by decide) s
  · exact exec_setbuf_ok (checkSetBuf_ok hsize hnull) s

/-- Settles O15. -/
theorem setrotResult : Obligations.SetrotResult := fun s r => exec_setrot r s

end Sys2Proof.Machine
end

section
/-! SUPPORT. Pixels (41_pixel.md): the inverse of the rotations and of ROTCALC, what SETPIXEL answers in each case, and the
obligations on them. -/

namespace Sys2Proof.Machine

/-! ### The rotations undo each other (R135 (d), R136) -/

theorem logicalDims_neg (r : BitVec 2) (W H : Nat) :
    logicalDims (-r) (logicalDims r W H).1 (logicalDims r W H).2 = (W, H) := by
  rcases rot_cases r with rfl | rfl | rfl | rfl <;> rfl

/-- Rotation `-r`, on the logical frame of rotation `r`, undoes it. -/
theorem rotate_neg_rotate (r : BitVec 2) (W H : Nat) (x y : Int) :
    rotate (-r) (logicalDims r W H).1 (logicalDims r W H).2 (rotate r W H x y).1 (rotate r W H x y).2 = (x, y) := by
  rcases rot_cases r with rfl | rfl | rfl | rfl <;> simp [rotate, logicalDims, swapped]

theorem rotate_rotate_neg (r : BitVec 2) (W H : Nat) (x y : Int) :
    rotate r W H (rotate (-r) (logicalDims r W H).1 (logicalDims r W H).2 x y).1
      (rotate (-r) (logicalDims r W H).1 (logicalDims r W H).2 x y).2 = (x, y) := by
  have h := rotate_neg_rotate (-r) (logicalDims r W H).1 (logicalDims r W H).2 x y
  rwa [logicalDims_neg, BitVec.neg_neg] at h

/-! ### Bits of the buffer and buffer coordinates (R132) -/

/-- The buffer coordinates of bit `p.2` of byte `p.1` of a buffer of width `W`. -/
def bufferCoords (W : Nat) (p : Nat × Nat) : Int × Int := ((p.1 % W : Nat), (8 * (p.1 / W) + p.2 : Nat))

theorem byteIndex_bufferCoords (W : Nat) {k b : Nat} (hb : b < 8) : byteIndex W (bufferCoords W (k, b)) = k := by
  have hpage : (8 * (k / W) + b) / 8 = k / W := by omega
  simp only [byteIndex, bufferCoords, Int.toNat_natCast, hpage, Nat.div_add_mod]

theorem bitIndex_bufferCoords (W k : Nat) {b : Nat} (hb : b < 8) : bitIndex (bufferCoords W (k, b)) = b := by
  simp only [bitIndex, bufferCoords, Int.toNat_natCast]
  omega

theorem bufferCoords_indices {W : Nat} {p : Int × Int} (h0 : 0 ≤ p.1) (hW : p.1 < W) (h1 : 0 ≤ p.2) :
    bufferCoords W (byteIndex W p, bitIndex p) = p := by
  have hlt : p.1.toNat < W := by omega
  obtain ⟨hdiv, hmod⟩ := (Nat.div_mod_unique (Nat.zero_lt_of_lt hlt)).2 ⟨Nat.add_comm _ (W * (p.2.toNat / 8)), hlt⟩
  simp only [bufferCoords, byteIndex, bitIndex, hdiv, hmod, Nat.div_add_mod]
  exact Prod.ext (Int.toNat_of_nonneg h0) (Int.toNat_of_nonneg h1)

/-- The coordinates of a bit of the buffer lie inside it. -/
theorem inRange_bufferCoords {W H k b : Nat} (hH : H % 8 = 0) (hk : k < W * (H / 8)) (hb : b < 8) :
    inRange (W, H) (bufferCoords W (k, b)).1 (bufferCoords W (k, b)).2 = true := by
  have hcol : k % W < W := Nat.mod_lt k (Nat.pos_of_lt_mul_right hk)
  have hpage : k / W < H / 8 := Nat.div_lt_of_lt_mul hk
  simp only [inRange_eq_true, bufferCoords]
  omega

/-! ### The inverse of ROTCALC (R136) -/

/-- The logical coordinates of bit `p.2` of byte `p.1`: back to buffer coordinates, and back through the rotation. -/
def pixelOfBit (r : BitVec 2) (W H : Nat) (p : Nat × Nat) : Int × Int :=
  rotate (-r) (logicalDims r W H).1 (logicalDims r W H).2 (bufferCoords W p).1 (bufferCoords W p).2

theorem pixelOfBit_of_rotcalc {r : BitVec 2} {W H : Nat} {x y : Int} {p : Nat × Nat} (h : rotcalc r W H x y = some p) :
    pixelOfBit r W H p = (x, y) := by
  obtain ⟨hin, rfl⟩ := rotcalc_eq_some.1 h
  obtain ⟨hx0, hxW, hy0, -⟩ := rotate_bounds hin
  rw [pixelOfBit, bufferCoords_indices hx0 hxW hy0, rotate_neg_rotate]

theorem rotcalc_pixelOfBit (r : BitVec 2) {W H k b : Nat} (hH : H % 8 = 0) (hk : k < W * (H / 8)) (hb : b < 8) :
    rotcalc r W H (pixelOfBit r W H (k, b)).1 (pixelOfBit r W H (k, b)).2 = some (k, b) := by
  have hin := inRange_bufferCoords hH hk hb
  rw [← logicalDims_neg r W H] at hin
  rw [rotcalc_eq_some]
  constructor
  · rw [inRange_eq_true]
    exact rotate_bounds hin
  · rw [pixelOfBit, rotate_rotate_neg]
    exact (Prod.ext (byteIndex_bufferCoords W hb) (bitIndex_bufferCoords W k hb)).symm

/-! ### The bounds and the four transforms (R130 to R132) -/

/-- Out of range, with the logical dimensions written out. -/
theorem rotcalc_eq_none_iff_outside {r : BitVec 2} {W H : Nat} {x y : Int} :
    rotcalc r W H x y = none ↔
      x < 0 ∨ (if r = 1#2 ∨ r = 3#2 then (H : Int) else W) ≤ x ∨
        y < 0 ∨ (if r = 1#2 ∨ r = 3#2 then (W : Int) else H) ≤ y := by
  rw [rotcalc_eq_none, ← Bool.not_eq_true, inRange_eq_true, logicalDims]
  simp only [swapped_eq_true]
  split <;> omega

/-- What ROTCALC answers for coordinates that are not negative, given where the rotation sends those in range. -/
theorem rotcalc_natCast {r : BitVec 2} {W H x y x' y' : Nat}
    (h : x < (logicalDims r W H).1 → y < (logicalDims r W H).2 → rotate r W H x y = ((x' : Int), (y' : Int))) :
    rotcalc r W H x y =
      if x < (logicalDims r W H).1 ∧ y < (logicalDims r W H).2 then some (W * (y' / 8) + x', y' % 8) else none := by
  have hin : inRange (logicalDims r W H) x y = true ↔ x < (logicalDims r W H).1 ∧ y < (logicalDims r W H).2 := by
    rw [inRange_eq_true]
    omega
  split
  · next hlt => exact rotcalc_eq_some.2 ⟨hin.2 hlt, by rw [h hlt.1 hlt.2]; rfl⟩
  · next hlt => exact rotcalc_eq_none.2 (Bool.not_eq_true _ ▸ mt hin.1 hlt)

/-- A mirrored coordinate, on the integers and on the naturals. -/
theorem natCast_mirror {n i : Nat} (h : i < n) : (n : Int) - 1 - i = (n - 1 - i : Nat) := by omega

theorem rotate_eq_ite (r : BitVec 2) (W H : Nat) (x y : Int) :
    rotate r W H x y =
      (if r = 0#2 then x else if r = 1#2 then W - 1 - y else if r = 2#2 then W - 1 - x else y,
        if r = 0#2 then y else if r = 1#2 then x else if r = 2#2 then H - 1 - y else H - 1 - x) := by
  unfold rotate
  split_ifs <;> rfl

/-! ### Colours by their codes (R80, R133) -/

theorem Colour.exists_of_ne {colour : BitVec 2} (h : colour ≠ 3#2) : ∃ c, Colour.ofCode colour = some c :=
  Option.ne_none_iff_exists'.1 (mt Colour.ofCode_eq_none.1 h)

/-- The codes of the three colours. -/
theorem Colour.ofCode_eq_some {colour : BitVec 2} {c : Colour} (h : Colour.ofCode colour = some c) :
    (colour = 0#2 ∧ c = .clear) ∨ (colour = 1#2 ∧ c = .set) ∨ (colour = 2#2 ∧ c = .invert) := by
  revert colour c
  decide

theorem applyColour_ofCode {colour : BitVec 2} {c : Colour} (h : Colour.ofCode colour = some c) (mask old : Byte) :
    applyColour c mask old =
      if colour = 1#2 then old ||| mask else if colour = 0#2 then old &&& ~~~ mask else old ^^^ mask := by
  rcases Colour.ofCode_eq_some h with ⟨rfl, rfl⟩ | ⟨rfl, rfl⟩ | ⟨rfl, rfl⟩
  · exact congrArg (old &&& ·) BitVec.allOnes_xor
  · rfl
  · rfl

/-- The masked bit afterwards, by the code of the colour. -/
theorem getLsbD_applyColour_ofCode {colour : BitVec 2} {c : Colour} (h : Colour.ofCode colour = some c) (old : Byte) {b : Nat}
    (hb : b < 8) :
    (applyColour c (bitMask b) old).getLsbD b =
      if colour = 1#2 then true else if colour = 0#2 then false else !old.getLsbD b := by
  rw [getLsbD_applyColour c old hb, if_pos rfl]
  rcases Colour.ofCode_eq_some h with ⟨rfl, rfl⟩ | ⟨rfl, rfl⟩ | ⟨rfl, rfl⟩ <;> rfl

/-! ### What SETPIXEL answers (R134) -/

/-- The state after bit `p.2` of byte `p.1` of the framebuffer is given a colour. -/
def State.plot (c : Colour) (p : Nat × Nat) (s : State) : State :=
  { s with mem :=
      s.mem.write (s.bufBase.toNat + p.1) (applyColour c (bitMask p.2) (s.mem.read (s.bufBase.toNat + p.1))) }

/-- The byte of the framebuffer changes, no other one does. -/
theorem State.plot_mem_read (c : Colour) (p : Nat × Nat) (s : State) (a : Nat) :
    (s.plot c p).mem.read a =
      if a = s.bufBase.toNat + p.1 then applyColour c (bitMask p.2) (s.mem.read (s.bufBase.toNat + p.1)) else s.mem.read a :=
  Memory.read_write _ _ _ _

theorem State.plot_invert_invert_mem_read (p : Nat × Nat) (s : State) (a : Nat) :
    ((s.plot .invert p).plot .invert p).mem.read a = s.mem.read a := by
  have hbase : (s.plot .invert p).bufBase = s.bufBase := rfl
  rw [State.plot_mem_read, State.plot_mem_read, State.plot_mem_read, hbase, if_pos rfl, applyColour_invert_invert]
  split
  · next ha => rw [ha]
  · rfl

section
variable {colour : BitVec 2} {c : Colour} {s t : State} {x y : Half} {p : Nat × Nat}

theorem exec_setpixel (hc : Colour.ofCode colour = some c) (s : State) (x y : Half) :
    exec (.setpixel x y colour) s = withBuffer s (finish (drawPixel x.toInt y.toInt c s)) := by
  simp only [exec, execSetpixel, hc, coord]

theorem exec_setpixel_noBuffer (hc : colour ≠ 3#2) (hv : s.bufValid = false) :
    exec (.setpixel x y colour) s = .next (s.raise .noBuffer) := by
  obtain ⟨c, hc⟩ := Colour.exists_of_ne hc
  rw [exec_setpixel hc, withBuffer_invalid _ hv]

theorem exec_setpixel_dropped (hc : colour ≠ 3#2) (hv : s.bufValid = true) (hp : pixelPlace s x.toInt y.toInt = none) :
    exec (.setpixel x y colour) s = .next (s.respond 0#32) := by
  obtain ⟨c, hc⟩ := Colour.exists_of_ne hc
  rw [exec_setpixel hc, withBuffer_valid _ hv, drawPixel_eq_some.2 (.inl ⟨hp, rfl⟩), finish_some]

theorem exec_setpixel_drawn (hc : Colour.ofCode colour = some c) (hv : s.bufValid = true)
    (hp : pixelPlace s x.toInt y.toInt = some p) (hlt : s.bufBase.toNat + p.1 < 2 ^ 32) :
    exec (.setpixel x y colour) s = .next ((s.plot c p).respond 0#32) := by
  rw [exec_setpixel hc, withBuffer_valid _ hv, drawPixel_eq_some.2 (.inr ⟨p.1, p.2, hp, hlt, rfl⟩), finish_some, State.plot]

/-- In range, SETPIXEL completes only by giving the computed bit its colour. -/
theorem plot_of_exec_setpixel (hc : Colour.ofCode colour = some c) (hv : s.bufValid = true)
    (hp : pixelPlace s x.toInt y.toInt = some p) (ht : exec (.setpixel x y colour) s = .next t) :
    t = (s.plot c p).respond 0#32 := by
  rw [exec_setpixel hc, withBuffer_valid _ hv, finish_eq_next] at ht
  obtain ⟨u, hu, rfl⟩ := ht
  rcases drawPixel_eq_some.1 hu with ⟨hnone, -⟩ | ⟨k, b, hkb, -, rfl⟩
  · rw [hp] at hnone
    cases hnone
  · rw [hp] at hkb
    cases hkb
    rfl

end

/-! ### The obligations -/

/-- Settles O18: `pixelOfBit` is the inverse of ROTCALC. -/
theorem rotcalcBijection : Obligations.RotcalcBijection := by
  intro r W H hH
  refine ⟨fun x y k b h => ?_, fun x y x' y' p h h' => ?_, fun k b hk hb => ⟨_, _, rotcalc_pixelOfBit r hH hk hb⟩⟩
  · obtain ⟨hb, hk⟩ := rotcalc_lt h
    exact ⟨hk hH, hb⟩
  · exact Prod.ext_iff.1 ((pixelOfBit_of_rotcalc h).symm.trans (pixelOfBit_of_rotcalc h'))

/-- Settles O20, by the three answers of SETPIXEL. -/
theorem setpixelResult : Obligations.SetpixelResult := by
  intro s x y colour hcolour W H LW LH
  split
  · next hv => exact exec_setpixel_noBuffer hcolour hv
  · next hv =>
    rw [Bool.not_eq_false] at hv
    split
    · next hout => exact exec_setpixel_dropped hcolour hv (rotcalc_eq_none_iff_outside.2 hout)
    · next hout =>
      intro x' y' addr mask hlt
      obtain ⟨c, hc⟩ := Colour.exists_of_ne hcolour
      obtain ⟨p, hp⟩ := Option.ne_none_iff_exists'.1 (mt rotcalc_eq_none_iff_outside.1 hout)
      obtain rfl : p = (s.bufW.toNat * (y'.toNat / 8) + x'.toNat, y'.toNat % 8) := by
        rw [(rotcalc_eq_some.1 hp).2, rotate_eq_ite]
        rfl
      have haddr : s.bufBase.toNat + (s.bufW.toNat * (y'.toNat / 8) + x'.toNat) = addr := (Nat.add_assoc _ _ _).symm
      refine ⟨_, exec_setpixel_drawn hc hv hp (haddr ▸ hlt), fun a ha => ?_, ?_⟩
      · rw [State.plot_mem_read, haddr, if_neg ha]
      · rw [State.plot_mem_read, haddr, if_pos rfl, applyColour_ofCode hc]
        rfl

/-- Settles O21. -/
theorem setpixelOutOfRangeDropped : Obligations.SetpixelOutOfRangeDropped := by
  intro s x y colour hv hcolour hout
  refine exec_setpixel_dropped hcolour hv (rotcalc_eq_none_iff_outside.2 ?_)
  rcases hout with hx | hy | hx | hy
  · exact .inl hx
  · exact .inr (.inr (.inl hy))
  · exact .inr (.inl hx)
  · exact .inr (.inr (.inr hy))

/-- Settles O22: one byte is written, and a colour changes one bit of a byte. -/
theorem setpixelChangesOneBit : Obligations.SetpixelChangesOneBit := by
  intro s t x y colour k b hv hcolour hp ht
  obtain ⟨c, hc⟩ := Colour.exists_of_ne hcolour
  obtain rfl := plot_of_exec_setpixel hc hv hp ht
  have hb : b < 8 := (rotcalc_lt hp).1
  refine ⟨fun a n hne => ?_, ?_⟩
  · rw [State.respond_mem, State.plot_mem_read]
    split
    · next ha =>
      have hn : n ≠ b := fun hn => hne ⟨ha, hn⟩
      rw [getLsbD_applyColour c _ hb, if_neg hn, ha]
    · rfl
  · rw [State.respond_mem, State.plot_mem_read, if_pos rfl, getLsbD_applyColour_ofCode hc _ hb]

/-- Settles O23: both draws give the same bit the colour INVERT, or neither changes memory. -/
theorem invertTwiceRestores : Obligations.InvertTwiceRestores := by
  intro s t u x y ht hu a
  have hc : Colour.ofCode 2#2 = some .invert := rfl
  have hcolour : 2#2 ≠ 3#2 := by decide
  rcases hv : s.bufValid with _ | _
  · obtain rfl : s.raise .noBuffer = t := Host.Outcome.next.inj ((exec_setpixel_noBuffer hcolour hv).symm.trans ht)
    rw [exec_setpixel_noBuffer (s := s.raise .noBuffer) hcolour hv, Host.Outcome.next.injEq] at hu
    rw [← hu, State.raise_mem, State.raise_mem]
  rcases hp : pixelPlace s x.toInt y.toInt with _ | p
  · obtain rfl : s.respond 0#32 = t := Host.Outcome.next.inj ((exec_setpixel_dropped hcolour hv hp).symm.trans ht)
    rw [exec_setpixel_dropped (s := s.respond 0#32) hcolour hv hp, Host.Outcome.next.injEq] at hu
    rw [← hu, State.respond_mem, State.respond_mem]
  · obtain rfl := plot_of_exec_setpixel hc hv hp ht
    obtain rfl := plot_of_exec_setpixel (s := (s.plot .invert p).respond 0#32) hc hv hp hu
    exact State.plot_invert_invert_mem_read p s a

/-- Settles O17: the four transforms on coordinates in range; a negative coordinate is out of range. -/
theorem rotcalcTransforms : Obligations.RotcalcTransforms := by
  intro W H
  refine ⟨fun x y => ⟨?_, ?_, ?_, ?_⟩, fun r x y hneg => ?_⟩
  · exact rotcalc_natCast fun _ _ => rfl
  · exact rotcalc_natCast fun (_ : x < H) (hy : y < W) => Prod.ext (natCast_mirror hy) rfl
  · exact rotcalc_natCast fun (hx : x < W) (hy : y < H) => Prod.ext (natCast_mirror hx) (natCast_mirror hy)
  · exact rotcalc_natCast fun (hx : x < H) (_ : y < W) => Prod.ext rfl (natCast_mirror hx)
  · rw [rotcalc_eq_none_iff_outside]
    omega

/-- Settles O19: rotation `-r` undoes rotation `r`. -/
theorem rotationAlgebra : Obligations.RotationAlgebra := by
  intro W H x y
  refine ⟨rotate_neg_rotate 2#2 W H x y, rotate_neg_rotate 1#2 W H x y, rotate_neg_rotate 3#2 W H x y, rfl, ?_⟩
  simp [rotate]

end Sys2Proof.Machine
end

section
/-! SUPPORT. Transfers and fills (42_transfer.md): the offsets that the formula gives, what each of XFER, UPDATE, CLEARBUF,
FILLSCREEN and FILLPAGE answers, and the obligations on them. -/

namespace Sys2Proof.Machine

/-! ### The offsets that the formula gives (R141, R142) -/

section
variable {c : Config} (hc : c.xferOffset = .formula)
include hc

theorem xferColumns_formula (x : Int) (w page n col counter : Nat) :
    (xferColumns c x w page n col counter).1 =
      ((List.range' col n).filter (columnOnPanel c x)).map (w * (page / 8) + ·) := by
  induction n generalizing col counter with
  | zero => rfl
  | succ n ih =>
    have hoff : sentOffset c.xferOffset w page col counter = w * (page / 8) + col := by rw [hc]; rfl
    rw [xferColumns, List.range'_succ]
    split
    · next hon => rw [List.filter_cons_of_pos hon, List.map_cons, ← ih _ (counter + 1), hoff]
    · next hon => rw [List.filter_cons_of_neg hon, ih]

theorem xferRows_formula (x y : Int) (w n r counter : Nat) :
    xferRows c x y w n (8 * r) counter =
      ((List.range' r n).filter fun r => rowOnPanel c y (8 * r)).flatMap fun r =>
        ((List.range w).filter (columnOnPanel c x)).map (w * r + ·) := by
  induction n generalizing r counter with
  | zero => rfl
  | succ n ih =>
    have hcols : (xferColumns c x w (8 * r) w 0 counter).1 =
        ((List.range w).filter (columnOnPanel c x)).map (w * r + ·) := by
      rw [xferColumns_formula hc, Nat.mul_div_cancel_left r (by decide), List.range_eq_range']
    rw [xferRows, List.range'_succ]
    split
    · next hon =>
      rw [List.filter_cons_of_pos (p := fun r => rowOnPanel c y (8 * r)) hon, List.flatMap_cons, ← hcols]
      exact congrArg _ (ih (r + 1) _)
    · next hon =>
      rw [List.filter_cons_of_neg (p := fun r => rowOnPanel c y (8 * r)) hon]
      exact ih (r + 1) counter

end

theorem rowOnPanel_eq_decide (c : Config) (y : Int) (r : Nat) :
    rowOnPanel c y (8 * r) = decide (0 ≤ y + 8 * (r : Int) ∧ y + 8 * (r : Int) < c.height.pixels) := by
  simp [rowOnPanel]

theorem columnOnPanel_eq_decide (c : Config) (x : Int) (col : Nat) :
    columnOnPanel c x col = decide (0 ≤ x + (col : Int) ∧ x + (col : Int) < c.width) := by
  simp [columnOnPanel]

/-! ### Frames that are answered -/

/-- What an operation that only sends frames answers, with their number written out. -/
theorem sendFrames_eq_next {es : List BusEvent} {s : State} {n : Nat} (hn : es.length = n) (hans : s.willAnswer n = true) :
    sendFrames es s = .next { s with
      trace := s.trace ++ es
      answersLeft := s.answersLeft.map (· - n)
      responses := s.responses ++ [.done 0#32] } := by
  subst hn
  exact sendFrames_answered hans

/-! ### XFER and UPDATE (R141, R144) -/

/-- A transfer whose source lies inside the space, its frames answered: the window, and the byte at each offset. -/
theorem transferRegion_inSpace {x y : Int} {w h src : Nat} {s : State} (hspace : src + w * ((h + 7) / 8) ≤ 2 ^ 32)
    (hans : s.willAnswer (6 + (xferOffsets s.cfg x y w h).length) = true) :
    transferRegion x y w h src s = .next { s with
      trace := s.trace ++ windowFrames s.cfg ++
        (xferOffsets s.cfg x y w h).map fun o => dataFrame s.cfg (s.mem.read (src + o))
      answersLeft := s.answersLeft.map (· - (6 + (xferOffsets s.cfg x y w h).length))
      responses := s.responses ++ [.done 0#32] } := by
  have hoffsets : ∀ o ∈ xferOffsets s.cfg x y w h, src + o < 2 ^ 32 := fun o ho => by
    have := xferOffsets_lt s.cfg x y w h o ho
    omega
  rw [transferRegion_eq_next, List.append_assoc]
  exact ⟨hoffsets, sendFrames_eq_next (by rw [List.length_append, List.length_map, windowFrames_length]) hans⟩

/-- A transfer from a source that holds only zeros, its frames answered: the window, and a data frame 0 for each offset. -/
theorem transferRegion_zeros {x y : Int} {w h src : Nat} {s t : State}
    (hzero : ∀ o, o < w * ((h + 7) / 8) → s.mem.read (src + o) = 0)
    (hans : s.willAnswer (6 + (xferOffsets s.cfg x y w h).length) = true) (ht : transferRegion x y w h src s = .next t) :
    t.trace = s.trace ++ windowFrames s.cfg ++ List.replicate (xferOffsets s.cfg x y w h).length (dataFrame s.cfg 0) := by
  obtain rfl := Host.Outcome.next.inj (ht.symm.trans (transferRegion_answered (transferRegion_eq_next.1 ht).1 hans))
  have hbytes : (xferOffsets s.cfg x y w h).map (fun o => dataFrame s.cfg (s.mem.read (src + o))) =
      List.replicate (xferOffsets s.cfg x y w h).length (dataFrame s.cfg 0) :=
    List.map_eq_replicate_iff.2 fun o ho => by rw [hzero o (xferOffsets_lt s.cfg x y w h o ho)]
  rw [State.respond_trace, State.emit_trace, hbytes, List.append_assoc]

theorem exec_update_noBuffer {s : State} (hv : s.bufValid = false) : exec .update s = .next (s.raise .noBuffer) :=
  withBuffer_invalid _ hv

theorem exec_update {s : State} (hv : s.bufValid = true) :
    exec .update s = transferRegion 0 0 s.bufW.toNat s.bufH.toNat s.bufBase.toNat s :=
  withBuffer_valid _ hv

/-! ### CLEARBUF (R145) -/

theorem exec_clearbuf_noBuffer {s : State} (hv : s.bufValid = false) : exec .clearbuf s = .next (s.raise .noBuffer) :=
  withBuffer_invalid _ hv

theorem exec_clearbuf {s : State} (hv : s.bufValid = true) :
    exec .clearbuf s = finish (memFill 0x00#8 (bufferBytes s) s.bufBase.toNat s) :=
  withBuffer_valid _ hv

/-- What a CLEARBUF that completes does: it zeroes the buffer's bytes and responds. -/
theorem exec_clearbuf_spec {s t : State} (hv : s.bufValid = true) (ht : exec .clearbuf s = .next t) :
    ∃ m : Memory, t = ({ s with mem := m } : State).respond 0#32 ∧
      ∀ a, m.read a = if s.bufBase.toNat ≤ a ∧ a < s.bufBase.toNat + bufferBytes s then 0 else s.mem.read a := by
  rw [exec_clearbuf hv, finish_eq_next] at ht
  obtain ⟨u, hu, rfl⟩ := ht
  obtain ⟨m, rfl, -, hread, -⟩ := memFill_spec hu
  exact ⟨m, rfl, hread⟩

theorem exec_clearbuf_completes {s : State} (hv : s.bufValid = true) (hspace : s.bufferInSpace) :
    ∃ t, exec .clearbuf s = .next t := by
  obtain ⟨u, hu⟩ := memFill_isSome (v := 0x00#8) hspace s
  exact ⟨_, by rw [exec_clearbuf hv, hu, finish_some]⟩

/-! ### FILLSCREEN and FILLPAGE (R146, R147, R149) -/

theorem fillOnePage_eq (c : Config) (p pattern : Byte) :
    fillOnePage c p pattern =
      [BusEvent.write c.busAddr [c.ctrlCmd, c.cmd.pageSelect ||| p],
       BusEvent.write c.busAddr [c.ctrlCmd, c.cmd.setHighColumn],
       BusEvent.write c.busAddr [c.ctrlCmd, c.cmd.setLowColumn]] ++
      List.replicate c.width (BusEvent.write c.busAddr [c.ctrlData, pattern]) := by
  simp only [fillOnePage, BitVec.or_zero, List.map_cons, List.map_nil, cmdFrame, dataFrame]

theorem length_flatMap_fillOnePage (c : Config) (ps : List Nat) (pattern : Byte) :
    (ps.flatMap fun p => fillOnePage c (BitVec.ofNat 8 p) pattern).length = ps.length * (3 + c.width) := by
  simp only [List.length_flatMap, fillOnePage_length, List.map_const', List.sum_replicate, smul_eq_mul]

/-! ### The obligations -/

/-- Settles O24, row by row and within each column by column. -/
theorem xferOffsetsClosedForm : Obligations.XferOffsetsClosedForm := by
  intro c x y w h hc
  simp only [xferOffsets, ← rowOnPanel_eq_decide, ← columnOnPanel_eq_decide, List.range_eq_range' (n := (h + 7) / 8)]
  exact xferRows_formula hc x y w _ 0 0

/-- Settles O25: every row and every column passes its test. -/
theorem xferCountersAgreeUnskipped : Obligations.XferCountersAgreeUnskipped := by
  intro c x y w h hx hxw hy hyh
  rw [xferOffsets, List.range_eq_range']
  refine xferRows_unskipped (fun k hk => columnOnPanel_iff.2 ?_) (fun r hr => rowOnPanel_iff.2 ?_) rfl
  · omega
  · push_cast
    omega

/-- Settles O26: the sent offsets lie below `w * ceil(h / 8)`, so every byte read is inside the space. -/
theorem xferResult : Obligations.XferResult :=
  fun _ _ _ _ _ _ hspace hans => transferRegion_inSpace hspace hans

/-- Settles O27: the frames of O26, at the offsets of O24. -/
theorem xferSendsRectangle : Obligations.XferSendsRectangle := by
  intro s x y w h src hformula hspace hans
  have hframes := congrArg (List.map fun o => BusEvent.write s.cfg.busAddr [s.cfg.ctrlData, s.mem.read (src.toNat + o)])
    (xferOffsetsClosedForm s.cfg x.toInt y.toInt w.toNat h.toNat hformula)
  simp only [List.map_flatMap, List.map_map, Function.comp_def] at hframes
  rw [xferResult s x y w h src hspace hans, hframes]

/-- Settles O28: with a handle, UPDATE is a transfer of the whole buffer by definition. -/
theorem updateIsXferOfBuffer : Obligations.UpdateIsXferOfBuffer := by
  intro s
  split
  · next hv => exact exec_update_noBuffer hv
  · next hv =>
    rw [Bool.not_eq_false] at hv
    rw [exec_update hv]
    exact ⟨rfl, fun hspace hans => ⟨_, transferRegion_inSpace hspace hans, rfl⟩⟩

/-- Settles O29: the offsets of the whole panel are all of its bytes in order. -/
theorem updateSendsWholeFramebuffer : Obligations.UpdateSendsWholeFramebuffer := by
  intro s hv hbufW hbufH hspace hans
  have hoffsets := xferOffsets_wholePanel s.cfg
  have hlen : (xferOffsets s.cfg 0 0 s.cfg.width s.cfg.height.pixels).length = s.cfg.width * s.cfg.pages := by
    rw [hoffsets, List.length_range]
  have hpages : (s.cfg.height.pixels + 7) / 8 = s.cfg.pages := by rw [Config.pixels_eq_pages]; omega
  rw [exec_update hv, hbufW, hbufH, transferRegion_inSpace (by rwa [hpages]) (by rwa [hlen]), hlen, hoffsets]
  rfl

/-- Settles O30: the fill of the buffer is done, and writes no other byte. -/
theorem clearbufResult : Obligations.ClearbufResult := by
  intro s
  split
  · next hv => exact exec_clearbuf_noBuffer hv
  · next hv =>
    rw [Bool.not_eq_false] at hv
    intro hspace
    obtain ⟨t, ht⟩ := exec_clearbuf_completes hv hspace
    obtain ⟨m, rfl, hread⟩ := exec_clearbuf_spec hv ht
    exact ⟨m, ht, hread⟩

/-- Settles O31: with a height that is a multiple of 8 every offset of the transfer is a byte of the buffer. -/
theorem clearThenUpdateSendsZeros : Obligations.ClearThenUpdateSendsZeros := by
  intro s t u hhandle ht hu hv hans
  obtain ⟨m, rfl, hread⟩ := exec_clearbuf_spec hv ht
  obtain ⟨-, hmod⟩ := State.handleOk_iff.1 hhandle hv
  rw [exec_update (s := ({ s with mem := m } : State).respond 0#32) hv] at hu
  refine transferRegion_zeros (s := ({ s with mem := m } : State).respond 0#32) (fun o ho => ?_) hans hu
  have hlt : o < bufferBytes s := by
    rwa [show (s.bufH.toNat + 7) / 8 = s.bufH.toNat / 8 by omega] at ho
  exact (hread _).trans (if_pos ⟨Nat.le_add_right _ _, Nat.add_lt_add_left hlt _⟩)

/-- Settles O32: the frames are one page body (`fillOnePage_eq`) per page. -/
theorem fillscreenResult : Obligations.FillscreenResult := by
  intro s pattern delay hans
  simp only [← fillOnePage_eq]
  exact sendFrames_eq_next (by rw [length_flatMap_fillOnePage, List.length_range, Config.pages]) hans

/-- Settles O33: the frames are one page body (`fillOnePage_eq`). -/
theorem fillpageResult : Obligations.FillpageResult := by
  intro s page pattern delay hans
  rw [List.append_assoc, ← fillOnePage_eq]
  exact sendFrames_eq_next (fillOnePage_length _ _ _) hans

end Sys2Proof.Machine
end

section
/-! SUPPORT. Bitmaps (43_blit.md): the pixel loop of DRAWBITMAP as folds of `drawBit`, the framebuffer bits that such a fold
leaves, what DRAWBITMAP answers in each case, and the obligations on it. -/

namespace Sys2Proof.Machine

/-! ### One pixel, set or cleared (R133, R134) -/

/-- The same state on another memory. -/
def State.withMem (m : Memory) (s : State) : State := { s with mem := m }

@[simp] theorem State.withMem_mem (m : Memory) (s : State) : (s.withMem m).mem = m := rfl

/-- The colour of a pixel of a blit: SET for 1, CLEAR for 0. -/
def bitColour (on : Bool) : Colour := if on then .set else .clear

theorem applyColour_bitColour (on : Bool) (mask old : Byte) :
    applyColour (bitColour on) mask old = if on then old ||| mask else old &&& ~~~ mask := by
  cases on with
  | true => rfl
  | false => exact congrArg (old &&& ·) BitVec.allOnes_xor

/-- A pixel of a blit gives the masked bit its value and leaves the other seven alone. -/
theorem getLsbD_applyColour_bitColour (on : Bool) (old : Byte) {b : Nat} (hb : b < 8) (n : Nat) :
    (applyColour (bitColour on) (bitMask b) old).getLsbD n = if n = b then on else old.getLsbD n := by
  rw [getLsbD_applyColour _ _ hb]
  cases on <;> rfl

section
variable {s : State} {x y : Int} {on : Bool} {m : Memory}

theorem drawBit_dropped (hp : pixelPlace s x y = none) : drawBit s x y on m = m := by
  rw [pixelPlace] at hp
  simp only [drawBit, hp]

theorem drawBit_drawn {k b : Nat} (hp : pixelPlace s x y = some (k, b)) :
    drawBit s x y on m =
      m.write (s.bufBase.toNat + k) (applyColour (bitColour on) (bitMask b) (m.read (s.bufBase.toNat + k))) := by
  rw [pixelPlace] at hp
  simp only [drawBit, hp, applyColour_bitColour, bitMask]

/-- Where SETPIXEL's steps complete on memory `m`, they do what `drawBit` does. -/
theorem drawPixel_bitColour {u : State} (h : drawPixel x y (bitColour on) (s.withMem m) = some u) :
    u = s.withMem (drawBit s x y on m) := by
  rcases drawPixel_eq_some.1 h with ⟨hp, rfl⟩ | ⟨k, b, hp, -, rfl⟩
  · rw [drawBit_dropped (s := s) hp]
  · rw [drawBit_drawn (s := s) hp]
    rfl

/-- The bits of the framebuffer after one pixel. -/
theorem getLsbD_drawBit (s : State) (x y : Int) (on : Bool) (m : Memory) (k b : Nat) :
    ((drawBit s x y on m).read (s.bufBase.toNat + k)).getLsbD b =
      if pixelPlace s x y = some (k, b) then on else (m.read (s.bufBase.toNat + k)).getLsbD b := by
  rcases hp : pixelPlace s x y with _ | ⟨k', b'⟩
  · simp [drawBit_dropped hp]
  · have hb' : b' < 8 := (rotcalc_lt hp).1
    rw [drawBit_drawn hp, Memory.read_write]
    by_cases hk : k = k'
    · subst hk
      simp only [if_true, getLsbD_applyColour_bitColour _ _ hb', Option.some.injEq, Prod.mk.injEq, true_and, eq_comm (a := b)]
    · simp [hk, Ne.symm hk]

theorem drawBit_read_outside (hH : s.bufH.toNat % 8 = 0) {a : Nat} (ha : ¬ s.inBuffer a) :
    (drawBit s x y on m).read a = m.read a := by
  rcases hp : pixelPlace s x y with _ | ⟨k, b⟩
  · rw [drawBit_dropped hp]
  · rw [drawBit_drawn hp, Memory.read_write, if_neg]
    rintro rfl
    have hk : k < bufferBytes s := (rotcalc_lt hp).2 hH
    exact ha ⟨Nat.le_add_right _ _, Nat.add_lt_add_left hk _⟩

/-- A bit of the framebuffer is the place of one pixel at most (R136). -/
theorem pixelPlace_inj {x' y' : Int} {p : Nat × Nat} (h : pixelPlace s x y = some p) (h' : pixelPlace s x' y' = some p) :
    x = x' ∧ y = y' :=
  Prod.mk.inj ((pixelOfBit_of_rotcalc h).symm.trans (pixelOfBit_of_rotcalc h'))

end

/-! ### The pixel loop, byte by byte (R161) -/

/-- The blit of a bitmap at `(x, y)`, its colours swapped by `invert` (R162). -/
def blitOf (x y : Int) (w data : Nat) (invert : Bool) : Blit where
  x := x
  y := y
  w := w
  data := data
  fg := if invert then .clear else .set
  bg := if invert then .set else .clear

/-- Byte `c` of row `j` of the bitmap: read from memory, and its eight pixels drawn. -/
def drawByteAt (s : State) (x y : Int) (w data : Nat) (invert : Bool) (j c : Nat) (m : Memory) : Memory :=
  drawByte s (x + (8 * c : Nat)) (y + (j : Int)) (m.read (data + j * (w / 8) + c)) invert m

section
variable {s t : State} {x y : Int} {w data : Nat} {invert : Bool}

theorem blitColour_blitOf (cache : Byte) :
    blitColour (blitOf x y w data invert) cache = bitColour (cache.getLsbD 7 ^^ invert) := by
  have hmask : cache &&& 0x80#8 = if cache.getLsbD 7 then 0x80#8 else 0x00#8 := BitVec.and_twoPow cache 7
  rw [blitColour, hmask]
  cases cache.getLsbD 7 <;> cases invert <;> rfl

/-- The cached byte, shifted left, shows the next lower bit of the bitmap byte at bit 7. -/
theorem getLsbD_shiftLeft_seven (byte : Byte) {p : Nat} (hp : p < 8) : (byte <<< p).getLsbD 7 = byte.getLsbD (7 - p) := by
  have hle : ¬ 7 < p := by omega
  rw [BitVec.getLsbD_shiftLeft]
  simp [hle]

/-- The loop from pixel `p` of a bitmap byte to the byte's end, where the cache holds that byte shifted to pixel `p`. -/
theorem blitColumns_restOfByte {j n c p r : Nat} {cache byte : Byte} {m : Memory} (hpr : p + r = 8)
    (hcache : p < 8 → nextCache (blitOf x y w data invert) j (8 * c + p) cache (s.withMem m) = some (byte <<< p))
    (h : blitColumns (blitOf x y w data invert) j (n + r) (8 * c + p) cache (s.withMem m) = some t) :
    ∃ cache', blitColumns (blitOf x y w data invert) j n (8 * (c + 1)) cache'
      (s.withMem ((List.range' p r).foldl (fun m (b : Nat) =>
        drawBit s (x + (8 * c : Nat) + (b : Int)) (y + (j : Int)) (byte.getLsbD (7 - b) ^^ invert) m) m)) = some t := by
  induction r generalizing p cache m with
  | zero =>
    obtain rfl : p = 8 := hpr
    exact ⟨cache, h⟩
  | succ r ih =>
    have hp : p < 8 := by omega
    rw [← Nat.add_assoc, blitColumns, hcache hp] at h
    simp only at h
    split at h
    · cases h
    · next u hu =>
      rw [blitColour_blitOf, getLsbD_shiftLeft_seven byte hp] at hu
      obtain rfl := drawPixel_bitColour hu
      have hshift : ∀ m', p + 1 < 8 → nextCache (blitOf x y w data invert) j (8 * c + (p + 1)) (byte <<< p) (s.withMem m') =
          some (byte <<< (p + 1)) := fun m' _ => by rw [nextCache, if_neg (by omega), BitVec.shiftLeft_add]
      obtain ⟨cache', hrest⟩ := ih (by omega) (hshift _) h
      refine ⟨cache', ?_⟩
      rw [List.range'_succ, List.foldl_cons, Int.add_assoc, ← Int.natCast_add]
      exact hrest

/-- The eight columns of a bitmap byte. -/
theorem blitColumns_byte {j n c : Nat} {cache : Byte} {m : Memory}
    (h : blitColumns (blitOf x y w data invert) j (n + 8) (8 * c) cache (s.withMem m) = some t) :
    ∃ cache', blitColumns (blitOf x y w data invert) j n (8 * (c + 1)) cache'
      (s.withMem (drawByteAt s x y w data invert j c m)) = some t := by
  have hload : nextCache (blitOf x y w data invert) j (8 * c) cache (s.withMem m) =
      memRead (data + j * (w / 8) + c) (s.withMem m) := by
    rw [nextCache, if_pos (Nat.mul_mod_right 8 c), bitmapAddr, Nat.mul_div_cancel_left c (by decide)]
    rfl
  cases hread : memRead (data + j * (w / 8) + c) (s.withMem m) with
  | none =>
    rw [blitColumns, hload, hread] at h
    cases h
  | some byte =>
    obtain ⟨-, hbyte⟩ := memRead_eq_some.1 hread
    have hrest := blitColumns_restOfByte (p := 0) (byte := byte) rfl (fun _ => by rw [Nat.add_zero, hload, hread]; simp) h
    rwa [← hbyte, ← List.range_eq_range'] at hrest

theorem blitColumns_bytes {j n c : Nat} {cache : Byte} {m : Memory}
    (h : blitColumns (blitOf x y w data invert) j (8 * n) (8 * c) cache (s.withMem m) = some t) :
    t = s.withMem ((List.range' c n).foldl (fun m c => drawByteAt s x y w data invert j c m) m) := by
  induction n generalizing c cache m with
  | zero => exact (Option.some.inj h).symm
  | succ n ih =>
    obtain ⟨cache', hrest⟩ := blitColumns_byte h
    exact ih hrest

theorem blitRows_bytes (hw : w % 8 = 0) {j n : Nat} {m : Memory}
    (h : blitRows (blitOf x y w data invert) n j (s.withMem m) = some t) :
    t = s.withMem ((List.range' j n).foldl (fun m j =>
      (List.range (w / 8)).foldl (fun m c => drawByteAt s x y w data invert j c m) m) m) := by
  induction n generalizing j m with
  | zero => exact (Option.some.inj h).symm
  | succ n ih =>
    have hcols : (blitOf x y w data invert).w = 8 * (w / 8) := (Nat.mul_div_cancel' (Nat.dvd_of_mod_eq_zero hw)).symm
    rw [blitRows, hcols] at h
    split at h
    · cases h
    · next u hu =>
      obtain rfl := blitColumns_bytes (c := 0) hu
      rw [← List.range_eq_range'] at h
      exact ih h

/-- Where the pixel loop runs to its end it leaves what the drawing byte by byte leaves. -/
theorem blitRows_eq_drawBytes (hw : w % 8 = 0) {n : Nat} (h : blitRows (blitOf x y w data invert) n 0 s = some t) :
    t = s.withMem (drawBytes s x y w n data invert) := by
  rw [blitRows_bytes (m := s.mem) hw h, ← List.range_eq_range']
  rfl

end

/-! ### Many pixels, each set or cleared -/

/-- Draw the pixels `(j, i)` of a list, row `j` and column `i` from `(x, y)`, each as `on` says. -/
def drawBits (s : State) (x y : Int) (on : Nat × Nat → Bool) (l : List (Nat × Nat)) (m : Memory) : Memory :=
  l.foldl (fun m q => drawBit s (x + (q.2 : Int)) (y + (q.1 : Int)) (on q) m) m

section
variable {s : State} {x y : Int} {on : Nat × Nat → Bool}

theorem drawBits_cons (q : Nat × Nat) (l : List (Nat × Nat)) (m : Memory) :
    drawBits s x y on (q :: l) m = drawBits s x y on l (drawBit s (x + (q.2 : Int)) (y + (q.1 : Int)) (on q) m) := rfl

theorem drawBits_append (l l' : List (Nat × Nat)) (m : Memory) :
    drawBits s x y on (l ++ l') m = drawBits s x y on l' (drawBits s x y on l m) := List.foldl_append

theorem drawBits_read_outside (hH : s.bufH.toNat % 8 = 0) {a : Nat} (ha : ¬ s.inBuffer a) (l : List (Nat × Nat))
    (m : Memory) : (drawBits s x y on l m).read a = m.read a := by
  induction l generalizing m with
  | nil => rfl
  | cons q l ih => rw [drawBits_cons, ih, drawBit_read_outside hH ha]

/-- A bit that is the place of no pixel of the list is as before. -/
theorem getLsbD_drawBits_of_no_target {k b : Nat} {l : List (Nat × Nat)}
    (hl : ∀ q ∈ l, pixelPlace s (x + (q.2 : Int)) (y + (q.1 : Int)) ≠ some (k, b)) (m : Memory) :
    ((drawBits s x y on l m).read (s.bufBase.toNat + k)).getLsbD b = (m.read (s.bufBase.toNat + k)).getLsbD b := by
  induction l generalizing m with
  | nil => rfl
  | cons q l ih =>
    obtain ⟨hq, hl⟩ := List.forall_mem_cons.1 hl
    rw [drawBits_cons, ih hl, getLsbD_drawBit, if_neg hq]

/-- A bit that is the place of a pixel of the list is as that pixel says: no other pixel has the same place. -/
theorem getLsbD_drawBits_of_mem {k b : Nat} {l : List (Nat × Nat)} {q : Nat × Nat} (hq : q ∈ l)
    (hp : pixelPlace s (x + (q.2 : Int)) (y + (q.1 : Int)) = some (k, b)) (m : Memory) :
    ((drawBits s x y on l m).read (s.bufBase.toNat + k)).getLsbD b = on q := by
  induction l generalizing m with
  | nil => cases hq
  | cons q' l ih =>
    rw [drawBits_cons]
    by_cases hmem : q ∈ l
    · exact ih hmem _
    · obtain rfl : q = q' := (List.mem_cons.1 hq).resolve_right hmem
      have hrest : ∀ q' ∈ l, pixelPlace s (x + (q'.2 : Int)) (y + (q'.1 : Int)) ≠ some (k, b) := fun q' hq' hp' => by
        obtain ⟨hi, hj⟩ := pixelPlace_inj hp hp'
        obtain rfl : q = q' := Prod.ext (by omega) (by omega)
        exact hmem hq'
      rw [getLsbD_drawBits_of_no_target hrest, getLsbD_drawBit, if_pos hp]

end

/-! ### A bitmap apart from the framebuffer (R45) -/

/-- What pixel `(j, i)` of the bitmap says: its bit, most significant first, the opposite where `invert` is set. -/
def bitmapBit (s : State) (w data : Nat) (invert : Bool) (q : Nat × Nat) : Bool :=
  (s.mem.read (data + q.1 * (w / 8) + q.2 / 8)).getLsbD (7 - q.2 % 8) ^^ invert

/-- The eight pixels of byte `q.2` of row `q.1`. -/
def bytePixels (q : Nat × Nat) : List (Nat × Nat) := (List.range 8).map fun b => (q.1, 8 * q.2 + b)

/-- Row and column of every pixel of the bitmap, in the order of drawing. -/
def bitmapPixels (w h : Nat) : List (Nat × Nat) := ((List.range h).product (List.range (w / 8))).flatMap bytePixels

theorem mem_bitmapPixels {w h : Nat} (hw : w % 8 = 0) {j i : Nat} : (j, i) ∈ bitmapPixels w h ↔ j < h ∧ i < w := by
  simp only [bitmapPixels, bytePixels, List.mem_flatMap, List.mem_map, List.mem_range, Prod.exists, List.pair_mem_product,
    Prod.mk.injEq]
  constructor
  · rintro ⟨j, c, ⟨hj, hc⟩, b, hb, rfl, rfl⟩
    omega
  · rintro ⟨hj, hi⟩
    exact ⟨j, i / 8, ⟨hj, by omega⟩, i % 8, by omega, rfl, Nat.div_add_mod i 8⟩

/-- Byte `c` of row `j` lies inside a bitmap of `h` rows of `n` bytes. -/
theorem bitmapByte_lt {j h c n : Nat} (hj : j < h) (hc : c < n) : j * n + c < h * n :=
  calc j * n + c < (j + 1) * n := by rw [Nat.succ_mul]; exact Nat.add_lt_add_left hc _
    _ ≤ h * n := Nat.mul_le_mul_right n hj

section
variable {s : State} {x y : Int} {w data : Nat} {invert : Bool}

theorem drawBytes_eq_foldl (h : Nat) :
    drawBytes s x y w h data invert = ((List.range h).product (List.range (w / 8))).foldl
      (fun m q => drawByteAt s x y w data invert q.1 q.2 m) s.mem := by
  simp only [List.product, List.foldl_flatMap, List.foldl_map]
  rfl

/-- A bitmap byte that still holds what it held in `s` draws the pixels that it says in `s`. -/
theorem drawByteAt_eq_drawBits {q : Nat × Nat} {m : Memory}
    (hread : m.read (data + q.1 * (w / 8) + q.2) = s.mem.read (data + q.1 * (w / 8) + q.2)) :
    drawByteAt s x y w data invert q.1 q.2 m = drawBits s x y (bitmapBit s w data invert) (bytePixels q) m := by
  rw [drawByteAt, drawByte, drawBits, bytePixels, List.foldl_map, hread]
  refine List.foldl_ext _ _ _ fun m b hb => ?_
  have hb : b < 8 := List.mem_range.1 hb
  have hbyte : (8 * q.2 + b) / 8 = q.2 := by omega
  have hbit : (8 * q.2 + b) % 8 = b := by omega
  simp only [bitmapBit, hbyte, hbit, Int.natCast_add, Int.add_assoc]

theorem foldl_drawByteAt_eq_drawBits (hH : s.bufH.toNat % 8 = 0) {l : List (Nat × Nat)}
    (hout : ∀ q ∈ l, ¬ s.inBuffer (data + q.1 * (w / 8) + q.2)) {m : Memory}
    (hread : ∀ q ∈ l, m.read (data + q.1 * (w / 8) + q.2) = s.mem.read (data + q.1 * (w / 8) + q.2)) :
    l.foldl (fun m q => drawByteAt s x y w data invert q.1 q.2 m) m =
      drawBits s x y (bitmapBit s w data invert) (l.flatMap bytePixels) m := by
  induction l generalizing m with
  | nil => rfl
  | cons q l ih =>
    obtain ⟨-, hout⟩ := List.forall_mem_cons.1 hout
    obtain ⟨hq, hread⟩ := List.forall_mem_cons.1 hread
    rw [List.foldl_cons, List.flatMap_cons, drawBits_append, drawByteAt_eq_drawBits hq]
    exact ih hout fun q' hq' => (drawBits_read_outside hH (hout q' hq') _ m).trans (hread q' hq')

/-- A bitmap that does not overlap the framebuffer is drawn as it stands before the blit. -/
theorem drawBytes_eq_drawBits (hH : s.bufH.toNat % 8 = 0) {h : Nat}
    (hapart : data + h * (w / 8) ≤ s.bufBase.toNat ∨ s.bufBase.toNat + bufferBytes s ≤ data) :
    drawBytes s x y w h data invert = drawBits s x y (bitmapBit s w data invert) (bitmapPixels w h) s.mem := by
  rw [drawBytes_eq_foldl]
  refine foldl_drawByteAt_eq_drawBits hH (fun q hq ⟨hlo, hhi⟩ => ?_) fun _ _ => rfl
  obtain ⟨hj, hc⟩ := (List.pair_mem_product (x := q.1) (y := q.2)).1 hq
  have hlt := bitmapByte_lt (List.mem_range.1 hj) (List.mem_range.1 hc)
  omega

end

/-! ### The checks (R160) -/

section
variable {LW LH : Nat} {x y : Int} {w h : Half} {data : Addr}

theorem inRange_eq_false : inRange (LW, LH) x y = false ↔ x < 0 ∨ (LW : Int) ≤ x ∨ y < 0 ∨ (LH : Int) ≤ y := by
  rw [← Bool.not_eq_true, inRange_eq_true]
  omega

/-- The checks, with the range test written out. -/
theorem checkBlit_eq_ite :
    checkBlit (LW, LH) x y w h data =
      if x < 0 ∨ (LW : Int) ≤ x ∨ y < 0 ∨ (LH : Int) ≤ y then .outOfScreenBounds
      else if LW < w.toNat ∨ LH < h.toNat then .largerThanScreen
      else if data = 0#32 then .nullBitmapPointer
      else if w.toNat % 8 ≠ 0 then .invalidWidthAlignment
      else .success := by
  simp only [checkBlit, inRange_eq_false]

theorem width_aligned_of_checkBlit (hc : checkBlit (LW, LH) x y w h data = .success) : w.toNat % 8 = 0 := by
  by_contra hw
  rw [checkBlit_eq_ite, if_pos hw] at hc
  split_ifs at hc

end

/-! ### What DRAWBITMAP answers (R162) -/

section
variable {s t : State} {x y w h : Half} {data : Addr} {invert : Bool} (hv : s.bufValid = true)
include hv

theorem exec_drawbitmap_error {code : BlitCode}
    (hc : checkBlit (logicalDims s.rot s.bufW.toNat s.bufH.toNat) x.toInt y.toInt w h data = code) (hcode : code ≠ .success) :
    exec (.drawbitmap x y w h data invert) s = .next (s.respond code.value) := by
  rw [exec, execDrawbitmap, withBuffer_valid _ hv, coord, coord, hc]
  cases code with
  | success => exact absurd rfl hcode
  | _ => rfl

variable (hc : checkBlit (logicalDims s.rot s.bufW.toNat s.bufH.toNat) x.toInt y.toInt w h data = .success)
include hc

theorem exec_drawbitmap :
    exec (.drawbitmap x y w h data invert) s =
      finish (blitRows (blitOf x.toInt y.toInt w.toNat data.toNat invert) h.toNat 0 s) := by
  rw [exec, execDrawbitmap, withBuffer_valid _ hv, coord, coord, hc]
  rfl

/-- What a blit that completes does: it draws the bitmap byte by byte and responds. -/
theorem exec_drawbitmap_spec (ht : exec (.drawbitmap x y w h data invert) s = .next t) :
    t = (s.withMem (drawBytes s x.toInt y.toInt w.toNat h.toNat data.toNat invert)).respond 0#32 := by
  rw [exec_drawbitmap hv hc, finish_eq_next] at ht
  obtain ⟨u, hu, rfl⟩ := ht
  rw [blitRows_eq_drawBytes (width_aligned_of_checkBlit hc) hu]

theorem exec_drawbitmap_completes (hH : s.bufH.toNat % 8 = 0) (hbuf : s.bufferInSpace)
    (hdata : data.toNat + h.toNat * (w.toNat / 8) ≤ 2 ^ 32) :
    ∃ t, exec (.drawbitmap x y w h data invert) s = .next t := by
  have hw : w.toNat % 8 = 0 := width_aligned_of_checkBlit hc
  obtain ⟨u, hu⟩ := blitRows_isSome (blitOf x.toInt y.toInt w.toNat data.toNat invert) (n := h.toNat) (j := 0) hH hbuf
    fun j i _ hj (hi : i < w.toNat) => by
      have hlt : j * (w.toNat / 8) + i / 8 < h.toNat * (w.toNat / 8) := bitmapByte_lt (by omega) (by omega)
      simp only [bitmapAddr, blitOf]
      omega
  exact ⟨_, by rw [exec_drawbitmap hv hc, hu, finish_some]⟩

end

/-- With a height that is a multiple of 8, an operation leaves every byte outside the buffer as it is (R53). -/
theorem exec_read_outside {i : Instr} {s t : State} (h : exec i s = .next t) (hH : s.bufH.toNat % 8 = 0) {a : Nat}
    (ha : ¬ s.inBuffer a) : t.mem.read a = s.mem.read a := by
  rcases (exec_cases h).mem_cases with hmem | ⟨-, -, u, hu, hmem⟩
  · rw [hmem]
  · rw [hmem, hu.read_outside hH ha]

/-! ### The obligations -/

/-- Settles O57: the blit completes inside the space, and a blit that completes draws byte by byte. -/
theorem drawbitmapDrawsByteByByte : Obligations.DrawbitmapDrawsByteByByte := by
  intro s x y w h data invert hv hH hc hbuf hdata
  obtain ⟨t, ht⟩ := exec_drawbitmap_completes (invert := invert) hv hc hH hbuf hdata
  rw [ht, exec_drawbitmap_spec hv hc ht]
  rfl

/-- Settles O34, by the results of the checks; where all pass the blit is that of O57. -/
theorem drawbitmapChecksInOrder : Obligations.DrawbitmapChecksInOrder := by
  intro s x y w h data invert LW LH hv hdims
  have hlogical : (LW, LH) = logicalDims s.rot s.bufW.toNat s.bufH.toNat := by
    simp only [hdims, logicalDims, swapped_eq_true]
  have hcheck := checkBlit_eq_ite (LW := LW) (LH := LH) (x := x.toInt) (y := y.toInt) (w := w) (h := h) (data := data)
  rw [hlogical] at hcheck
  split_ifs at hcheck ⊢ with hrange hsize hnull halign
  · exact exec_drawbitmap_error hv hcheck (by decide)
  · exact exec_drawbitmap_error hv hcheck (by decide)
  · exact exec_drawbitmap_error hv hcheck (by decide)
  · exact exec_drawbitmap_error hv hcheck (by decide)
  · intro hH hbuf hdata
    have ht := drawbitmapDrawsByteByByte s x y w h data invert hv hH hcheck hbuf hdata
    refine ⟨_, ht, fun a ha => exec_read_outside ht hH fun ⟨hlo, hhi⟩ => ?_⟩
    rw [bufferBytes] at hhi
    omega

/-- Settles O35: the bitmap is apart from the framebuffer, so it is drawn as it stood, and each pixel in range has a bit of its
own. -/
theorem drawbitmapPixels : Obligations.DrawbitmapPixels := by
  intro s t x y w h data invert hv hH hc hapart ht
  have hw : w.toNat % 8 = 0 := width_aligned_of_checkBlit hc
  rw [exec_drawbitmap_spec hv hc ht, State.respond_mem, State.withMem_mem, drawBytes_eq_drawBits hH hapart]
  constructor
  · intro j i k b hj hi hp
    exact getLsbD_drawBits_of_mem ((mem_bitmapPixels hw).2 ⟨hj, hi⟩) hp s.mem
  · intro k b _ _ hnone
    refine getLsbD_drawBits_of_no_target (fun ⟨j, i⟩ hq => ?_) s.mem
    obtain ⟨hj, hi⟩ := (mem_bitmapPixels hw).1 hq
    exact hnone j i hj hi

end Sys2Proof.Machine
end

section
/-! SUPPORT. Controls (44_control.md): what command frames and a scroll sequence answer where the transport answers them, and the
obligations on the controls. -/

namespace Sys2Proof.Machine

/-- What an operation that only sends command frames answers, its frames answered (R86). -/
theorem sendCmds_eq_next {bs : List Byte} {s : State} (hans : s.willAnswer bs.length = true) :
    sendCmds bs s = .next { s with
      trace := s.trace ++ bs.map (cmdFrame s.cfg)
      answersLeft := s.answersLeft.map (· - bs.length)
      responses := s.responses ++ [.done 0#32] } :=
  sendFrames_eq_next (List.length_map _) hans

/-- A scroll start sends the bytes of its entry for these pages (R91, R174). -/
theorem sendScroll_eq_next {q : ScrollSequence} {start stop : Byte} {bytes : List Byte} {s : State}
    (hbytes : scrollBytes s.cfg q start stop = bytes) (hans : s.willAnswer bytes.length = true) :
    sendScroll q start stop s = .next { s with
      trace := s.trace ++ bytes.map (cmdFrame s.cfg)
      answersLeft := s.answersLeft.map (· - bytes.length)
      responses := s.responses ++ [.done 0#32] } := by
  subst hbytes
  exact sendCmds_eq_next hans

/-! ### The obligations -/

/-- Settles O37: the entry is the one that `scrollBytes_complete` gives for the function, and under a configuration the function
is `scrollBytes` of its entry. -/
theorem scrollSendsItsSequence : Obligations.ScrollSendsItsSequence := by
  refine ⟨fun f => ?_, fun c => ?_⟩
  · obtain ⟨q, hq⟩ := scrollBytes_complete f
    have hentry : ∀ {s : State} {start stop : Byte} {e : ScrollSequence}, e = q →
        scrollBytes s.cfg e start stop = f start stop := fun he => he ▸ hq _ _ _
    exact ⟨q, fun s start stop => ⟨fun he => sendScroll_eq_next (hentry he), fun he => sendScroll_eq_next (hentry he),
      fun he => sendScroll_eq_next (hentry he), fun he => sendScroll_eq_next (hentry he)⟩⟩
  · refine ⟨scrollBytes c c.scroll.hr, scrollBytes c c.scroll.hl, scrollBytes c c.scroll.dr, scrollBytes c c.scroll.dl, ?_⟩
    rintro s start stop rfl
    exact ⟨sendScroll_eq_next rfl, sendScroll_eq_next rfl, sendScroll_eq_next rfl, sendScroll_eq_next rfl⟩

/-- Settles O36: each of the five sends one list of command bytes. -/
theorem displayControls : Obligations.DisplayControls :=
  fun _ _ _ => ⟨fun hans => sendCmds_eq_next hans, fun hans => sendCmds_eq_next hans, fun hans => sendCmds_eq_next hans,
    fun hans => sendCmds_eq_next hans, fun hans => sendCmds_eq_next hans⟩

/-- Settles O39: the read is answered, and its count is drawn in the state after it. -/
theorem checkconnResult : Obligations.CheckconnResult := by
  intro s hans
  rw [exec, execCheckconn, busCalls_answered]
  · rfl
  · exact hans

end Sys2Proof.Machine
end

section
/-! SUPPORT. Exceptions (60_exceptions.md): what an operation does under transports that answer more or fewer calls, the wait of a
blocked FBSEQ, and the obligations on the fault NoBuffer and the silent transport. -/

namespace Sys2Proof.Machine

/-! ### Another count of answers left (R197) -/

/-- The same state before a transport with this many answers left. -/
def State.withAnswers (o : Option Nat) (s : State) : State := { s with answersLeft := o }

@[simp] theorem State.withAnswers_rot (o : Option Nat) (s : State) : (s.withAnswers o).rot = s.rot := rfl
@[simp] theorem State.withAnswers_bufW (o : Option Nat) (s : State) : (s.withAnswers o).bufW = s.bufW := rfl
@[simp] theorem State.withAnswers_bufH (o : Option Nat) (s : State) : (s.withAnswers o).bufH = s.bufH := rfl
@[simp] theorem State.withAnswers_trace (o : Option Nat) (s : State) : (s.withAnswers o).trace = s.trace := rfl

/-! ### What makes no bus call does not see the count -/

theorem drawPixel_withAnswers (o : Option Nat) {x y : Int} {c : Colour} {s t : State} (h : drawPixel x y c s = some t) :
    drawPixel x y c (s.withAnswers o) = some (t.withAnswers o) := by
  rcases drawPixel_eq_some.1 h with ⟨hp, rfl⟩ | ⟨k, b, hp, hlt, rfl⟩
  · exact drawPixel_eq_some.2 (.inl ⟨hp, rfl⟩)
  · exact drawPixel_eq_some.2 (.inr ⟨k, b, hp, hlt, rfl⟩)

theorem nextCache_withAnswers (o : Option Nat) (b : Blit) (j i : Nat) (cache : Byte) (s : State) :
    nextCache b j i cache (s.withAnswers o) = nextCache b j i cache s := rfl

theorem blitColumns_withAnswers (o : Option Nat) {b : Blit} {j n i : Nat} {cache : Byte} {s t : State}
    (h : blitColumns b j n i cache s = some t) : blitColumns b j n i cache (s.withAnswers o) = some (t.withAnswers o) := by
  induction n generalizing i cache s with
  | zero =>
    cases h
    rfl
  | succ n ih =>
    rw [blitColumns] at h ⊢
    rw [nextCache_withAnswers]
    split at h
    · cases h
    · split at h
      · cases h
      · next hpixel =>
        simp only [drawPixel_withAnswers o hpixel]
        exact ih h

theorem blitRows_withAnswers (o : Option Nat) {b : Blit} {n j : Nat} {s t : State} (h : blitRows b n j s = some t) :
    blitRows b n j (s.withAnswers o) = some (t.withAnswers o) := by
  induction n generalizing j s with
  | zero =>
    cases h
    rfl
  | succ n ih =>
    rw [blitRows] at h ⊢
    split at h
    · cases h
    · next hrow =>
      simp only [blitColumns_withAnswers o hrow]
      exact ih h

theorem memFill_withAnswers (o : Option Nat) {v : Byte} {n a : Nat} {s t : State} (h : memFill v n a s = some t) :
    memFill v n a (s.withAnswers o) = some (t.withAnswers o) := by
  induction n generalizing a s with
  | zero =>
    cases h
    rfl
  | succ n ih =>
    rw [memFill] at h ⊢
    split at h
    · cases h
    · next hbyte =>
      obtain ⟨ha, rfl⟩ := memWrite_eq_some.1 hbyte
      rw [memWrite_eq_some.2 ⟨ha, rfl⟩]
      exact ih h

theorem finish_withAnswers {o : Option Nat} {p q : Option State} {t : State}
    (hpq : ∀ u, p = some u → q = some (u.withAnswers o)) (h : finish p = .next t) : finish q = .next (t.withAnswers o) := by
  obtain ⟨u, hu, rfl⟩ := finish_eq_next.1 h
  rw [hpq u hu]
  rfl

theorem withBuffer_withAnswers {o : Option Nat} {s t : State} {p q : Result}
    (hpq : p = .next t → q = .next (t.withAnswers o)) (h : withBuffer s p = .next t) :
    withBuffer (s.withAnswers o) q = .next (t.withAnswers o) := by
  cases hv : s.bufValid with
  | true =>
    rw [withBuffer_valid p hv] at h
    rw [withBuffer_valid (s := s.withAnswers o) q hv]
    exact hpq h
  | false =>
    rw [withBuffer_invalid p hv] at h
    cases h
    exact withBuffer_invalid q hv

theorem execDrawbitmap_withAnswers (o : Option Nat) {x y w h : Half} {data : Addr} {invert : Bool} {s t : State}
    (ht : execDrawbitmap x y w h data invert s = .next t) :
    execDrawbitmap x y w h data invert (s.withAnswers o) = .next (t.withAnswers o) := by
  refine withBuffer_withAnswers (fun hdrawn => ?_) ht
  simp only [State.withAnswers_rot, State.withAnswers_bufW, State.withAnswers_bufH]
  generalize checkBlit _ _ _ _ _ _ = code at hdrawn ⊢
  cases code with
  | success => exact finish_withAnswers (fun _ => blitRows_withAnswers o) hdrawn
  | outOfScreenBounds | largerThanScreen | nullBitmapPointer | invalidWidthAlignment =>
    cases hdrawn
    rfl

/-- The configuration and framebuffer operations do the same whatever the transport has left to answer (R40, R197). -/
theorem exec_withAnswers (o : Option Nat) {i : Instr} {s t : State}
    (hop : i.op = .setbuf ∨ i.op = .setrot ∨ i.op = .setpixel ∨ i.op = .drawbitmap ∨ i.op = .clearbuf)
    (h : exec i s = .next t) : exec i (s.withAnswers o) = .next (t.withAnswers o) := by
  cases i with
  | setbuf w hh buffer size =>
    rw [exec, execSetbuf] at h ⊢
    cases hc : checkSetBuf w hh buffer size with
    | ok | errSize | errNull =>
      rw [hc] at h
      cases h
      rfl
  | setrot r =>
    cases h
    rfl
  | setpixel x y colour =>
    rw [exec, execSetpixel] at h ⊢
    cases hc : Colour.ofCode colour with
    | none =>
      rw [hc] at h
      cases h
      rfl
    | some c =>
      rw [hc] at h
      exact withBuffer_withAnswers (finish_withAnswers fun _ => drawPixel_withAnswers o) h
  | drawbitmap x y w hh data invert => exact execDrawbitmap_withAnswers o h
  | clearbuf => exact withBuffer_withAnswers (finish_withAnswers fun _ => memFill_withAnswers o) h
  | init | xfer | update | fillscreen | fillpage | powerdown | setenabled | setcontrast | setinvert | scrollHr | scrollHl
  | scrollDr | scrollDl | stopscroll | checkconn => simp [Instr.op] at hop

/-! ### Bus calls counted (R197, 00_scope.md R12) -/

/-- What is left of bus calls `es` from `s`, which end in `u` where all are answered, before a transport with `k` answers left. -/
def State.afterCalls (s u : State) (k : Nat) (es : List BusEvent) : State :=
  if es.length ≤ k then { u with answersLeft := some (k - es.length) }
  else { s with trace := s.trace ++ es.take (k + 1), answersLeft := some 0, blocked := true }

/-- `counted` is what becomes of `answered`, the result from `s` where every call is answered, under the transport of `s`:
the same calls up to the first unanswered one. -/
def CountsCalls (s : State) (answered counted : Result) : Prop :=
  ∀ (u : State) (k : Nat) (es : List BusEvent), s.answersLeft = some k → answered = .next u → u.trace = s.trace ++ es →
    counted = .next (s.afterCalls u k es)

/-- Without a bus call the two results differ in the count alone. -/
theorem CountsCalls.ofNoCall {s : State} {answered counted : Result}
    (h : ∀ u, answered = .next u → u.trace = s.trace ∧ counted = .next (u.withAnswers s.answersLeft)) :
    CountsCalls s answered counted := by
  intro u k es hk hu htrace
  obtain ⟨hsame, hcounted⟩ := h u hu
  obtain rfl : es = [] := by simpa [hsame] using htrace
  rw [hcounted, hk]
  rfl

/-- Bus calls that are followed by no other and by no look at the count. -/
theorem busCalls_countsCalls (es : List BusEvent) {f : State → State} (s : State)
    (hf : ∀ (t : State) (o : Option Nat), f (t.withAnswers o) = (f t).withAnswers o) (htrace : ∀ t, (f t).trace = t.trace) :
    CountsCalls s (busCalls es (fun t => .next (f t)) (s.withAnswers none)) (busCalls es (fun t => .next (f t)) s) := by
  intro u k es' hk hu hes
  rw [busCalls_answered _ rfl] at hu
  cases hu
  obtain rfl : es = es' := by simpa [htrace] using hes
  unfold State.afterCalls
  split
  · next hle =>
    have hans : s.willAnswer es.length = true := by simp [State.willAnswer, hk, hle]
    have hemit : s.emit es = ((s.withAnswers none).emit es).withAnswers (some (k - es.length)) := by
      simp [State.emit, State.withAnswers, hk]
    rw [busCalls_answered _ hans, hemit, hf]
    rfl
  · next hgt =>
    have hans : s.willAnswer es.length = false := by simpa [State.willAnswer, hk] using hgt
    rw [busCalls_unanswered _ hans, State.block, hk]
    rfl

theorem sendFrames_countsCalls (es : List BusEvent) (s : State) :
    CountsCalls s (sendFrames es (s.withAnswers none)) (sendFrames es s) :=
  busCalls_countsCalls es s (fun _ _ => rfl) fun _ => rfl

/-- A transfer reads the same bytes under both transports, and then only sends frames. -/
theorem transferRegion_countsCalls (x y : Int) (w h src : Nat) (s : State) :
    CountsCalls s (transferRegion x y w h src (s.withAnswers none)) (transferRegion x y w h src s) := by
  intro u k es hk hu hes
  obtain ⟨hspace, hsent⟩ := transferRegion_eq_next.1 hu
  exact transferRegion_eq_next.2 ⟨hspace, sendFrames_countsCalls _ s u k es hk hsent hes⟩

theorem exec_update_countsCalls (s : State) : CountsCalls s (exec .update (s.withAnswers none)) (exec .update s) := by
  cases hv : s.bufValid with
  | true =>
    rw [exec_update hv, exec_update (s := s.withAnswers none) hv]
    exact transferRegion_countsCalls _ _ _ _ _ s
  | false =>
    rw [exec_update_noBuffer hv, exec_update_noBuffer (s := s.withAnswers none) hv]
    refine .ofNoCall fun u hu => ?_
    cases hu
    exact ⟨rfl, rfl⟩

/-- Every operation makes the calls that it makes where all are answered, up to the first unanswered one. -/
theorem exec_countsCalls (i : Instr) (s : State) : CountsCalls s (exec i (s.withAnswers none)) (exec i s) := by
  by_cases hop : i.op = .setbuf ∨ i.op = .setrot ∨ i.op = .setpixel ∨ i.op = .drawbitmap ∨ i.op = .clearbuf
  · exact .ofNoCall fun u hu => ⟨(exec_cases hu).trace_eq hop, exec_withAnswers (s := s.withAnswers none) s.answersLeft hop hu⟩
  · cases i with
    | setbuf | setrot | setpixel | drawbitmap | clearbuf => simp [Instr.op] at hop
    | xfer x y w h src => exact transferRegion_countsCalls _ _ _ _ _ s
    | update => exact exec_update_countsCalls s
    | checkconn =>
      exact busCalls_countsCalls _ s (f := fun t => (drawCount t).2.respond (drawCount t).1) (fun _ _ => rfl) fun _ => rfl
    | init | fillscreen | fillpage | powerdown | setenabled | setcontrast | setinvert | scrollHr | scrollHl | scrollDr
    | scrollDl | stopscroll => exact sendFrames_countsCalls _ s

theorem run_blocked (n : Nat) {s : State} (hb : s.blocked = true) : Sys2Proof.core.run n s = .next s := by
  have hstep : Sys2Proof.core.step s = .next s := step_blocked hb
  induction n with
  | zero => rfl
  | succ n ih =>
    simp only [Host.Core.run, hstep]
    exact ih

/-! ### The obligations -/

/-- Settles O41: the buffer test of the four stands before all else, and every other operation is well-formed, so that it ends in
one of the cases of O42. -/
theorem noBufferFault : Obligations.NoBufferFault := by
  refine ⟨fun s x y w h colour data invert hv hcolour => ⟨exec_setpixel_noBuffer hcolour hv, withBuffer_invalid _ hv,
    exec_clearbuf_noBuffer hv, exec_update_noBuffer hv⟩, fun i s t hpixel hbitmap hclear hupdate h => ?_⟩
  have hwf : i.wf = true := Instr.wf_iff.2 fun hop => absurd hop hpixel
  rcases (exec_cases h).response_cases hwf with ⟨hdone, -⟩ | ⟨-, -, hop⟩ | ⟨hsilent, hblocked, -⟩
  · exact .inl hdone
  · simp [hpixel, hbitmap, hclear, hupdate] at hop
  · exact .inr ⟨hsilent, hblocked⟩

/-- Settles O58: every operation counts its calls, and a step of a blocked FBSEQ does nothing. -/
theorem silentTransportBlocksForGood : Obligations.SilentTransportBlocksForGood :=
  ⟨fun i s => exec_countsCalls i s, fun n _ => run_blocked n⟩

end Sys2Proof.Machine
end
